-- ==== Sys2Proof/Word.lean ====
section
/-! DEFINITION. The words of the LCD1602 interface block: every width spec/00_scope.md rule R10 gives. All values are
unsigned (spec/00_scope.md section 5). -/

namespace Sys2Proof

/-- The operation word, 32 bits (R10, R70). -/
abbrev OpWord := BitVec 32
/-- A byte: a character, a command byte, an expander byte (R10). -/
abbrev Byte := BitVec 8
/-- A nibble: half a byte (glossary, R81). -/
abbrev Nibble := BitVec 4
/-- An address of TEXT, 16 bits (R10, R40). -/
abbrev TextAddr := BitVec 16
/-- An address of the controller's DDRAM, 7 bits (R40). -/
abbrev DdramAddr := BitVec 7
/-- An I2C device address, 7 bits (R8, R40). -/
abbrev I2cAddr := BitVec 7

end Sys2Proof
end

