-- ==== Sys2Proof/Config.lean ====
section
/-! DEFINITION. What is fixed before the machine is built: the configuration record of spec/00_scope.md rules R8 and R9.
Every definition and statement of the model takes it as it stands in a state; no step changes it. The spec gives the
block no free value of its own, so this file declares none: what is unknown in the world outside the block (R33, R108)
is written `Known.anyValue` in the state. -/

namespace Sys2Proof

/-- The configuration constant `TRANSPORT` (R5, R8): two variants, never both active. -/
inductive Transport where
  | parallel
  | expander
  deriving DecidableEq, Repr

/-- The configuration record: the transport and address of R8, the nine delay parameters of R9 in microseconds. -/
structure Config where
  transport : Transport
  i2cAddr : I2cAddr
  tPwr : Nat
  tInit1 : Nat
  tInit2 : Nat
  tInit3 : Nat
  tMode4 : Nat
  tCmd : Nat
  tClr : Nat
  tEn : Nat
  tXp : Nat
  deriving DecidableEq, Repr

/-- The default of every parameter: 0x27 for the address (R8), the lower bound for each delay and 40 for `T_MODE4` (R9).
DESIGN CHOICE (log 1): the spec leaves `TRANSPORT` open with no default; this record takes EXPANDER, under which all
seven operations exist. Statements are about every configuration, never about this one. -/
def Config.default : Config where
  transport := .expander
  i2cAddr := 0x27
  tPwr := 15000
  tInit1 := 4100
  tInit2 := 100
  tInit3 := 0
  tMode4 := 40
  tCmd := 40
  tClr := 1600
  tEn := 1
  tXp := 1

end Sys2Proof
end

