-- ==== Sys2Proof/Syntax.lean ====
section
/-! DEFINITION. The instructions: one constructor for each of the 17 rows of spec/opcode_table.json, and the coded forms
in which they reach the agent that executes them. The seven operations (R3, R71) go to the block; a command byte, a data
byte (R77, R84) and an initialization nibble (R83) go to the controller; an expander byte (R82) goes to the expander. -/

namespace Sys2Proof

/-- One constructor per row of spec/opcode_table.json, operands as that row's fields. -/
inductive Instr where
  /-- INIT (R130). -/
  | init
  /-- CLEAR (R140). -/
  | clear
  /-- GOTO row, col (R160). -/
  | goto (row col : Byte)
  /-- DISPCTL d, c, b: display visible, cursor visible, cursor blink (R144). -/
  | dispctl (d c b : Bool)
  /-- PRINT ta (R170). -/
  | print (ta : TextAddr)
  /-- SHIFT dir: true = right, false = left (R147, R72). -/
  | shift (dir : Bool)
  /-- BACKLIGHT s: true = on (R150). -/
  | backlight (s : Bool)
  /-- The command byte 0x01 (R77, R57). -/
  | lcdClear
  /-- The command byte 0x06 (R77, R58). -/
  | lcdEntryMode
  /-- The command byte 0000 1dcb (R78, R58). -/
  | lcdDisplayControl (d c b : Bool)
  /-- The command byte 0001 1r00: true = right (R79, R58). -/
  | lcdShiftDisplay (r : Bool)
  /-- The command byte 0x28 (R77, R58). -/
  | lcdFunctionSet
  /-- The command byte 1aaa aaaa (R80, R56). -/
  | lcdSetDdramAddress (a : DdramAddr)
  /-- A byte sent with RS = 1 (R84, R55). -/
  | lcdData (ch : Byte)
  /-- The bare nibble 0x3 of INIT step 2 (R83, R132, R53). -/
  | nibWake
  /-- The bare nibble 0x2 of INIT step 3 (R83, R133, R53). -/
  | nibMode4
  /-- A byte written to the expander: nibble, backlight, EN, RS; RW is fixed 0 (R82, R30). -/
  | xpByte (n : Nibble) (b e r : Bool)
  deriving DecidableEq, Repr

/-- What the controller has taken in whole: a bare nibble (R53) or, in 4-bit mode, a byte put together from two frames
(R54), each with its RS level. -/
inductive Transfer where
  | nibble (rs : Bool) (n : Nibble)
  | byte (rs : Bool) (b : Byte)
  deriving DecidableEq, Repr

/-- A coded instruction with the place it arrives at: an operation word on the operation port (format OPW32), a transfer
at the controller (formats NIB4 and LCD8, the RS level outside the bits), a byte at the expander (format XP8) (R89). -/
inductive Code where
  | op (w : OpWord)
  | lcd (t : Transfer)
  | xp (v : Byte)
  deriving DecidableEq, Repr

end Sys2Proof
end

