-- ==== Sys2Proof/Decode.lean ====
section
/-! DEFINITION. Decoding every coded instruction, total and rejecting by name, the encoder, and the table of
spec/opcode_table.json as rows of a pattern and a mask. -/

namespace Sys2Proof

/-- Why a coded form is no instruction. -/
inductive DecodeError where
  /-- `OPC` is 0x0 or 0x8 to 0xF (R73). -/
  | reservedOpcode
  /-- `RSV`, bits 27:16, is not 0 (R73). -/
  | reservedRsv
  /-- A reserved bit of `ARG` is not 0 (R72, R73). -/
  | reservedArg
  /-- A command byte outside the classes of R77. -/
  | otherCommand
  /-- A bare nibble other than 0x3 and 0x2 with RS = 0 (R83). -/
  | otherNibble
  /-- An expander byte with bit 1, RW, set (R82: bit 1 is always 0). -/
  | readRequested
  deriving DecidableEq, Repr

/-! ### The operation word (spec/30_encoding.md section 1) -/

/-- `OPC`, bits 31:28 (R70). -/
def opcField (w : OpWord) : BitVec 4 := w.extractLsb' 28 4
/-- `RSV`, bits 27:16 (R70). -/
def rsvField (w : OpWord) : BitVec 12 := w.extractLsb' 16 12
/-- `ARG`, bits 15:0 (R70). -/
def argField (w : OpWord) : BitVec 16 := w.extractLsb' 0 16
/-- `row`, bits 15:8 of GOTO (R72). -/
def rowField (w : OpWord) : Byte := w.extractLsb' 8 8
/-- `col`, bits 7:0 of GOTO (R72). -/
def colField (w : OpWord) : Byte := w.extractLsb' 0 8

/-- The operands of an opcode, once `RSV` is known to be 0 (R71, R72). The reserved bits of `ARG` must be 0. -/
def decodeOperands (w : OpWord) : Except DecodeError Instr :=
  let arg := argField w
  if opcField w = 1 then
    if arg = 0 then .ok .init else .error .reservedArg
  else if opcField w = 2 then
    if arg = 0 then .ok .clear else .error .reservedArg
  else if opcField w = 3 then
    .ok (.goto (rowField w) (colField w))
  else if opcField w = 4 then
    if arg.extractLsb' 3 13 = 0 then .ok (.dispctl (arg.getLsbD 2) (arg.getLsbD 1) (arg.getLsbD 0))
    else .error .reservedArg
  else if opcField w = 5 then
    .ok (.print arg)
  else if opcField w = 6 then
    if arg.extractLsb' 1 15 = 0 then .ok (.shift (arg.getLsbD 0)) else .error .reservedArg
  else if opcField w = 7 then
    if arg.extractLsb' 1 15 = 0 then .ok (.backlight (arg.getLsbD 0)) else .error .reservedArg
  else .error .reservedOpcode

/-- An operation word (R70 to R73). That BACKLIGHT is reserved under PARALLEL (R74) is its meaning's business: the
decoder needs no mode (R85). -/
def decodeOp (w : OpWord) : Except DecodeError Instr :=
  if rsvField w = 0 then decodeOperands w else .error .reservedRsv

/-! ### What the controller takes (spec/30_encoding.md section 3) -/

/-- A byte with RS = 0: the command classes of R77; any other byte is none the block emits. -/
def decodeCommand (b : Byte) : Except DecodeError Instr :=
  if b = 0x01 then .ok .lcdClear
  else if b = 0x06 then .ok .lcdEntryMode
  else if b.extractLsb' 3 5 = 1 then .ok (.lcdDisplayControl (b.getLsbD 2) (b.getLsbD 1) (b.getLsbD 0))
  else if b.extractLsb' 3 5 = 3 ∧ b.extractLsb' 0 2 = 0 then .ok (.lcdShiftDisplay (b.getLsbD 2))
  else if b = 0x28 then .ok .lcdFunctionSet
  else if b.getLsbD 7 then .ok (.lcdSetDdramAddress (b.extractLsb' 0 7))
  else .error .otherCommand

/-- A byte with its RS level (R121): RS = 1 makes it a character whatever its value (R84). -/
def decodeByte (rs : Bool) (b : Byte) : Except DecodeError Instr :=
  if rs then .ok (.lcdData b) else decodeCommand b

/-- A bare nibble with its RS level (R83). -/
def decodeNibble (rs : Bool) (n : Nibble) : Except DecodeError Instr :=
  if rs = false ∧ n = 3 then .ok .nibWake
  else if rs = false ∧ n = 2 then .ok .nibMode4
  else .error .otherNibble

/-- A byte at the expander (R82). -/
def decodeExpander (v : Byte) : Except DecodeError Instr :=
  if v.getLsbD 1 then .error .readRequested
  else .ok (.xpByte (v.extractLsb' 4 4) (v.getLsbD 3) (v.getLsbD 2) (v.getLsbD 0))

/-- The decoder, total on every coded form. -/
def decode : Code → Except DecodeError Instr
  | .op w => decodeOp w
  | .lcd (.byte rs b) => decodeByte rs b
  | .lcd (.nibble rs n) => decodeNibble rs n
  | .xp v => decodeExpander v

/-! ### The encoder -/

/-- An operation word from its opcode and operand field; `RSV` is 0 (R70). -/
def opWord (opc : BitVec 4) (arg : BitVec 16) : OpWord := (opc.setWidth 32 <<< 28) ||| arg.setWidth 32

/-- GOTO's operand field: `row` in 15:8, `col` in 7:0 (R72). -/
def gotoArg (row col : Byte) : BitVec 16 := (row.setWidth 16 <<< 8) ||| col.setWidth 16

/-- One bit as a word of width one (spec/00_scope.md section 5: true = 1). -/
def bit1 (v : Bool) : BitVec 1 := BitVec.ofBool v

/-- The coded form of an instruction, from R71, R72, R77 to R84. -/
def encode : Instr → Code
  | .init => .op (opWord 1 0)
  | .clear => .op (opWord 2 0)
  | .goto row col => .op (opWord 3 (gotoArg row col))
  | .dispctl d c b => .op (opWord 4 ((0 : BitVec 13) ++ bit1 d ++ bit1 c ++ bit1 b))
  | .print ta => .op (opWord 5 ta)
  | .shift dir => .op (opWord 6 ((0 : BitVec 15) ++ bit1 dir))
  | .backlight s => .op (opWord 7 ((0 : BitVec 15) ++ bit1 s))
  | .lcdClear => .lcd (.byte false 0x01)
  | .lcdEntryMode => .lcd (.byte false 0x06)
  | .lcdDisplayControl d c b => .lcd (.byte false ((1 : BitVec 5) ++ bit1 d ++ bit1 c ++ bit1 b))
  | .lcdShiftDisplay r => .lcd (.byte false ((3 : BitVec 5) ++ bit1 r ++ (0 : BitVec 2)))
  | .lcdFunctionSet => .lcd (.byte false 0x28)
  | .lcdSetDdramAddress a => .lcd (.byte false ((1 : BitVec 1) ++ a))
  | .lcdData ch => .lcd (.byte true ch)
  | .nibWake => .lcd (.nibble false 3)
  | .nibMode4 => .lcd (.nibble false 2)
  | .xpByte n b e r => .xp (n ++ bit1 b ++ bit1 e ++ (0 : BitVec 1) ++ bit1 r)

/-! ### The opcode table (R89) -/

/-- A format of spec/opcode_table.json; the RS level of format LCD8 stands outside the byte. -/
inductive Format where
  | opw32
  | lcd8 (rs : Bool)
  | nib4 (rs : Bool)
  | xp8
  deriving DecidableEq, Repr

/-- A row of spec/opcode_table.json: a coded form of this format matches when its masked bits are the pattern. -/
structure TableRow where
  mnemonic : String
  format : Format
  pattern : BitVec 32
  mask : BitVec 32
  deriving DecidableEq, Repr

/-- The format a coded form has. -/
def Code.format : Code → Format
  | .op _ => .opw32
  | .lcd (.byte rs _) => .lcd8 rs
  | .lcd (.nibble rs _) => .nib4 rs
  | .xp _ => .xp8

/-- The bits of a coded form as the table numbers them, bit 0 the least significant. -/
def Code.bits : Code → BitVec 32
  | .op w => w
  | .lcd (.byte _ b) => b.setWidth 32
  | .lcd (.nibble _ n) => n.setWidth 32
  | .xp v => v.setWidth 32

/-- A row selects a coded form: `(W & mask) = match` (R89). -/
def TableRow.selects (r : TableRow) (c : Code) : Bool :=
  decide (c.format = r.format) && decide (c.bits &&& r.mask = r.pattern)

/-- The 17 rows, in the table's order. -/
def tableRows : List TableRow := [
  ⟨"INIT", .opw32, 0x10000000, 0xFFFFFFFF⟩,
  ⟨"CLEAR", .opw32, 0x20000000, 0xFFFFFFFF⟩,
  ⟨"GOTO", .opw32, 0x30000000, 0xFFFF0000⟩,
  ⟨"DISPCTL", .opw32, 0x40000000, 0xFFFFFFF8⟩,
  ⟨"PRINT", .opw32, 0x50000000, 0xFFFF0000⟩,
  ⟨"SHIFT", .opw32, 0x60000000, 0xFFFFFFFE⟩,
  ⟨"BACKLIGHT", .opw32, 0x70000000, 0xFFFFFFFE⟩,
  ⟨"LCD.CLEAR", .lcd8 false, 0x01, 0xFF⟩,
  ⟨"LCD.ENTRY_MODE", .lcd8 false, 0x06, 0xFF⟩,
  ⟨"LCD.DISPLAY_CONTROL", .lcd8 false, 0x08, 0xF8⟩,
  ⟨"LCD.SHIFT_DISPLAY", .lcd8 false, 0x18, 0xFB⟩,
  ⟨"LCD.FUNCTION_SET", .lcd8 false, 0x28, 0xFF⟩,
  ⟨"LCD.SET_DDRAM_ADDRESS", .lcd8 false, 0x80, 0x80⟩,
  ⟨"LCD.DATA", .lcd8 true, 0x00, 0x00⟩,
  ⟨"NIB.WAKE", .nib4 false, 0x3, 0xF⟩,
  ⟨"NIB.MODE4", .nib4 false, 0x2, 0xF⟩,
  ⟨"XP.BYTE", .xp8, 0x00, 0x02⟩]

/-- The mnemonic of an instruction's row. -/
def Instr.mnemonic : Instr → String
  | .init => "INIT"
  | .clear => "CLEAR"
  | .goto _ _ => "GOTO"
  | .dispctl _ _ _ => "DISPCTL"
  | .print _ => "PRINT"
  | .shift _ => "SHIFT"
  | .backlight _ => "BACKLIGHT"
  | .lcdClear => "LCD.CLEAR"
  | .lcdEntryMode => "LCD.ENTRY_MODE"
  | .lcdDisplayControl _ _ _ => "LCD.DISPLAY_CONTROL"
  | .lcdShiftDisplay _ => "LCD.SHIFT_DISPLAY"
  | .lcdFunctionSet => "LCD.FUNCTION_SET"
  | .lcdSetDdramAddress _ => "LCD.SET_DDRAM_ADDRESS"
  | .lcdData _ => "LCD.DATA"
  | .nibWake => "NIB.WAKE"
  | .nibMode4 => "NIB.MODE4"
  | .xpByte _ _ _ _ => "XP.BYTE"

/-! ### Words given by the table's numbering alone -/

/-- Where a word of `nbits` bits arrives, when only its bits are given. The table's 8-bit formats carry neither their
format nor the RS level in the bits, so one byte can stand in several rows. DESIGN CHOICE (log 2): a byte of a command
class (R77) is that command; 0x02 and 0x03 are the bare nibbles (R83); any other byte with bit 1 clear is an expander
byte (R82); what remains is a data byte (R84). The machine itself never asks this: each agent knows what it receives. -/
def tableCode (nbits w : Nat) : Option Code :=
  if nbits = 32 then some (.op (BitVec.ofNat 32 w))
  else if nbits = 8 ∨ nbits = 4 then
    let b : Byte := BitVec.ofNat 8 w
    if b = 0x02 ∨ b = 0x03 ∨ nbits = 4 then some (.lcd (.nibble false (BitVec.ofNat 4 w)))
    else match decodeCommand b with
      | .ok _ => some (.lcd (.byte false b))
      | .error _ => if b.getLsbD 1 then some (.lcd (.byte true b)) else some (.xp b)
  else none

/-- The instruction the decoder reads from a word of the opcode table's numbering. -/
def decodeTableWord (nbits w : Nat) : Option Instr :=
  match tableCode nbits w with
  | none => none
  | some c => match decode c with
    | .ok i => some i
    | .error _ => none

end Sys2Proof
end

