-- ==== Sys2Proof/Machine/State.lean ====
section
/-! DEFINITION. The state: the block (spec/10_state.md), and, kept apart from it, the text memory, the lines and the
expander it drives, the controller's view (R35, R52 to R58), the host's acts and the trace (R12). Plain data throughout. -/

namespace Sys2Proof.Machine

/-- A level, register or field in the world outside the block, which the spec lets be "unknown (any value)" (R33, R108,
spec/93_implementation_defined.md). `anyValue` is that value of the spec, and says nothing of what the hardware holds. -/
inductive Known (α : Type) where
  | anyValue
  | is (v : α)
  deriving DecidableEq, Repr

/-- The seven parallel outputs (R10, R31). -/
inductive Pin where
  | rs
  | rw
  | en
  | d4
  | d5
  | d6
  | d7
  deriving DecidableEq, Repr

/-- The event alphabet (R12). -/
inductive Event where
  /-- `Pin(p, v)`. -/
  | pin (p : Pin) (v : Bool)
  /-- `I2CWrite(a, v)`. -/
  | i2cWrite (a : I2cAddr) (v : Byte)
  /-- `Delay(t)`, microseconds. -/
  | delay (t : Nat)
  /-- `TextRead(a) = v`. -/
  | textRead (a : TextAddr) (v : Byte)
  deriving DecidableEq, Repr

/-- What the controller latches at one falling edge of EN: four data levels, RS and RW (R108). -/
structure Frame where
  n : Nibble
  rs : Bool
  rw : Bool
  deriving DecidableEq, Repr

/-- An entry of `frames(t)` (R108): a frame; a frame with an unknown level in it; `maybe(unknown frame)`. -/
inductive Observed where
  | frame (f : Frame)
  | unknownFrame
  | maybeUnknown
  deriving DecidableEq, Repr

/-- `PINS`, the seven output levels (R29, R31), held by the pin collaborator outside the block. -/
structure PinImage where
  rs : Known Bool
  rw : Known Bool
  en : Known Bool
  d4 : Known Bool
  d5 : Known Bool
  d6 : Known Bool
  d7 : Known Bool
  deriving DecidableEq, Repr

/-- `XP`, the expander's output latch (R29, R30), outside the block. -/
abbrev XpImage := Known Byte

/-- The block's own state: its one persistent bit (R20) and the sequencer's transient latches (R26). What `OPL`, `POS`, `TP` and
`CH` hold while the block is idle is unspecified (R26, R33), and the values they have then are the model's (DESIGN CHOICE,
log 4). -/
structure Block where
  /-- `BL`, 1 = on (R20). It exists only under EXPANDER; under PARALLEL nothing reads or writes it (log 3). -/
  bl : Bool
  /-- `RUN`: busy. -/
  run : Bool
  /-- `OPL`: the accepted operation word. -/
  opl : OpWord
  /-- `POS`: index of the next event of the expansion; for PRINT, within the current character's events. -/
  pos : Nat
  /-- `TP`: the text address of PRINT's next character. -/
  tp : TextAddr
  /-- `CH`: the character PRINT just read. -/
  ch : Byte
  deriving DecidableEq, Repr

/-- The controller's interface mode (R35, R53): "any undefined 8-bit-mode state", or 4-bit mode. -/
inductive Iface where
  | undefined8
  | fourBit
  deriving DecidableEq, Repr

/-- The one entry mode the spec describes, 0x06: auto-increment address, no display shift (R58; N17). -/
inductive EntryMode where
  | incrementNoShift
  deriving DecidableEq, Repr

/-- The one function setting the spec describes, 0x28: 4-bit interface, two lines, 5x8 font (R58; N17). -/
inductive FunctionSet where
  | fourBitTwoLine5x8
  deriving DecidableEq, Repr

/-- The controller as the block sees it (R35, R52 to R58): an environment assumption, no part of the block (R23, D18). -/
structure Lcd where
  /-- The interface mode (R53). -/
  iface : Iface
  /-- How many nibbles 0x3 with RS = 0 it has just latched in a row, 3 for three or more: three force it "into a known
  point" (R53). -/
  wakes : Nat
  /-- The nibble phase in 4-bit mode: none before a high half, the held high half and its RS before a low one (R54). -/
  half : Option (Nibble × Bool)
  /-- The DDRAM address counter (R55 to R57). -/
  ac : Known DdramAddr
  /-- The display shift offset, in steps to the right of zero (R57, R58). -/
  shift : Known Int
  /-- Display visible (R58). -/
  display : Known Bool
  /-- Cursor visible (R58). -/
  cursor : Known Bool
  /-- Cursor blink (R58). -/
  blink : Known Bool
  /-- The entry mode (R58). -/
  entry : Known EntryMode
  /-- The function setting (R58). -/
  function : Known FunctionSet
  /-- The cells of DDRAM whose contents are known, addresses strictly rising; any other cell holds any value (R55). -/
  ddram : List Host.Cell
  deriving DecidableEq, Repr

/-- What the host does to the machine, in order (R11, R64, R76, R210). -/
inductive HostAct where
  /-- Offer an operation word; held off while the block is busy (R76). -/
  | offer (w : OpWord)
  /-- Write a byte of TEXT, which the host holds (R40, R64). -/
  | write (a : TextAddr) (v : Byte)
  /-- Let the block have `n` turns before the next act. -/
  | letRun (n : Nat)
  /-- Assert the reset input (R210, R211). -/
  | reset
  deriving DecidableEq, Repr

/-- The whole machine: configuration, block, and the agents of R11 that feed it, answer it or watch it. -/
structure State where
  /-- The configuration this machine was built with (R8, R9). No step changes it. -/
  cfg : Config
  block : Block
  /-- TEXT, 65536 bytes held by the host (R40, R42). -/
  text : List Host.Cell
  /-- What the host will do next, in order (R11, R60). -/
  script : List HostAct
  pins : PinImage
  xp : XpImage
  /-- A byte the I2C collaborator has carried to the expander and that the expander has not latched yet (R106). -/
  xpBus : Option Byte
  lcd : Lcd
  /-- A whole transfer the controller has latched and not acted on yet (R53, R54). -/
  lcdBus : Option Transfer
  /-- Which of the coming frames are lost on the way to the controller, true = lost; all further ones arrive (R220). -/
  drops : List Bool
  /-- The ghost flag of R216: an INIT has completed since reset. Nothing reads it. -/
  initDone : Bool
  /-- The trace: every event issued since reset, oldest first (R12, R33). -/
  trace : List Event
  deriving DecidableEq, Repr

/-- The reasons a step can fault: none. The block raises no exception and has no error report (R180). -/
inductive Fault where
  deriving DecidableEq, Repr

/-- The reasons a step can refuse. Each is safe: the model stops where the spec says a model should, and no claim about
what follows can be proved. -/
inductive Refusal where
  /-- An arm of `exec` without a meaning; raised nowhere (safe). -/
  | notModelled (mnemonic : String)
  /-- A reserved operation word was offered; raised at acceptance, or for a latched word no acceptance latched (safe;
  R73, R182: a model refuses where the hardware does nothing). -/
  | reservedWord (why : DecodeError)
  /-- BACKLIGHT under PARALLEL; raised by its meaning (safe; R74, R182). -/
  | backlightUnderParallel
  /-- A byte at the expander under PARALLEL, where there is no expander; raised by the meaning of XP.BYTE (safe; R107). -/
  | expanderAbsent
  /-- A byte at the expander that asks for a read, which the block never writes; raised by the expander's turn (safe;
  R30, R217: another writer is outside the model, U2). -/
  | foreignExpanderByte
  /-- A delay parameter below its bound; raised by the step (safe; R9, R218, U5). -/
  | configOutOfBounds
  deriving DecidableEq, Repr

/-- Nothing is known of the pins (R33, R108). -/
def PinImage.unknown : PinImage where
  rs := .anyValue
  rw := .anyValue
  en := .anyValue
  d4 := .anyValue
  d5 := .anyValue
  d6 := .anyValue
  d7 := .anyValue

/-- Nothing is known of the controller: "any undefined 8-bit-mode state" (R33, R53, U4). -/
def Lcd.unknown : Lcd where
  iface := .undefined8
  wakes := 0
  half := none
  ac := .anyValue
  shift := .anyValue
  display := .anyValue
  cursor := .anyValue
  blink := .anyValue
  entry := .anyValue
  function := .anyValue
  ddram := []

/-- The block after reset (R33). DESIGN CHOICE (log 4): the spec leaves the latches `OPL`, `POS`, `TP`, `CH` without a
value at reset; they are 0. -/
def Block.reset : Block where
  bl := true
  run := false
  opl := 0
  pos := 0
  tp := 0
  ch := 0

/-- The machine right after reset under a configuration (R33, R210), with nothing offered and nothing in TEXT. -/
def State.resetWith (c : Config) : State where
  cfg := c
  block := Block.reset
  text := []
  script := []
  pins := PinImage.unknown
  xp := .anyValue
  xpBus := none
  lcd := Lcd.unknown
  lcdBus := none
  drops := []
  initDone := false
  trace := []

/-- The machine right after reset, under the default configuration (log 1). -/
def State.reset : State := State.resetWith Config.default

end Sys2Proof.Machine
end

