-- ==== Sys2Proof/Machine/Flags.lean ====
section
/-! DEFINITION. The flags. The block has no condition codes and computes none (R28): its one control bit is `BL`. The
three display flags are the controller's and are set whole by each Display-Control command (R23, R58). -/

namespace Sys2Proof.Machine

/-- `BL <- v` (R20, R150). -/
def State.setBl (s : State) (v : Bool) : State := { s with block := { s.block with bl := v } }

/-- The controller's three display flags, all of them at once: bit 2 display, bit 1 cursor, bit 0 blink (R58). -/
def Lcd.setFlags (l : Lcd) (d c b : Bool) : Lcd := { l with display := .is d, cursor := .is c, blink := .is b }

end Sys2Proof.Machine
end

