-- ==== Sys2Proof/Machine/Operands.lean ====
section
/-! DEFINITION. Every operand form and all the arithmetic of the block (R88): the bytes it composes from operands, the
nibble split, the expander byte, and the row and column arithmetic of the Addressing Model. -/

namespace Sys2Proof.Machine

/-- `v << k` for a 1-bit `v`, within a byte (R88 c). -/
def bitAt (k : Nat) (v : Bool) : Byte := (BitVec.ofBool v).setWidth 8 <<< k

/-- `hi(b) = b[7:4]` (R81). -/
def highNibble (b : Byte) : Nibble := b.extractLsb' 4 4
/-- `lo(b) = b[3:0]` (R81). -/
def lowNibble (b : Byte) : Nibble := b.extractLsb' 0 4
/-- `(h << 4) | l` (R54, R81). -/
def joinNibbles (h l : Nibble) : Byte := (h.setWidth 8 <<< 4) ||| l.setWidth 8

/-- The Display-Control byte `0x08 | (d << 2) | (c << 1) | b` (R78, R144). -/
def displayControlByte (d c b : Bool) : Byte := 0x08 ||| bitAt 2 d ||| bitAt 1 c ||| bitAt 0 b
/-- The Shift-Display byte: 0x1C rightward, 0x18 leftward (R79, R147). -/
def shiftByte (dir : Bool) : Byte := if dir then 0x1C else 0x18
/-- `col - 1` modulo 256 (R88 a). -/
def columnOffset (col : Byte) : Byte := col - 1
/-- The Set-DDRAM-Address byte of a row and column; none for a row other than 1 and 2, and then the column is not
examined (R80, R160, R161). -/
def gotoByte (row col : Byte) : Option Byte :=
  if row = 1 then some (columnOffset col ||| 0x80)
  else if row = 2 then some (columnOffset col ||| 0xC0)
  else none
/-- `ta + 1` modulo 65536 (R88 d, R174). -/
def nextTextAddr (a : TextAddr) : TextAddr := a + 1

/-- `xp(n, rs, en)`: nibble in 7:4, backlight 3, EN 2, RW = 0 at 1, RS 0 (R30, R82). -/
def expanderByte (n : Nibble) (bl en rs : Bool) : Byte :=
  (n.setWidth 8 <<< 4) ||| bitAt 3 bl ||| bitAt 2 en ||| bitAt 1 false ||| bitAt 0 rs

/-! ### The panel's shape (R10) -/

/-- Rows of the panel (R10). -/
abbrev panelRows : Nat := 2
/-- Visible columns (R10). -/
abbrev visibleColumns : Nat := 16
/-- DDRAM bytes per row (R10). -/
abbrev rowLength : Nat := 40
/-- The DDRAM address a row starts at: 0x00, and 0x40 for the second (R10, R43). -/
def rowBase (row : Fin panelRows) : Nat := 0x40 * row.val

/-- The DDRAM addresses of a row. -/
def ofRow (row : Fin panelRows) (a : DdramAddr) : Bool :=
  decide (rowBase row ≤ a.toNat) && decide (a.toNat < rowBase row + rowLength)
/-- The DDRAM addresses of the two rows: 0x00 to 0x27 and 0x40 to 0x67 (R43). -/
def inRow (a : DdramAddr) : Bool := ofRow 0 a || ofRow 1 a

end Sys2Proof.Machine
end

