-- ==== Sys2Proof/Machine/Ops.lean ====
section
/-! DEFINITION. The named operations: memory, the lines' images, issuing an event, latching a frame, the sequencer's
latches, and reset. The block takes no exception and returns from none (R180, R185, R186); its one asynchronous input is
reset (R183), and `State.applyReset` is what it does. -/

namespace Sys2Proof.Machine

/-! ### Memory: cells in strictly rising address order -/

/-- The value listed at an address. -/
def Memory.find : List Host.Cell → Nat → Option Byte
  | [], _ => none
  | c :: m, a => if c.1 = a then some c.2 else Memory.find m a

/-- List a value at an address, in place of the one listed there, keeping the order. -/
def Memory.put : List Host.Cell → Nat → Byte → List Host.Cell
  | [], a, v => [(a, v)]
  | c :: m, a, v =>
    if a < c.1 then (a, v) :: c :: m
    else if a = c.1 then (a, v) :: m
    else c :: Memory.put m a v

/-- List nothing at an address. -/
def Memory.remove : List Host.Cell → Nat → List Host.Cell
  | [], _ => []
  | c :: m, a => if c.1 = a then m else c :: Memory.remove m a

/-- Addresses strictly rise. -/
abbrev Memory.Rising (m : List Host.Cell) : Prop := m.Pairwise (fun c d => c.1 < d.1)

/-- What a byte of TEXT that the host has not written reads as. DESIGN CHOICE, unsafe (log 5): 0x00. -/
def Memory.unlisted : Byte := 0

/-- The canonical form of TEXT: rising addresses below 65536, no entry equal to what an unlisted address reads as. -/
abbrev Memory.wf (m : List Host.Cell) : Prop :=
  Memory.Rising m ∧ ∀ c ∈ m, c.1 < 65536 ∧ c.2 ≠ Memory.unlisted

/-- The canonical form of the known cells of DDRAM: rising addresses, each in one of the two rows (R43, U1). -/
abbrev Memory.ddramWf (m : List Host.Cell) : Prop :=
  Memory.Rising m ∧ ∀ c ∈ m, c.1 < 128 ∧ inRow (BitVec.ofNat 7 c.1) = true

/-- `MemRead(TEXT, a, 1)`, the value (R41). -/
def State.readText (s : State) (a : TextAddr) : Byte := (Memory.find s.text a.toNat).getD Memory.unlisted

/-- The host writes a byte of TEXT (R40, R64); a cell that comes to read as an unlisted one is not listed. -/
def State.writeText (s : State) (a : TextAddr) (v : Byte) : State :=
  { s with text := if v = Memory.unlisted then Memory.remove s.text a.toNat else Memory.put s.text a.toNat v }

/-- What is known of a cell of DDRAM. -/
def Lcd.readDdram (l : Lcd) (a : DdramAddr) : Known Byte :=
  match Memory.find l.ddram a.toNat with
  | some v => .is v
  | none => .anyValue

/-! ### The lines (R108) -/

/-- The level of one output. -/
def PinImage.get (im : PinImage) : Pin → Known Bool
  | .rs => im.rs
  | .rw => im.rw
  | .en => im.en
  | .d4 => im.d4
  | .d5 => im.d5
  | .d6 => im.d6
  | .d7 => im.d7

/-- `PINS.p <- v` (R29). -/
def PinImage.set (im : PinImage) (p : Pin) (v : Bool) : PinImage :=
  match p with
  | .rs => { im with rs := .is v }
  | .rw => { im with rw := .is v }
  | .en => { im with en := .is v }
  | .d4 => { im with d4 := .is v }
  | .d5 => { im with d5 := .is v }
  | .d6 => { im with d6 := .is v }
  | .d7 => { im with d7 := .is v }

/-- A nibble from its four data levels, D7 the most significant (R46). -/
def nibbleOfLevels (d7 d6 d5 d4 : Bool) : Nibble :=
  BitVec.ofBool d7 ++ BitVec.ofBool d6 ++ BitVec.ofBool d5 ++ BitVec.ofBool d4

/-- The frame on the pins; unknown when any of its levels is. -/
def PinImage.frame (im : PinImage) : Observed :=
  match im.d7, im.d6, im.d5, im.d4, im.rs, im.rw with
  | .is d7, .is d6, .is d5, .is d4, .is rs, .is rw => .frame ⟨nibbleOfLevels d7 d6 d5 d4, rs, rw⟩
  | _, _, _, _, _, _ => .unknownFrame

/-- What the controller latches at `Pin(p, v)`: a frame when EN falls (R52, R108, PARALLEL). -/
def PinImage.observe (im : PinImage) (p : Pin) (v : Bool) : Option Observed :=
  match p, v, im.en with
  | .en, false, .is true => some im.frame
  | .en, false, .anyValue => some .maybeUnknown
  | _, _, _ => none

/-- What the controller latches when the expander takes byte `v`: the frame of the byte held before, when EN falls
(R52, R108, EXPANDER). -/
def XpImage.observe (x : XpImage) (v : Byte) : Option Observed :=
  match x with
  | .is u =>
    if u.getLsbD 2 ∧ v.getLsbD 2 = false then some (.frame ⟨highNibble u, u.getLsbD 0, u.getLsbD 1⟩) else none
  | .anyValue => if v.getLsbD 2 then none else some .maybeUnknown

/-! ### The controller takes a frame -/

/-- Nothing is known of the controller but how many wake nibbles it has just latched. -/
def Lcd.forget (l : Lcd) : Lcd := { Lcd.unknown with wakes := l.wakes }

/-- Whether a frame carries the wake nibble: 0x3 with RS = 0 (R53, R83). -/
def Frame.isWake (f : Frame) : Bool := decide (f.n = 3) && !f.rs

/-- One more wake nibble in a row, 3 standing for three or more (R53: "three times"). -/
def Lcd.oneMoreWake (l : Lcd) : Nat := min 3 (l.wakes + 1)

/-- The count of wake nibbles after a frame. -/
def Lcd.wakesAfter (l : Lcd) (f : Frame) : Nat := if f.isWake then l.oneMoreWake else 0

/-- A frame arrives whole at the controller. Outside 4-bit mode it is a whole transfer (R53). In 4-bit mode every two frames
pair into a byte, high half first, both with one RS (R54, R125); wake nibbles are counted there too, whichever half of a byte
they are (DEDUCED, log 6). Two halves that differ in RS, or a frame with RW = 1, which the controller is never given (R54),
leave nothing known (log 25). -/
def State.takeFrame (s : State) (f : Frame) : State :=
  if f.rw then { s with lcd := Lcd.unknown }
  else
    match s.lcd.iface with
    | .undefined8 => { s with lcdBus := some (.nibble f.rs f.n) }
    | .fourBit =>
      let l := { s.lcd with wakes := s.lcd.wakesAfter f }
      match s.lcd.half with
      | none => { s with lcd := { l with half := some (f.n, f.rs) } }
      | some (h, rs) =>
        if rs = f.rs then { s with lcd := { l with half := none }, lcdBus := some (.byte rs (joinNibbles h f.n)) }
        else { s with lcd := l.forget }

/-- A falling edge of EN has an observation. The environment's next choice may lose it (R220), after which, as after an
unknown frame or `maybe(unknown frame)` (U3, U15), nothing is known of the controller until an INIT completes. -/
def State.latch (s : State) (o : Observed) : State :=
  match s.drops with
  | true :: ds => { s with drops := ds, lcd := Lcd.unknown }
  | _ =>
    match o with
    | .frame f => { s with drops := s.drops.tail }.takeFrame f
    | .unknownFrame => { s with drops := s.drops.tail, lcd := Lcd.unknown }
    | .maybeUnknown => { s with drops := s.drops.tail, lcd := Lcd.unknown }

/-- As `latch`, where there may be no falling edge. -/
def State.latchIf (s : State) (o : Option Observed) : State :=
  match o with
  | none => s
  | some o => s.latch o

/-! ### The block's events and latches -/

/-- `Pin(p, v)` reaches the pin collaborator: the level changes, and the controller samples if EN fell (R50, R52). -/
def State.drivePin (s : State) (p : Pin) (v : Bool) : State :=
  { s with pins := s.pins.set p v }.latchIf (s.pins.observe p v)

/-- `emit(e)`: append the event to the trace and hand it to its collaborator (R12). A delay changes nothing but the trace
(R189), a text read likewise (R42), and a byte for another address than the expander's reaches nothing (R108). -/
def State.emit (s : State) (e : Event) : State :=
  let t := { s with trace := s.trace ++ [e] }
  match e with
  | .pin p v => t.drivePin p v
  | .i2cWrite a v => if a = s.cfg.i2cAddr then { t with xpBus := some v } else t
  | .delay _ => t
  | .textRead _ _ => t

/-- `POS <- p` (R26). -/
def State.setPos (s : State) (p : Nat) : State := { s with block := { s.block with pos := p } }
/-- `TP <- a` (R26, R170). -/
def State.setTp (s : State) (a : TextAddr) : State := { s with block := { s.block with tp := a } }
/-- `CH <- c` (R26, R170). -/
def State.setCh (s : State) (c : Byte) : State := { s with block := { s.block with ch := c } }
/-- `RUN <- 0`: the last event of the expansion has been issued, or the expansion is empty (R76). What the latches hold from
here on is unspecified (R26); they keep their last values, `POS` the index of the last event (DESIGN CHOICE, log 4). -/
def State.idle (s : State) : State := { s with block := { s.block with run := false } }

/-- Issue the event of an expansion at `POS`, and become idle if it was the last, or at once if there is none (R26, R76). -/
def State.issue (s : State) (evs : List Event) : State :=
  match evs[s.block.pos]? with
  | none => s.idle
  | some e =>
    if s.block.pos + 1 < evs.length then (s.emit e).setPos (s.block.pos + 1) else (s.emit e).idle

/-- The reset input (R210, R211, R33): `BL = 1`, idle, the trace empty, no INIT completed, nothing known of the
controller (U4, U13); no event is emitted, the lines and the expander are left as they are, TEXT is the host's. The
transient latches, unspecified, keep what they hold (DESIGN CHOICE, log 4). -/
def State.applyReset (s : State) : State :=
  { s with block := { s.block with bl := true, run := false }, lcd := Lcd.unknown, initDone := false, trace := [] }

end Sys2Proof.Machine
end

