-- ==== Sys2Proof/Machine/Transport.lean ====
section
/-! DEFINITION. The Transport and the Command Encoder (spec/40_transport.md, spec/41_command_encoder.md): the event lists
of the internal procedures `txn`, `send`, `cmd`, `data`, as functions of the configuration and `BL`. -/

namespace Sys2Proof.Machine

/-- `delay(t)`: one event, or none when `t = 0` (R13). -/
def delay (t : Nat) : List Event := if t = 0 then [] else [.delay t]

/-- `txn_par(n, rs)` (R102). -/
def txnPar (c : Config) (n : Nibble) (rs : Bool) : List Event :=
  [.pin .rs rs, .pin .rw false, .pin .d4 (n.getLsbD 0), .pin .d5 (n.getLsbD 1), .pin .d6 (n.getLsbD 2),
    .pin .d7 (n.getLsbD 3), .pin .en true] ++ delay c.tEn ++ [.pin .en false] ++ delay c.tEn

/-- `txn_exp(n, rs)` (R104): the byte with EN = 1, then with EN = 0, both carrying `BL`. -/
def txnExp (c : Config) (bl : Bool) (n : Nibble) (rs : Bool) : List Event :=
  [.i2cWrite c.i2cAddr (expanderByte n bl true rs), .i2cWrite c.i2cAddr (expanderByte n bl false rs)] ++ delay c.tXp

/-- `txn(n, rs)`: the configuration chooses the backend (R100, R107). -/
def txn (c : Config) (bl : Bool) (n : Nibble) (rs : Bool) : List Event :=
  match c.transport with
  | .parallel => txnPar c n rs
  | .expander => txnExp c bl n rs

/-- `send(b, rs)`: the high nibble, then the low (R120, R45). -/
def send (c : Config) (bl : Bool) (b : Byte) (rs : Bool) : List Event :=
  txn c bl (highNibble b) rs ++ txn c bl (lowNibble b) rs

/-- `cmd(b, t)`: a command byte and its class settle (R123). -/
def cmd (c : Config) (bl : Bool) (b : Byte) (t : Nat) : List Event := send c bl b false ++ delay t

/-- `data(ch)`: a character byte and the standard settle (R124). -/
def data (c : Config) (bl : Bool) (ch : Byte) : List Event := send c bl ch true ++ delay c.tCmd

end Sys2Proof.Machine
end

