-- ==== Sys2Proof/Machine/Addressing.lean ====
section
/-! DEFINITION. The Addressing Model (spec/43_addressing.md): GOTO. -/

namespace Sys2Proof.Machine

/-- GOTO's expansion: one Set-DDRAM-Address command, or nothing for a row other than 1 and 2 (R160, R161). -/
def gotoEvents (c : Config) (bl : Bool) (row col : Byte) : List Event :=
  match gotoByte row col with
  | some b => cmd c bl b c.tCmd
  | none => []

/-- GOTO (R160); an empty expansion leaves the block idle at once (R161, R76). -/
def execGoto (row col : Byte) (s : State) : Host.Outcome State Fault Refusal :=
  .next (s.issue (gotoEvents s.cfg s.block.bl row col))

end Sys2Proof.Machine
end

