-- ==== Sys2Proof/Machine/Controller.lean ====
section
/-! DEFINITION. The controller's side (spec/20_memory.md section 5), an environment assumption apart from the block (D18):
what the two bare nibbles and the bytes do to its view. What the spec calls any value becomes unknown. -/

namespace Sys2Proof.Machine

/-- A command or character byte acts in 4-bit mode; in another mode what the controller makes of it is undefined, and
nothing is known afterwards (R54, R216, U6). -/
def State.inFourBit (s : State) (f : Lcd → Lcd) : State :=
  if s.lcd.iface = .fourBit then { s with lcd := f s.lcd } else { s with lcd := s.lcd.forget }

/-- The nibble 0x3 of INIT: one more in a row, and three force the controller to a known point (R132, R53). What it does
to the display is not said (N14): nothing is known of it. -/
def execNibWake (s : State) : Host.Outcome State Fault Refusal :=
  .next { s with lcd := { Lcd.unknown with wakes := s.lcd.oneMoreWake } }

/-- The nibble 0x2 of INIT: after three nibbles 0x3, 4-bit mode at even phase (R133, R53); otherwise nothing is known. -/
def execNibMode4 (s : State) : Host.Outcome State Fault Refusal :=
  .next { s with lcd := { Lcd.unknown with iface := if s.lcd.wakes = 3 then .fourBit else .undefined8 } }

/-- Clear: address counter 0x00, shift offset 0 (R57). What it leaves in DDRAM is not in the source (R57, G1, N13). -/
def Lcd.clear (l : Lcd) : Lcd := { l with ac := .is 0, shift := .is 0, ddram := [] }

/-- LCD.CLEAR (R57). -/
def execLcdClear (s : State) : Host.Outcome State Fault Refusal := .next (s.inFourBit Lcd.clear)

/-- Entry-Mode-Set 0x06 (R58). -/
def Lcd.setEntry (l : Lcd) : Lcd := { l with entry := .is .incrementNoShift }

/-- LCD.ENTRY_MODE (R58). -/
def execLcdEntryMode (s : State) : Host.Outcome State Fault Refusal := .next (s.inFourBit Lcd.setEntry)

/-- LCD.DISPLAY_CONTROL (R58). -/
def execLcdDisplayControl (d c b : Bool) (s : State) : Host.Outcome State Fault Refusal :=
  .next (s.inFourBit (fun l => l.setFlags d c b))

/-- One step of the visible window, right or left; DDRAM and the address counter stay (R58, R147). -/
def Lcd.moveWindow (l : Lcd) (right : Bool) : Lcd :=
  { l with shift := match l.shift with
    | .anyValue => .anyValue
    | .is k => .is (if right then k + 1 else k - 1) }

/-- LCD.SHIFT_DISPLAY (R58). -/
def execLcdShiftDisplay (r : Bool) (s : State) : Host.Outcome State Fault Refusal :=
  .next (s.inFourBit (fun l => l.moveWindow r))

/-- Function-Set 0x28 (R58). -/
def Lcd.setFunction (l : Lcd) : Lcd := { l with function := .is .fourBitTwoLine5x8 }

/-- LCD.FUNCTION_SET (R58). -/
def execLcdFunctionSet (s : State) : Host.Outcome State Fault Refusal := .next (s.inFourBit Lcd.setFunction)

/-- Set-DDRAM-Address loads the address counter (R56); with an address in no row the counter is any value (U1). -/
def Lcd.setAddress (l : Lcd) (a : DdramAddr) : Lcd := { l with ac := if inRow a then .is a else .anyValue }

/-- LCD.SET_DDRAM_ADDRESS (R56). -/
def execLcdSetDdramAddress (a : DdramAddr) (s : State) : Host.Outcome State Fault Refusal :=
  .next (s.inFourBit (fun l => l.setAddress a))

/-- The address counter after a character: one more under the entry mode INIT sets (R55); any value when it leaves the row
(U1) or when the entry mode is not known. -/
def Lcd.counterAfter (l : Lcd) (a : DdramAddr) : Known DdramAddr :=
  match l.entry with
  | .is .incrementNoShift => if inRow (a + 1) then .is (a + 1) else .anyValue
  | .anyValue => .anyValue

/-- The shift offset after a character: untouched under the entry mode INIT sets ("no display shift", R55), any value when
the entry mode is not known. -/
def Lcd.shiftAfter (l : Lcd) : Known Int :=
  match l.entry with
  | .is .incrementNoShift => l.shift
  | .anyValue => .anyValue

/-- A character byte is stored in DDRAM at the address counter, which then advances (R55). With the counter unknown or in
no row, both the counter and the effect on DDRAM are any value (U1). -/
def Lcd.store (l : Lcd) (ch : Byte) : Lcd :=
  match l.ac with
  | .is a =>
    if inRow a then
      { l with ddram := Memory.put l.ddram a.toNat ch, ac := l.counterAfter a, shift := l.shiftAfter }
    else { l with ddram := [], ac := .anyValue, shift := l.shiftAfter }
  | .anyValue => { l with ddram := [], ac := .anyValue, shift := l.shiftAfter }

/-- LCD.DATA (R55, R84). -/
def execLcdData (ch : Byte) (s : State) : Host.Outcome State Fault Refusal := .next (s.inFourBit (fun l => l.store ch))

end Sys2Proof.Machine
end

