-- ==== Sys2Proof/Machine/Expander.lean ====
section
/-! DEFINITION. The expander (R29, R30, R104): XP.BYTE. -/

namespace Sys2Proof.Machine

/-- `XP <- v` whole, and the controller samples if EN fell (R29, R50, R52, R108). -/
def State.latchByte (s : State) (v : Byte) : State := { s with xp := .is v }.latchIf (s.xp.observe v)

/-- XP.BYTE (R82, R104). Under PARALLEL there is no expander (R107). -/
def execXpByte (n : Nibble) (b e r : Bool) (s : State) : Host.Outcome State Fault Refusal :=
  match s.cfg.transport with
  | .parallel => .refused .expanderAbsent
  | .expander => .next (s.latchByte (expanderByte n b e r))

end Sys2Proof.Machine
end

