-- ==== Sys2Proof/Machine/Sequencer.lean ====
section
/-! DEFINITION. The Controller State Machine (spec/42_controller_sequencer.md): the expansions of INIT, CLEAR, DISPCTL,
SHIFT and BACKLIGHT, and their meanings. An operation is executed one event a turn (R11): its meaning issues the event of
its expansion at `POS`, and the block runs it again, turn after turn, until the expansion is exhausted (R27, R76). -/

namespace Sys2Proof.Machine

/-- INIT's expansion, the seven steps of R131 to R137 in order (R130). -/
def initEvents (c : Config) (bl : Bool) : List Event :=
  delay c.tPwr
    ++ (txn c bl 3 false ++ delay c.tInit1)
    ++ (txn c bl 3 false ++ delay c.tInit2)
    ++ (txn c bl 3 false ++ delay c.tInit3)
    ++ (txn c bl 2 false ++ delay c.tMode4)
    ++ cmd c bl 0x28 c.tCmd
    ++ cmd c bl 0x08 c.tCmd
    ++ cmd c bl 0x01 c.tClr
    ++ cmd c bl 0x06 c.tCmd

/-- CLEAR's expansion (R140). -/
def clearEvents (c : Config) (bl : Bool) : List Event := cmd c bl 0x01 c.tClr

/-- DISPCTL's expansion (R144). -/
def dispctlEvents (c : Config) (bl d cu b : Bool) : List Event := cmd c bl (displayControlByte d cu b) c.tCmd

/-- SHIFT's expansion (R147). -/
def shiftEvents (c : Config) (bl dir : Bool) : List Event := cmd c bl (shiftByte dir) c.tCmd

/-- BACKLIGHT's expansion, `BL` being the new value: one write that carries only the backlight bit, and the settle (R150). -/
def backlightEvents (c : Config) (bl : Bool) : List Event := [.i2cWrite c.i2cAddr (bitAt 3 bl)] ++ delay c.tXp

/-- INIT (R130). When its last event has completed, the ghost flag of R216 is set. -/
def execInit (s : State) : Host.Outcome State Fault Refusal :=
  let t := s.issue (initEvents s.cfg s.block.bl)
  .next { t with initDone := t.initDone || !t.block.run }

/-- CLEAR (R140). -/
def execClear (s : State) : Host.Outcome State Fault Refusal :=
  .next (s.issue (clearEvents s.cfg s.block.bl))

/-- DISPCTL (R144). -/
def execDispctl (d c b : Bool) (s : State) : Host.Outcome State Fault Refusal :=
  .next (s.issue (dispctlEvents s.cfg s.block.bl d c b))

/-- SHIFT (R147). -/
def execShift (dir : Bool) (s : State) : Host.Outcome State Fault Refusal :=
  .next (s.issue (shiftEvents s.cfg s.block.bl dir))

/-- BACKLIGHT (R150): `BL` is written before the first event. Under PARALLEL the word is reserved and a model refuses it
(R74, R152, R182). -/
def execBacklight (v : Bool) (s : State) : Host.Outcome State Fault Refusal :=
  match s.cfg.transport with
  | .parallel => .refused .backlightUnderParallel
  | .expander =>
    let t := if s.block.pos = 0 then s.setBl v else s
    .next (t.issue (backlightEvents t.cfg t.block.bl))

end Sys2Proof.Machine
end

