-- ==== Sys2Proof/Machine/StringOutput.lean ====
section
/-! DEFINITION. String Output (spec/44_string_output.md): PRINT, one event a turn. `POS` counts within the current
character's events: 0 is the text read, the rest are those of `data(CH)` (R26). -/

namespace Sys2Proof.Machine

/-- The loop's read: `CH <- MemRead(TEXT, TP, 1)`; the byte 0x00 stops PRINT and is not sent (R170, R171). The
idle block is left with `CH` 0x00, `TP` at the terminator and `POS` 0 (DESIGN CHOICE, log 4). -/
def State.printRead (s : State) : State :=
  let v := s.readText s.block.tp
  let t := (s.emit (.textRead s.block.tp v)).setCh v
  if v = 0 then t.idle else t.setPos 1

/-- `TP <- (TP + 1) mod 65536; goto loop` (R170, R174). -/
def State.nextCharacter (s : State) : State := (s.setTp (nextTextAddr s.block.tp)).setPos 0

/-- The loop's body: the event of `data(CH)` at `POS`, and after the last one the next character (R170). -/
def State.printData (s : State) : State :=
  let evs := data s.cfg s.block.bl s.block.ch
  match evs[s.block.pos - 1]? with
  | none => s.nextCharacter
  | some e =>
    if s.block.pos < evs.length then (s.emit e).setPos (s.block.pos + 1) else (s.emit e).nextCharacter

/-- PRINT (R170). Its operand is loaded into `TP` at acceptance (R26, `State.accept`), and each turn reads the latches. A
string with no terminator is an endless run (R173). -/
def execPrint (_ta : TextAddr) (s : State) : Host.Outcome State Fault Refusal :=
  .next (if s.block.pos = 0 then s.printRead else s.printData)

/-- The events of printing a list of characters from an address, up to the terminator's read (R170, R171). -/
def printEvents (c : Config) (bl : Bool) : TextAddr → List Byte → List Event
  | a, [] => [.textRead a 0]
  | a, ch :: chs => .textRead a ch :: data c bl ch ++ printEvents c bl (nextTextAddr a) chs

end Sys2Proof.Machine
end

