-- ==== Sys2Proof/Machine/Dispatch.lean ====
section
/-! DEFINITION. One arm per instruction. -/

namespace Sys2Proof.Machine

def exec (i : Instr) (s : State) : Host.Outcome State Fault Refusal :=
  match i with
  | .init => Sys2Proof.Machine.execInit s
  | .clear => Sys2Proof.Machine.execClear s
  | .goto row col => Sys2Proof.Machine.execGoto row col s
  | .dispctl d c b => Sys2Proof.Machine.execDispctl d c b s
  | .print ta => Sys2Proof.Machine.execPrint ta s
  | .shift dir => Sys2Proof.Machine.execShift dir s
  | .backlight v => Sys2Proof.Machine.execBacklight v s
  | .lcdClear => Sys2Proof.Machine.execLcdClear s
  | .lcdEntryMode => Sys2Proof.Machine.execLcdEntryMode s
  | .lcdDisplayControl d c b => Sys2Proof.Machine.execLcdDisplayControl d c b s
  | .lcdShiftDisplay r => Sys2Proof.Machine.execLcdShiftDisplay r s
  | .lcdFunctionSet => Sys2Proof.Machine.execLcdFunctionSet s
  | .lcdSetDdramAddress a => Sys2Proof.Machine.execLcdSetDdramAddress a s
  | .lcdData ch => Sys2Proof.Machine.execLcdData ch s
  | .nibWake => Sys2Proof.Machine.execNibWake s
  | .nibMode4 => Sys2Proof.Machine.execNibMode4 s
  | .xpByte n b e r => Sys2Proof.Machine.execXpByte n b e r s

end Sys2Proof.Machine
end

