-- ==== Sys2Proof/Machine/Fetch.lean ====
section
/-! DEFINITION. Who moves, and how each agent fetches the instruction it executes. A transfer waiting at the controller is
acted on first, then a byte waiting at the expander: an event completes at its collaborator before the block issues the
next one or the host acts again (R60). -/

namespace Sys2Proof.Machine

/-- What is no command, character or nibble of R77, R83 or R84 leaves nothing known of the controller (U6). -/
def Lcd.undefinedTransfer (l : Lcd) : Transfer → Lcd
  | .byte _ _ => l.forget
  | .nibble _ _ => Lcd.unknown

/-- The controller's turn: it executes the transfer it has latched. -/
def State.controllerTurn (s : State) (x : Transfer) : Host.Outcome State Fault Refusal :=
  match decode (.lcd x) with
  | .ok i => exec i { s with lcdBus := none }
  | .error _ => .next { s with lcdBus := none, lcd := s.lcd.undefinedTransfer x }

/-- The expander's turn: it executes the byte that has arrived. -/
def State.expanderTurn (s : State) (v : Byte) : Host.Outcome State Fault Refusal :=
  match decode (.xp v) with
  | .ok i => exec i { s with xpBus := none }
  | .error _ => .refused .foreignExpanderByte

/-- The block's turn: it runs the operation it holds; an idle block does nothing (R76, R210). -/
def State.blockTurn (s : State) : Host.Outcome State Fault Refusal :=
  if s.block.run then
    match decode (.op s.block.opl) with
    | .ok i => exec i s
    | .error e => .refused (.reservedWord e)
  else .next s

/-- Acceptance: `OPL <- W`, `RUN <- 1`, the expansion at its first event, and for PRINT `TP <- ta` (R26, R76, R170). -/
def State.accept (s : State) (w : OpWord) (i : Instr) : State :=
  { s with block := { s.block with
      run := true, opl := w, pos := 0
      tp := match i with
        | .print ta => ta
        | _ => s.block.tp } }

/-- An idle block is offered a word: it accepts it and issues the first event; a reserved word is refused (R73, R182). -/
def State.acceptTurn (s : State) (w : OpWord) : Host.Outcome State Fault Refusal :=
  match decode (.op w) with
  | .ok i => exec i (s.accept w i)
  | .error e => .refused (.reservedWord e)

/-- The host's next act, or the block's turn where the host waits: a word offered to a busy block is held (R76). -/
def State.hostTurn (s : State) : Host.Outcome State Fault Refusal :=
  match s.script with
  | [] => s.blockTurn
  | .offer w :: rest => if s.block.run then s.blockTurn else { s with script := rest }.acceptTurn w
  | .write a v :: rest => .next ({ s with script := rest }.writeText a v)
  | .letRun 0 :: rest => .next { s with script := rest }
  | .letRun (n + 1) :: rest => { s with script := .letRun n :: rest }.blockTurn
  | .reset :: rest => .next { s with script := rest }.applyReset

/-- A turn of the machine. -/
def State.turn (s : State) : Host.Outcome State Fault Refusal :=
  match s.lcdBus with
  | some x => s.controllerTurn x
  | none =>
    match s.xpBus with
    | some v => s.expanderTurn v
    | none => s.hostTurn

/-- A state whose very next turn executes a coded instruction at the agent it is for. An operation word: an idle block,
quiet buses, the word offered next. A transfer: latched at the controller, a byte in 4-bit mode at even phase, the only
mode in which bytes exist (R54). An expander byte: arrived at the expander. -/
def State.withCode (s : State) : Code → State
  | .op w => { s with
      lcdBus := none, xpBus := none, block := { s.block with run := false }, script := .offer w :: s.script }
  | .lcd (.byte rs b) => { s with
      lcdBus := some (.byte rs b), lcd := { s.lcd with iface := .fourBit, half := none } }
  | .lcd (.nibble rs n) => { s with lcdBus := some (.nibble rs n) }
  | .xp v => { s with lcdBus := none, xpBus := some v }

end Sys2Proof.Machine
end

