-- ==== Sys2Proof/WellFormed.lean ====
section
/-! DEFINITION. Which instructions and configurations are the hardware's own. -/

namespace Sys2Proof

/-- An instruction exists under a transport: BACKLIGHT and the expander byte only under EXPANDER (R74, R107), and a data
byte is never 0x00, which ends a string instead (R84). GOTO admits every row and column (R75). -/
def Instr.wf (t : Transport) : Instr → Bool
  | .init => true
  | .clear => true
  | .goto _ _ => true
  | .dispctl _ _ _ => true
  | .print _ => true
  | .shift _ => true
  | .backlight _ => decide (t = .expander)
  | .lcdClear => true
  | .lcdEntryMode => true
  | .lcdDisplayControl _ _ _ => true
  | .lcdShiftDisplay _ => true
  | .lcdFunctionSet => true
  | .lcdSetDdramAddress _ => true
  | .lcdData ch => decide (ch ≠ 0)
  | .nibWake => true
  | .nibMode4 => true
  | .xpByte _ _ _ _ => decide (t = .expander)

/-- The seven operations of the public set (R3), as against what the block emits. -/
def Instr.isOperation : Instr → Bool
  | .init => true
  | .clear => true
  | .goto _ _ => true
  | .dispctl _ _ _ => true
  | .print _ => true
  | .shift _ => true
  | .backlight _ => true
  | .lcdClear => false
  | .lcdEntryMode => false
  | .lcdDisplayControl _ _ _ => false
  | .lcdShiftDisplay _ => false
  | .lcdFunctionSet => false
  | .lcdSetDdramAddress _ => false
  | .lcdData _ => false
  | .nibWake => false
  | .nibMode4 => false
  | .xpByte _ _ _ _ => false

/-- PRINT, the one operation whose length depends on data (R170). -/
def Instr.isPrint : Instr → Bool
  | .print _ => true
  | _ => false

/-- Every delay parameter is at or above its lower bound (R9, R218); the bounds of `T_INIT3` and `T_MODE4` are 0, which
every natural number meets. -/
def Config.inBounds (c : Config) : Bool :=
  decide (15000 ≤ c.tPwr) && decide (4100 ≤ c.tInit1) && decide (100 ≤ c.tInit2) && decide (40 ≤ c.tCmd)
    && decide (1600 ≤ c.tClr) && decide (1 ≤ c.tEn) && decide (1 ≤ c.tXp)

end Sys2Proof
end

