-- ==== Sys2Proof/Machine/Step.lean ====
section
/-! DEFINITION. One step, and how the host's test places an instruction. -/

namespace Sys2Proof.Machine

/-- One step: a turn, of a machine whose configuration is one of this hardware (R9, U5). -/
def step (s : State) : Host.Outcome State Fault Refusal :=
  if s.cfg.inBounds then s.turn else .refused .configOutOfBounds

/-- The state with a word of the opcode table's numbering placed where the next step executes it (log 2, log 7). -/
def State.withFetchWord (s : State) (nbits w : Nat) : State :=
  match tableCode nbits w with
  | none => s
  | some c => s.withCode c

end Sys2Proof.Machine
end

