-- ==== Sys2Proof/Machine/Frames.lean ====
section
/-! DEFINITION. Frame observation (R108): what the controller sees of a trace, and sums over a trace (R224). -/

namespace Sys2Proof.Machine

/-- The two images of R108. Under either transport only one of them is driven (R107). -/
structure Lines where
  pins : PinImage
  xp : XpImage
  deriving DecidableEq, Repr

/-- Both images unknown, as R108 starts them. -/
def Lines.unknown : Lines := ⟨PinImage.unknown, .anyValue⟩

/-- The images after an event; a byte for another address than the expander's changes nothing (R108). -/
def Lines.after (c : Config) (l : Lines) : Event → Lines
  | .pin p v => { l with pins := l.pins.set p v }
  | .i2cWrite a v => if a = c.i2cAddr then { l with xp := .is v } else l
  | .delay _ => l
  | .textRead _ _ => l

/-- What the controller latches at an event. -/
def Lines.observe (c : Config) (l : Lines) : Event → Option Observed
  | .pin p v => l.pins.observe p v
  | .i2cWrite a v => if a = c.i2cAddr then l.xp.observe v else none
  | .delay _ => none
  | .textRead _ _ => none

/-- The images after a trace. -/
def Lines.run (c : Config) : Lines → List Event → Lines
  | l, [] => l
  | l, e :: es => Lines.run c (l.after c e) es

/-- The frames of a trace, the images started as given. -/
def framesFrom (c : Config) : Lines → List Event → List Observed
  | _, [] => []
  | l, e :: es => (l.observe c e).toList ++ framesFrom c (l.after c e) es

/-- `frames(t)` (R108): the images start unknown. -/
def frames (c : Config) (t : List Event) : List Observed := framesFrom c Lines.unknown t

/-- A fully known frame with RW = 0, the only kind the block's transfers make (R101, R109). -/
def Observed.written (n : Nibble) (rs : Bool) : Observed := .frame ⟨n, rs, false⟩

/-- The two frames of a byte (R125). -/
def Observed.ofByte (b : Byte) (rs : Bool) : List Observed :=
  [.written (highNibble b) rs, .written (lowNibble b) rs]

/-- The sum of the delays an event list requests, in microseconds (R224). -/
def delaySum : List Event → Nat
  | [] => 0
  | .delay t :: es => t + delaySum es
  | _ :: es => delaySum es

end Sys2Proof.Machine
end

