-- ==== Sys2Proof/Machine/Panel.lean ====
section
/-! DEFINITION. What the panel shows of the controller's view (R10, R43, R58): the window of 2 rows of 16 columns over DDRAM,
moved by the shift offset. The window is no state of its own, and no step reads it. -/

namespace Sys2Proof.Machine

/-- The DDRAM address a position of the panel shows. At shift offset 0 the window is the first 16 addresses of each row (R43);
each step to the right moves what is shown one column to the right, each step to the left one to the left (R58, R147;
DEDUCED from spec/95_test_vectors.md P3, log 29). What comes in past an end of the row is not in the source: any value. -/
def Lcd.shownAddress (l : Lcd) (row : Fin panelRows) (col : Fin visibleColumns) : Known DdramAddr :=
  match l.shift with
  | .anyValue => .anyValue
  | .is k =>
    if 0 ≤ col.val - k ∧ col.val - k < rowLength then .is (BitVec.ofNat 7 (rowBase row + (col.val - k).toNat)) else .anyValue

/-- Whether an address is known to be in the window. -/
def Lcd.inWindow (l : Lcd) (a : DdramAddr) : Bool := decide (∃ row col, l.shownAddress row col = .is a)

/-- The character a position of the window shows, the display on. -/
def Lcd.shownCharacter (l : Lcd) (row : Fin panelRows) (col : Fin visibleColumns) : Known Byte :=
  match l.shownAddress row col with
  | .anyValue => .anyValue
  | .is a => l.readDdram a

/-- What a position of the panel shows: no character while the display is off (R58, bit 2 of Display-Control). -/
def Lcd.panel (l : Lcd) (row : Fin panelRows) (col : Fin visibleColumns) : Known (Option Byte) :=
  match l.display, l.shownCharacter row col with
  | .is false, _ => .is none
  | .is true, .is ch => .is (some ch)
  | .is true, .anyValue => .anyValue
  | .anyValue, _ => .anyValue

end Sys2Proof.Machine
end

