-- ==== Sys2Proof/Safety.lean ====
section
/-! DEFINITION. The terms claims are made in: quiet and idle states, an operation's whole expansion (the big-step reading of
R26), and the invariants of a run. -/

namespace Sys2Proof.Machine

/-- Nothing is on its way to the expander or the controller: every event issued has completed (R60). -/
abbrev State.quiet (s : State) : Prop := s.lcdBus = none ∧ s.xpBus = none

/-- The block is ready for a word: idle, with every event completed (R76). -/
abbrev State.ready (s : State) : Prop := s.quiet ∧ s.block.run = false

/-- The controller's side is the same in two states: its view, what waits there, and what is lost on the way to it. -/
abbrev State.sameController (s t : State) : Prop := t.lcd = s.lcd ∧ t.lcdBus = s.lcdBus ∧ t.drops = s.drops

/-- `k` steps, stopping at the first fault or refusal. -/
def steps : Nat → State → Host.Outcome State Fault Refusal
  | 0, s => .next s
  | k + 1, s =>
    match step s with
    | .next t => steps k t
    | .fault r => .fault r
    | .refused r => .refused r

/-- The host has only operation words to offer (R11). -/
abbrev onlyOffers (script : List HostAct) : Prop := ∀ a ∈ script, ∃ w, a = .offer w

/-- The expansion of an operation other than PRINT: a function of the configuration, the operands and `BL` (R24). PRINT's
also depends on TEXT and is `printEvents`; what is no operation has none. -/
def expansion (c : Config) (bl : Bool) : Instr → List Event
  | .init => initEvents c bl
  | .clear => clearEvents c bl
  | .goto row col => gotoEvents c bl row col
  | .dispctl d cu b => dispctlEvents c bl d cu b
  | .shift dir => shiftEvents c bl dir
  | .backlight v => backlightEvents c v
  | .print _ => []
  | .lcdClear => []
  | .lcdEntryMode => []
  | .lcdDisplayControl _ _ _ => []
  | .lcdShiftDisplay _ => []
  | .lcdFunctionSet => []
  | .lcdSetDdramAddress _ => []
  | .lcdData _ => []
  | .nibWake => []
  | .nibMode4 => []
  | .xpByte _ _ _ _ => []

/-- `BL` after an operation: BACKLIGHT alone writes it (R21). -/
def blAfter (bl : Bool) : Instr → Bool
  | .backlight v => v
  | _ => bl

/-- TEXT holds these characters, none of them 0x00, from an address on, wrapping at the top (R42, R174). -/
def State.holdsChars (s : State) : TextAddr → List Byte → Prop
  | _, [] => True
  | a, ch :: chs => s.readText a = ch ∧ ch ≠ 0 ∧ s.holdsChars (nextTextAddr a) chs

/-- The address `k` places on, wrapping (R174). -/
def textAddrAfter (a : TextAddr) (k : Nat) : TextAddr := a + BitVec.ofNat 16 k

/-- The events of printing the `k` characters TEXT holds from an address on, wrapping (R170, R174). -/
def State.charEvents (s : State) : TextAddr → Nat → List Event
  | _, 0 => []
  | a, k + 1 =>
    .textRead a (s.readText a) :: data s.cfg s.block.bl (s.readText a) ++ s.charEvents (nextTextAddr a) k

/-- The controller's view keeps its form: known cells canonical and in rows, the address counter in a row when known (U1), a
half byte held only in 4-bit mode (R54), at most three wake nibbles counted (R53). -/
def Lcd.wf (l : Lcd) : Prop :=
  Memory.ddramWf l.ddram ∧ (∀ a, l.ac = .is a → inRow a = true) ∧ (l.half ≠ none → l.iface = .fourBit) ∧ l.wakes ≤ 3

/-- A busy block holds a legal operation and its position lies within the expansion (R26, R27). -/
def Block.wf (c : Config) (b : Block) : Prop :=
  b.run = true →
    match decode (.op b.opl) with
    | .error _ => False
    | .ok i =>
      i.wf c.transport = true ∧
        (if i.isPrint then b.pos ≤ (data c b.bl b.ch).length else b.pos < (expansion c b.bl i).length)

/-- What waits at the controller fits its mode: a byte only in 4-bit mode at even phase (R54), a bare nibble only outside
4-bit mode (R53). -/
def transferFits (l : Lcd) : Transfer → Prop
  | .byte _ _ => l.iface = .fourBit ∧ l.half = none
  | .nibble _ _ => l.iface = .undefined8

/-- A byte on its way to the expander is one the block writes: EXPANDER, RW = 0, bit 3 as `BL` (R30, R107, R151). -/
def byteFits (s : State) (v : Byte) : Prop :=
  s.cfg.transport = .expander ∧ v.getLsbD 1 = false ∧ v.getLsbD 3 = s.block.bl

/-- The invariant of every run. -/
structure Inv (s : State) : Prop where
  cfg : s.cfg.inBounds = true
  text : Memory.wf s.text
  block : s.block.wf s.cfg
  lcd : s.lcd.wf
  lcdBus : ∀ x, s.lcdBus = some x → transferFits s.lcd x
  xpBus : ∀ v, s.xpBus = some v → byteFits s v
  rwPin : s.pins.rw ≠ .is true
  rwBit : ∀ u, s.xp = .is u → u.getLsbD 1 = false

/-- The images of R108 run over the trace since reset. -/
def State.linesOfTrace (s : State) : Lines := Lines.run s.cfg Lines.unknown s.trace

/-- The lines are as the trace left them (R29), the last byte written being still on its way when the bus holds it, and the
backlight bit last written is `BL` (R222). -/
structure LinesFollow (s : State) : Prop where
  pins : ∀ p v, s.linesOfTrace.pins.get p = .is v → s.pins.get p = .is v
  xp : ∀ v, s.xpBus = none → s.linesOfTrace.xp = .is v → s.xp = .is v
  bus : ∀ v, s.xpBus = some v → s.linesOfTrace.xp = .is v
  lamp : ∀ v, s.linesOfTrace.xp = .is v → v.getLsbD 3 = s.block.bl

/-- The controller's view after a completed INIT (R213; spec/95_test_vectors.md P1 before the DISPCTL). -/
def Lcd.afterInit : Lcd where
  iface := .fourBit
  wakes := 0
  half := none
  ac := .is 0
  shift := .is 0
  display := .is false
  cursor := .is false
  blink := .is false
  entry := .is .incrementNoShift
  function := .is .fourBitTwoLine5x8
  ddram := []

end Sys2Proof.Machine
end

