-- ==== Sys2Proof/Certificates/Slice0/Obligations.lean ====
section
/-! DEFINITION. The statements for the provers. -/

open Sys2Proof Sys2Proof.Machine

/-! ### Encoding -/

/-- Words written out from R86 (operations), R77 and R84 (bytes), R83 (nibbles) and R82 (the expander byte of S11). -/
def Obligations.WrittenOutCodesDecode : Prop :=
  decode (.op 0x10000000) = .ok .init ∧ decode (.op 0x20000000) = .ok .clear ∧
  decode (.op 0x30000201) = .ok (.goto 2 1) ∧ decode (.op 0x40000004) = .ok (.dispctl true false false) ∧
  decode (.op 0x50000100) = .ok (.print 0x0100) ∧ decode (.op 0x60000001) = .ok (.shift true) ∧
  decode (.op 0x70000000) = .ok (.backlight false) ∧
  decode (.lcd (.byte false 0x01)) = .ok .lcdClear ∧ decode (.lcd (.byte false 0x06)) = .ok .lcdEntryMode ∧
  decode (.lcd (.byte false 0x0B)) = .ok (.lcdDisplayControl false true true) ∧
  decode (.lcd (.byte false 0x1C)) = .ok (.lcdShiftDisplay true) ∧
  decode (.lcd (.byte false 0x28)) = .ok .lcdFunctionSet ∧
  decode (.lcd (.byte false 0xC0)) = .ok (.lcdSetDdramAddress 0x40) ∧
  decode (.lcd (.byte true 0x41)) = .ok (.lcdData 0x41) ∧
  decode (.lcd (.nibble false 3)) = .ok .nibWake ∧ decode (.lcd (.nibble false 2)) = .ok .nibMode4 ∧
  decode (.xp 0xAD) = .ok (.xpByte 0xA true true true)

/-- No bit of an encoding is dropped: every instruction, every operand value (R70 to R72, R77 to R84). -/
def Obligations.DecodeOfEncodeIsTheInstruction : Prop := ∀ i : Instr, decode (encode i) = .ok i

/-- Each accepted code has one meaning and is that meaning's encoding (R70 to R73, R77 to R84). -/
def Obligations.EncodeOfDecodeIsTheCode : Prop := ∀ (c : Code) (i : Instr), decode c = .ok i → encode i = c

/-- R89: at most one row of the table selects a coded form, and the decoder accepts it exactly when some row does. -/
def Obligations.DecoderAcceptsWhatOneTableRowSelects : Prop :=
  ∀ c : Code,
    (∀ r₁ ∈ tableRows, ∀ r₂ ∈ tableRows, r₁.selects c = true → r₂.selects c = true → r₁ = r₂) ∧
    ((∃ i, decode c = .ok i) ↔ ∃ r ∈ tableRows, r.selects c = true)

/-- The model's reading of R73 and R182: an idle block that is offered a reserved word refuses it. -/
def Obligations.ReservedWordIsRefused : Prop :=
  ∀ (s : State) (w : OpWord) (rest : List HostAct),
    s.cfg.inBounds = true → s.ready → s.script = .offer w :: rest →
    (w.extractLsb' 28 4 = 0 ∨ 8 ≤ (w.extractLsb' 28 4).toNat ∨ w.extractLsb' 16 12 ≠ 0 ∨
      ((w.extractLsb' 28 4 = 1 ∨ w.extractLsb' 28 4 = 2) ∧ w.extractLsb' 0 16 ≠ 0) ∨
      (w.extractLsb' 28 4 = 4 ∧ w.extractLsb' 3 13 ≠ 0) ∨
      ((w.extractLsb' 28 4 = 6 ∨ w.extractLsb' 28 4 = 7) ∧ w.extractLsb' 1 15 ≠ 0)) →
    ∃ why, step s = .refused (.reservedWord why)

/-- The model's reading of R74, R107 and R182: under PARALLEL, BACKLIGHT and the expander byte are refused. -/
def Obligations.WhatParallelLacksIsRefused : Prop :=
  ∀ s : State, s.cfg.transport = .parallel →
    (∀ v, exec (.backlight v) s = .refused .backlightUnderParallel) ∧
    (∀ n b e r, exec (.xpByte n b e r) s = .refused .expanderAbsent)

/-- A configuration that violates a bound of R9 is refused, and one that meets them all is not (U5). -/
def Obligations.ConfigurationIsHeldToItsBounds : Prop :=
  ∀ s : State,
    (step s = .refused .configOutOfBounds ↔
      s.cfg.tPwr < 15000 ∨ s.cfg.tInit1 < 4100 ∨ s.cfg.tInit2 < 100 ∨ s.cfg.tCmd < 40 ∨ s.cfg.tClr < 1600 ∨
        s.cfg.tEn < 1 ∨ s.cfg.tXp < 1)

/-! ### Reset -/

/-- R33, the values the table gives: `BL` 1, `RUN` 0, the trace empty, every external level and the controller unknown. -/
def Obligations.ResetLeavesTheTableOfR33 : Prop :=
  ∀ c : Config,
    (State.resetWith c).block.bl = true ∧ (State.resetWith c).block.run = false ∧
    (∀ p, (State.resetWith c).pins.get p = .anyValue) ∧ (State.resetWith c).xp = .anyValue ∧
    (State.resetWith c).lcd.iface = .undefined8 ∧ (State.resetWith c).lcd.ac = .anyValue ∧
    (State.resetWith c).lcd.shift = .anyValue ∧ (State.resetWith c).lcd.display = .anyValue ∧
    (State.resetWith c).lcd.cursor = .anyValue ∧ (State.resetWith c).lcd.blink = .anyValue ∧
    (State.resetWith c).lcd.entry = .anyValue ∧ (State.resetWith c).lcd.function = .anyValue ∧
    (∀ a, (State.resetWith c).lcd.readDdram a = .anyValue) ∧ (State.resetWith c).trace = []

/-- R33, R210, R211: the reset input, asserted when every event issued has completed, whether or not an operation is running,
leaves the block idle with `BL = 1` and the trace empty, issues no event, and leaves pins and expander latch as they were; with
nothing offered the block then waits. That the controller becomes any value, and that TEXT and the rest of the script are left
to the host, is the model's reading (log 11). -/
def Obligations.ResetInputAbandonsTheOperation : Prop :=
  ∀ (s : State) (rest : List HostAct),
    s.cfg.inBounds = true → s.quiet → s.script = .reset :: rest →
    ∃ t, step s = .next t ∧ t.block.bl = true ∧ t.block.run = false ∧ t.quiet ∧ t.trace = [] ∧ t.pins = s.pins ∧
      t.xp = s.xp ∧ t.cfg = s.cfg ∧ (∀ a, t.readText a = s.readText a) ∧ t.lcd = Lcd.unknown ∧ t.script = rest ∧
      (rest = [] → step t = .next t)

/-- R26, R33: what the transient latches hold while the block is idle is read by nothing. Changing them changes nothing in
what the next accepted word does: PRINT leaves the very same state, `TP` and `CH` included, which it has loaded; any other word
leaves the same state but for the idle values of `TP` and `CH`, which it does not touch (the model's choice, log 4). -/
def Obligations.IdleLatchesAreReadByNothing : Prop :=
  ∀ (s : State) (w opl : OpWord) (pos : Nat) (tp : TextAddr) (ch : Byte) (rest : List HostAct),
    s.ready → s.script = .offer w :: rest →
    let s' := { s with block := { s.block with opl := opl, pos := pos, tp := tp, ch := ch } }
    (∀ t, step s = .next t →
      ((∃ ta, decode (.op w) = .ok (.print ta)) → step s' = .next t) ∧
      ((∀ ta, decode (.op w) ≠ .ok (.print ta)) →
        step s' = .next { t with block := { t.block with tp := tp, ch := ch } })) ∧
    (∀ r, step s = .refused r → step s' = .refused r)

/-! ### Who moves -/

/-- A step runs the decoded instruction, at whichever agent holds one. This is the model's turn structure: the controller
moves first, then the expander, then the host or the block (log 19, read from R60); a ready block that is offered a word accepts
it and runs its first turn in the same step (R26, R76; log 12), and otherwise a busy block runs the word it holds, in a turn
the host lets pass (log 13). -/
def Obligations.StepRunsTheDecodedInstruction : Prop :=
  ∀ (s : State) (i : Instr), s.cfg.inBounds = true →
    (∀ x, s.lcdBus = some x → decode (.lcd x) = .ok i → step s = exec i { s with lcdBus := none }) ∧
    (∀ v, s.lcdBus = none → s.xpBus = some v → decode (.xp v) = .ok i → step s = exec i { s with xpBus := none }) ∧
    (∀ w rest, s.ready → s.script = .offer w :: rest → decode (.op w) = .ok i →
      step s = exec i { s with
        script := rest
        block := { s.block with
          run := true, opl := w, pos := 0
          tp := match i with
            | .print ta => ta
            | _ => s.block.tp } }) ∧
    (s.quiet → s.block.run = true → decode (.op s.block.opl) = .ok i →
      ((s.script = [] ∨ ∃ w rest, s.script = .offer w :: rest) → step s = exec i s) ∧
      (∀ n rest, s.script = .letRun (n + 1) :: rest → step s = exec i { s with script := .letRun n :: rest }))

/-- R210: an idle block with nothing offered does nothing. -/
def Obligations.IdleBlockWaits : Prop :=
  ∀ s : State, s.cfg.inBounds = true → s.ready → s.script = [] → step s = .next s

/-- R76: a word offered while the block is busy is held off, not lost, and the running operation keeps its own word. -/
def Obligations.OfferedWordIsHeldWhileBusy : Prop :=
  ∀ (s t : State) (w : OpWord) (rest : List HostAct),
    s.block.run = true → s.script = .offer w :: rest → step s = .next t →
    t.script = .offer w :: rest ∧ t.block.opl = s.block.opl

/-! ### What each operation does -/

/-- CLEAR, DISPCTL, SHIFT, and GOTO on rows 1 and 2: each turn issues the next event of one command byte and its class
settle, and the last one leaves the block idle (R140, R144, R147, R160, R76), its latches keeping their last values (the model's
choice, log 4). -/
def Obligations.CommandOperationsIssueTheirNextEvent : Prop :=
  ∀ (s : State) (i : Instr) (b : Byte) (t : Nat),
    (i = .clear ∧ b = 0x01 ∧ t = s.cfg.tClr ∨
      (∃ d c bk : Bool, i = .dispctl d c bk ∧ t = s.cfg.tCmd ∧
        b.toNat = 8 + (if d then 4 else 0) + (if c then 2 else 0) + (if bk then 1 else 0)) ∨
      i = .shift true ∧ b = 0x1C ∧ t = s.cfg.tCmd ∨ i = .shift false ∧ b = 0x18 ∧ t = s.cfg.tCmd ∨
      (∃ col : Byte, i = .goto 1 col ∧ b = (col - 1) ||| 0x80 ∧ t = s.cfg.tCmd) ∨
      (∃ col : Byte, i = .goto 2 col ∧ b = (col - 1) ||| 0xC0 ∧ t = s.cfg.tCmd)) →
    ∀ e, (cmd s.cfg s.block.bl b t)[s.block.pos]? = some e →
      exec i s = .next (if s.block.pos + 1 < (cmd s.cfg s.block.bl b t).length
        then (s.emit e).setPos (s.block.pos + 1) else (s.emit e).idle)

/-- R161: a row other than 1 and 2 does nothing whatever the column; the block is idle at once. -/
def Obligations.GotoAnyOtherRowDoesNothing : Prop :=
  ∀ (s : State) (row col : Byte), row ≠ 1 → row ≠ 2 →
    gotoEvents s.cfg s.block.bl row col = [] ∧
    exec (.goto row col) s = .next { s with block := { s.block with run := false } }

/-- R130: each turn of INIT issues the next event of its expansion; the last one leaves the block idle and sets the ghost
flag of R216, the latches keeping their last values (the model's choice, log 4). -/
def Obligations.InitIssuesItsNextEvent : Prop :=
  ∀ (s : State) (e : Event), s.block.run = true → (initEvents s.cfg s.block.bl)[s.block.pos]? = some e →
    exec .init s = .next (if s.block.pos + 1 < (initEvents s.cfg s.block.bl).length
      then (s.emit e).setPos (s.block.pos + 1) else { (s.emit e).idle with initDone := true })

/-- R150: `BL <- s`, then one expander write of 0x08 or 0x00 and the settle `T_XP`, whatever `BL` was; the idle block's
latches keep their last values (the model's choice, log 4). -/
def Obligations.BacklightSetsItsBitAndWritesItAtOnce : Prop :=
  ∀ (s : State) (v : Bool), s.cfg.transport = .expander → 1 ≤ s.cfg.tXp →
    (s.block.pos = 0 →
      exec (.backlight v) s = .next { s with
        block := { s.block with bl := v, pos := 1 }
        trace := s.trace ++ [.i2cWrite s.cfg.i2cAddr (if v then 0x08 else 0x00)]
        xpBus := some (if v then 0x08 else 0x00) }) ∧
    (s.block.pos = 1 →
      exec (.backlight v) s = .next { s with
        block := { s.block with run := false }
        trace := s.trace ++ [.delay s.cfg.tXp] })

/-- R170, R171: PRINT reads the byte of TEXT at `TP` into `CH`; 0x00 ends it and is not sent, the idle block's
latches keeping their last values (the model's choice, log 4). -/
def Obligations.PrintReadsTheNextCharacter : Prop :=
  ∀ (s : State) (ta : TextAddr), s.block.pos = 0 →
    (s.readText s.block.tp ≠ 0 →
      exec (.print ta) s = .next { s with
        block := { s.block with ch := s.readText s.block.tp, pos := 1 }
        trace := s.trace ++ [.textRead s.block.tp (s.readText s.block.tp)] }) ∧
    (s.readText s.block.tp = 0 →
      exec (.print ta) s = .next { s with
        block := { s.block with ch := 0, run := false }
        trace := s.trace ++ [.textRead s.block.tp 0] })

/-- R170, R174: PRINT then issues the events of `data(CH)` in order, and after the last one goes on to the next address,
modulo 65536. -/
def Obligations.PrintSendsTheCharacterAndAdvances : Prop :=
  ∀ (s : State) (ta : TextAddr) (k : Nat) (e : Event),
    s.block.pos = k + 1 → (data s.cfg s.block.bl s.block.ch)[k]? = some e →
    (k + 1 < (data s.cfg s.block.bl s.block.ch).length → exec (.print ta) s = .next ((s.emit e).setPos (k + 2))) ∧
    (k + 1 = (data s.cfg s.block.bl s.block.ch).length →
      ∃ t, exec (.print ta) s = .next t ∧ t = ((s.emit e).setTp t.block.tp).setPos 0 ∧
        t.block.tp.toNat = (s.block.tp.toNat + 1) % 65536)

/-! ### What the controller and the expander do (environment) -/

/-- R57: Clear sets the address counter to 0x00 and the shift offset to 0; the rest of the view stays, but that nothing is
known of DDRAM, whose contents after Clear are not in the source (N13; the model's reading, log 8). -/
def Obligations.ClearHomesTheCounter : Prop :=
  ∀ s : State, s.lcd.iface = .fourBit →
    exec .lcdClear s = .next { s with lcd := { s.lcd with ac := .is 0, shift := .is 0, ddram := [] } }

/-- R56: Set-DDRAM-Address loads the address counter with an address in a row; in no row the counter is any value (U1). -/
def Obligations.SetAddressLoadsTheCounter : Prop :=
  ∀ (s : State) (a : DdramAddr), s.lcd.iface = .fourBit →
    ((a.toNat < 40 ∨ (64 ≤ a.toNat ∧ a.toNat < 104)) →
      exec (.lcdSetDdramAddress a) s = .next { s with lcd := { s.lcd with ac := .is a } }) ∧
    ((40 ≤ a.toNat ∧ a.toNat < 64 ∨ 104 ≤ a.toNat) →
      exec (.lcdSetDdramAddress a) s = .next { s with lcd := { s.lcd with ac := .anyValue } })

/-- R58: Function-Set, Display-Control, Shift and Entry-Mode-Set each set what they name and nothing else; Shift moves the
window one step and leaves DDRAM and the address counter. Rightward, each position of the window then shows what its left
neighbour showed; leftward, what its right neighbour showed (the model's reading of spec/95_test_vectors.md P3, log 29). -/
def Obligations.OtherCommandsSetWhatTheyName : Prop :=
  ∀ s : State, s.lcd.iface = .fourBit →
    exec .lcdFunctionSet s = .next { s with lcd := { s.lcd with function := .is .fourBitTwoLine5x8 } } ∧
    exec .lcdEntryMode s = .next { s with lcd := { s.lcd with entry := .is .incrementNoShift } } ∧
    (∀ d c b, exec (.lcdDisplayControl d c b) s =
      .next { s with lcd := { s.lcd with display := .is d, cursor := .is c, blink := .is b } }) ∧
    (∀ r k, s.lcd.shift = .is k →
      exec (.lcdShiftDisplay r) s = .next { s with lcd := { s.lcd with shift := .is (if r then k + 1 else k - 1) } }) ∧
    (∀ r, s.lcd.shift = .anyValue → exec (.lcdShiftDisplay r) s = .next s) ∧
    (∀ (t : State) (row : Fin 2) (c d : Fin 16), d.val = c.val + 1 →
      (exec (.lcdShiftDisplay true) s = .next t → t.lcd.shownAddress row d = s.lcd.shownAddress row c) ∧
      (exec (.lcdShiftDisplay false) s = .next t → t.lcd.shownAddress row c = s.lcd.shownAddress row d))

/-- R55: a character is stored at the address counter, which under the entry mode INIT sets then increases by one, the shift
offset untouched; every other cell of DDRAM and every other register stays. At the last address of a row the counter is any
value afterwards (U1). That with the entry mode not known the counter and the shift offset become any value is the model's
reading (log 22). -/
def Obligations.CharacterIsStoredAtTheCounter : Prop :=
  ∀ (s : State) (a : DdramAddr) (ch : Byte),
    s.lcd.iface = .fourBit → s.lcd.ac = .is a → (a.toNat < 40 ∨ (64 ≤ a.toNat ∧ a.toNat < 104)) →
    ∃ t, exec (.lcdData ch) s = .next t ∧ t.lcd.readDdram a = .is ch ∧
      (∀ b, b ≠ a → t.lcd.readDdram b = s.lcd.readDdram b) ∧
      (s.lcd.entry = .is .incrementNoShift →
        (a.toNat ≠ 39 ∧ a.toNat ≠ 103 → ∃ b, t.lcd.ac = .is b ∧ b.toNat = a.toNat + 1) ∧
        (a.toNat = 39 ∨ a.toNat = 103 → t.lcd.ac = .anyValue) ∧ t.lcd.shift = s.lcd.shift) ∧
      (s.lcd.entry = .anyValue → t.lcd.ac = .anyValue ∧ t.lcd.shift = .anyValue) ∧
      t = { s with lcd := { s.lcd with ac := t.lcd.ac, shift := t.lcd.shift, ddram := t.lcd.ddram } }

/-- U1: with the address counter any value, or in no row, a character leaves the counter and the whole of DDRAM any value. The
shift offset stays under the entry mode INIT sets (R55); that with the entry mode not known it becomes any value is the model's
reading (log 22). -/
def Obligations.CharacterAtAnUnknownCounter : Prop :=
  ∀ (s : State) (ch : Byte), s.lcd.iface = .fourBit →
    (s.lcd.ac = .anyValue ∨ ∃ a, s.lcd.ac = .is a ∧ (40 ≤ a.toNat ∧ a.toNat < 64 ∨ 104 ≤ a.toNat)) →
    ∃ t, exec (.lcdData ch) s = .next t ∧ t.lcd.ac = .anyValue ∧ (∀ b, t.lcd.readDdram b = .anyValue) ∧
      (s.lcd.entry = .is .incrementNoShift → t.lcd.shift = s.lcd.shift) ∧
      (s.lcd.entry = .anyValue → t.lcd.shift = .anyValue) ∧
      t = { s with lcd := { s.lcd with ac := .anyValue, ddram := [], shift := t.lcd.shift } }

/-- R53, R216, U6: what the spec gives no effect leaves every register and cell of the controller's view any value, and changes
nothing else (the model's reading, logs 16 and 25). Outside 4-bit mode a frame is a whole transfer; there, a nibble other than
0x3 and 0x2 with RS = 0, and a byte, leave nothing known. So do, in either mode, a command byte outside R77 and a frame with
RW = 1. The count of wake nibbles in a row is kept across a byte and is 0 after the others (logs 6 and 25). -/
def Obligations.TransfersWithoutAnEffectLeaveNothingKnown : Prop :=
  ∀ s : State,
    (s.lcd.iface = .undefined8 → s.drops.head? ≠ some true → ∀ n rs,
      s.latch (.frame ⟨n, rs, false⟩) = { s with drops := s.drops.tail, lcdBus := some (.nibble rs n) }) ∧
    (s.lcd.iface = .undefined8 → ∀ (i : Instr) (rs : Bool) (b : Byte), encode i = .lcd (.byte rs b) →
      exec i s = .next { s with lcd := { Lcd.unknown with wakes := s.lcd.wakes } }) ∧
    (s.cfg.inBounds = true → ∀ n rs, s.lcdBus = some (.nibble rs n) → ¬(rs = false ∧ (n = 3 ∨ n = 2)) →
      step s = .next { s with lcdBus := none, lcd := Lcd.unknown }) ∧
    (s.cfg.inBounds = true → ∀ b : Byte, s.lcdBus = some (.byte false b) →
      b.toNat < 128 ∧ b ≠ 0x01 ∧ b ≠ 0x06 ∧ b ≠ 0x18 ∧ b ≠ 0x1C ∧ b ≠ 0x28 ∧ ¬(8 ≤ b.toNat ∧ b.toNat ≤ 15) →
      step s = .next { s with lcdBus := none, lcd := { Lcd.unknown with wakes := s.lcd.wakes } }) ∧
    (s.drops.head? ≠ some true → ∀ n rs,
      s.latch (.frame ⟨n, rs, true⟩) = { s with drops := s.drops.tail, lcd := Lcd.unknown })

/-- R53: a nibble 0x3 counts towards three, and the nibble 0x2 after three of them gives 4-bit mode at even phase; after
fewer it does not. -/
def Obligations.ThreeWakesAndATwoGiveFourBitMode : Prop :=
  ∀ s : State,
    exec .nibWake s = .next { s with lcd := { Lcd.unknown with wakes := min 3 (s.lcd.wakes + 1) } } ∧
    (s.lcd.wakes = 3 → exec .nibMode4 s = .next { s with lcd := { Lcd.unknown with iface := .fourBit } }) ∧
    (s.lcd.wakes ≠ 3 → exec .nibMode4 s = .next { s with lcd := Lcd.unknown })

/-- R29, R30, R108: a byte written to the expander replaces the latch whole, and the controller latches the frame the old
byte holds exactly when EN falls from 1 to 0. -/
def Obligations.ExpanderLatchesTheByteAndFramesFallWithEn : Prop :=
  ∀ (s : State) (n : Nibble) (b e r : Bool), s.cfg.transport = .expander →
    ∃ v : Byte, v.toNat = 16 * n.toNat + (if b then 8 else 0) + (if e then 4 else 0) + (if r then 1 else 0) ∧
      (e = true → exec (.xpByte n b e r) s = .next { s with xp := .is v }) ∧
      (∀ u : Byte, s.xp = .is u → u.getLsbD 2 = false → exec (.xpByte n b e r) s = .next { s with xp := .is v }) ∧
      (∀ u : Byte, s.xp = .is u → u.getLsbD 2 = true → e = false →
        exec (.xpByte n b e r) s =
          .next (State.latch { s with xp := .is v } (.frame ⟨u.extractLsb' 4 4, u.getLsbD 0, u.getLsbD 1⟩))) ∧
      (s.xp = .anyValue → e = false →
        exec (.xpByte n b e r) s = .next (State.latch { s with xp := .is v } .maybeUnknown))

/-- R54: in 4-bit mode a frame at even phase is held, and the next one with the same RS completes the byte, high half first,
which then waits for the controller to act on it. Two halves that differ in RS leave nothing known (the model's reading, log
25). A nibble 0x3 with RS = 0 is counted whichever half it is, and any other frame starts the count anew (the model's reading,
log 6). -/
def Obligations.TwoFramesMakeAByte : Prop :=
  ∀ (s : State) (n : Nibble) (rs : Bool),
    s.lcd.iface = .fourBit → s.drops.head? ≠ some true →
    let k := if n = 3 ∧ rs = false then min 3 (s.lcd.wakes + 1) else 0
    (s.lcd.half = none → s.latch (.frame ⟨n, rs, false⟩) =
      { s with drops := s.drops.tail, lcd := { s.lcd with wakes := k, half := some (n, rs) } }) ∧
    (∀ (h : Nibble) (b : Byte), s.lcd.half = some (h, rs) → b.toNat = 16 * h.toNat + n.toNat →
      s.latch (.frame ⟨n, rs, false⟩) =
        { s with drops := s.drops.tail, lcd := { s.lcd with wakes := k, half := none }, lcdBus := some (.byte rs b) }) ∧
    (∀ h : Nibble, s.lcd.half = some (h, !rs) → s.latch (.frame ⟨n, rs, false⟩) =
      { s with drops := s.drops.tail, lcd := { Lcd.unknown with wakes := k } })

/-- R108, R220, U3, U15: a frame that is lost, an unknown frame and `maybe(unknown frame)` each leave nothing known of the
controller, and change neither the block nor the trace (the model's choice, log 14). -/
def Obligations.LostFrameLeavesTheControllerUnknown : Prop :=
  ∀ s : State,
    (∀ o ds, s.drops = true :: ds → s.latch o = { s with drops := ds, lcd := Lcd.unknown }) ∧
    (s.drops.head? ≠ some true → ∀ o, o = .unknownFrame ∨ o = .maybeUnknown →
      s.latch o = { s with drops := s.drops.tail, lcd := Lcd.unknown })

/-! ### Frames: what an instruction leaves alone -/

/-- A turn of an operation leaves alone: the configuration, the latched word, TEXT, the host's script and the expander's
latch; `TP` and `CH` but for PRINT; `BL` but for BACKLIGHT; the ghost flag but for INIT. Under EXPANDER it leaves the pins
and the controller alone; under PARALLEL the expander's bus. It stores nothing in DDRAM: a cell reads as before or is
unknown. -/
def Obligations.OperationLeavesTheRestAlone : Prop :=
  ∀ (i : Instr) (s t : State), i.isOperation = true → exec i s = .next t →
    t.cfg = s.cfg ∧ t.block.opl = s.block.opl ∧ t.script = s.script ∧ t.xp = s.xp ∧
    (∀ a, t.readText a = s.readText a) ∧
    (i.isPrint = false → t.block.tp = s.block.tp ∧ t.block.ch = s.block.ch) ∧
    ((∀ v, i ≠ .backlight v) → t.block.bl = s.block.bl) ∧
    (i ≠ .init → t.initDone = s.initDone) ∧
    (s.cfg.transport = .expander → t.pins = s.pins ∧ t.lcd = s.lcd ∧ t.lcdBus = s.lcdBus ∧ t.drops = s.drops) ∧
    (s.cfg.transport = .parallel → t.xpBus = s.xpBus) ∧
    (∀ a, t.lcd.readDdram a = s.lcd.readDdram a ∨ t.lcd.readDdram a = .anyValue)

/-- R12, R31, R61: an event an operation issues reaches its own collaborator and no other. `Pin(p, v)` sets the output `p`
to `v` and no other output; `I2CWrite` puts its byte on the way to the expander; a turn without one leaves it alone. R52, R108:
`Pin(EN, 0)` makes the controller latch the frame of the six other levels when EN was 1, an unknown one if any of them is
unknown, and `maybe(unknown frame)` when EN was unknown; no other pin event reaches the controller. -/
def Obligations.EventReachesItsCollaborator : Prop :=
  (∀ (i : Instr) (s t : State), i.isOperation = true → exec i s = .next t →
    (∀ p v, t.trace = s.trace ++ [.pin p v] →
      t.pins.get p = .is v ∧ (∀ q, q ≠ p → t.pins.get q = s.pins.get q) ∧
      (p = .en ∧ v = false ∧ s.pins.en = .is true → (s.latch s.pins.frame).sameController t) ∧
      (p = .en ∧ v = false ∧ s.pins.en = .anyValue → (s.latch .maybeUnknown).sameController t) ∧
      (p ≠ .en ∨ v = true ∨ s.pins.en = .is false → s.sameController t)) ∧
    ((∀ p v, t.trace ≠ s.trace ++ [.pin p v]) → t.pins = s.pins ∧ s.sameController t) ∧
    (∀ a v, t.trace = s.trace ++ [.i2cWrite a v] → t.xpBus = some v) ∧
    ((∀ a v, t.trace ≠ s.trace ++ [.i2cWrite a v]) → t.xpBus = s.xpBus)) ∧
  (∀ (n : Nibble) (rs rw : Bool) (en : Known Bool),
    PinImage.frame ⟨.is rs, .is rw, en, .is (n.getLsbD 0), .is (n.getLsbD 1), .is (n.getLsbD 2), .is (n.getLsbD 3)⟩ =
      .frame ⟨n, rs, rw⟩) ∧
  (∀ (im : PinImage) (p : Pin), p ≠ .en → im.get p = .anyValue → im.frame = .unknownFrame)

/-- An instruction of the controller or the expander leaves alone: the configuration, the whole block, TEXT, the script, the
pins, the ghost flag and the trace; one of the controller also the expander and the environment's choices. Only a character
stores in DDRAM: after any other a cell reads as before or is unknown. -/
def Obligations.OutsideInstructionsLeaveTheBlockAlone : Prop :=
  ∀ (i : Instr) (s t : State), i.isOperation = false → exec i s = .next t →
    t.cfg = s.cfg ∧ t.block = s.block ∧ t.text = s.text ∧ t.script = s.script ∧ t.pins = s.pins ∧
    t.initDone = s.initDone ∧ t.trace = s.trace ∧ t.xpBus = s.xpBus ∧
    ((∀ n b e r, i ≠ .xpByte n b e r) → t.xp = s.xp ∧ t.drops = s.drops ∧ t.lcdBus = s.lcdBus) ∧
    ((∀ ch, i ≠ .lcdData ch) →
      ∀ a, t.lcd.readDdram a = s.lcd.readDdram a ∨ t.lcd.readDdram a = .anyValue)

/-! ### Whole-machine rules -/

/-- R11, R13, R60: a step issues at most one event, at the end of the trace and never a delay of 0, and nothing but a reset
takes an event away. -/
def Obligations.StepIssuesAtMostOneEvent : Prop :=
  ∀ s t : State, step s = .next t →
    t.trace = s.trace ∨ (∃ e, t.trace = s.trace ++ [e] ∧ e ≠ .delay 0) ∨ ((∃ rest, s.script = .reset :: rest) ∧ t.trace = [])

/-- R107: under PARALLEL no `I2CWrite` ever occurs, under EXPANDER no `Pin`. -/
def Obligations.TransportsNeverMix : Prop :=
  ∀ (s t : State) (e : Event), step s = .next t → t.trace = s.trace ++ [e] →
    (s.cfg.transport = .parallel → ∀ a v, e ≠ .i2cWrite a v) ∧ (s.cfg.transport = .expander → ∀ p v, e ≠ .pin p v)

/-- R151: every `I2CWrite(_, v)` the block emits has `v[3]` equal to the value of `BL` at the time; and RW is 0 in every
write (R121, R30) and the address is `I2C_ADDR` (R44). -/
def Obligations.EveryWriteCarriesTheBacklightAndRwZero : Prop :=
  ∀ (s t : State) (e : Event), step s = .next t → t.trace = s.trace ++ [e] →
    (∀ a v, e = .i2cWrite a v → v.getLsbD 3 = t.block.bl ∧ v.getLsbD 1 = false ∧ a = s.cfg.i2cAddr) ∧
    (∀ v, e = .pin .rw v → v = false)

/-- R21: only BACKLIGHT writes `BL`, and reset. -/
def Obligations.OnlyBacklightAndResetWriteBl : Prop :=
  ∀ s t : State, step s = .next t →
    t.block.bl = s.block.bl ∨
    ((∃ rest, s.script = .reset :: rest) ∧ t.block.bl = true) ∨
    (∃ v, decode (.op t.block.opl) = .ok (.backlight v) ∧ t.block.bl = v)

/-- R42, R64: the block never writes TEXT: a step changes a byte of it only when the host's next act writes that byte. -/
def Obligations.OnlyTheHostWritesText : Prop :=
  ∀ (s t : State) (a : TextAddr), step s = .next t →
    t.readText a = s.readText a ∨ ∃ v rest, s.script = .write a v :: rest

/-- R8, R107: no step changes the configuration. -/
def Obligations.ConfigurationIsNeverWritten : Prop := ∀ s t : State, step s = .next t → t.cfg = s.cfg

/-- R34, R122, R220: the block is open-loop. Whatever the pins, the expander and the controller hold, and whatever is lost
on the way, an operation's turn leaves the same block, TEXT, script and trace. -/
def Obligations.BlockIsOpenLoop : Prop :=
  ∀ (i : Instr) (s t : State) (pins : PinImage) (xp : XpImage) (lcd : Lcd) (drops : List Bool),
    i.isOperation = true → exec i s = .next t →
    ∃ t', exec i { s with pins := pins, xp := xp, lcd := lcd, drops := drops } = .next t' ∧
      t'.block = t.block ∧ t'.text = t.text ∧ t'.script = t.script ∧ t'.xpBus = t.xpBus ∧ t'.trace = t.trace

/-- R42, R64: a byte the host writes to TEXT reads back at its address and changes no other address; and where every event
issued has completed, that write is what the step does when it is the host's next act (R60; logs 13 and 19), whether or not an
operation is running, and it does nothing else. -/
def Obligations.TextReadsBackWhatTheHostWrote : Prop :=
  ∀ (s : State) (a b : TextAddr) (v : Byte), Memory.wf s.text →
    (s.writeText a v).readText a = v ∧ (b ≠ a → (s.writeText a v).readText b = s.readText b) ∧
    (∀ rest, s.cfg.inBounds = true → s.quiet → s.script = .write a v :: rest →
      ∃ t, step s = .next t ∧ t.readText a = v ∧ (b ≠ a → t.readText b = s.readText b) ∧
        t = { s with script := rest, text := t.text })

/-! ### Transfers -/

/-- R102: the ten events of a parallel transfer in order, and where they leave the pins. -/
def Obligations.ParallelTransferIsTenEvents : Prop :=
  ∀ (c : Config) (bl rs : Bool) (n : Nibble) (l : Lines), c.transport = .parallel → 1 ≤ c.tEn →
    txn c bl n rs = [.pin .rs rs, .pin .rw false, .pin .d4 (n.getLsbD 0), .pin .d5 (n.getLsbD 1),
      .pin .d6 (n.getLsbD 2), .pin .d7 (n.getLsbD 3), .pin .en true, .delay c.tEn, .pin .en false, .delay c.tEn] ∧
    (l.run c (txn c bl n rs)).pins = ⟨.is rs, .is false, .is false, .is (n.getLsbD 0), .is (n.getLsbD 1),
      .is (n.getLsbD 2), .is (n.getLsbD 3)⟩

/-- R104: the three events of an expander transfer, the EN = 1 byte first, and where they leave the latch. -/
def Obligations.ExpanderTransferIsThreeEvents : Prop :=
  ∀ (c : Config) (bl rs : Bool) (n : Nibble) (l : Lines), c.transport = .expander → 1 ≤ c.tXp →
    ∃ base : Byte, base.toNat = 16 * n.toNat + (if bl then 8 else 0) + (if rs then 1 else 0) ∧
      txn c bl n rs = [.i2cWrite c.i2cAddr (base ||| 0x04), .i2cWrite c.i2cAddr base, .delay c.tXp] ∧
      (l.run c (txn c bl n rs)).xp = .is base

/-- R150, R108, R215: BACKLIGHT shows the controller no frame when the expander's EN is known to be 0, as every transfer
leaves it; as the first write since reset it may show an unknown one. -/
def Obligations.BacklightShowsNoFrame : Prop :=
  ∀ (c : Config) (bl rs v : Bool) (n : Nibble) (l : Lines), c.transport = .expander →
    (∀ u, l.xp = .is u → u.getLsbD 2 = false → framesFrom c l (backlightEvents c v) = []) ∧
    (∃ u, (l.run c (txn c bl n rs)).xp = .is u ∧ u.getLsbD 2 = false) ∧
    (l.xp = .anyValue → framesFrom c l (backlightEvents c v) = [.maybeUnknown])

/-- R125: for every byte and RS level, under either transport, a byte is framed high nibble first, and a controller in 4-bit
mode at even phase, no frame being lost, puts exactly that byte together again; printing "AB" shows the four frames of 0x41
and 0x42. -/
def Obligations.ByteIsFramedHighNibbleFirst : Prop :=
  ∀ (c : Config) (bl rs : Bool) (b : Byte) (l : Lines),
    framesFrom c l (send c bl b rs) = [.frame ⟨b.extractLsb' 4 4, rs, false⟩, .frame ⟨b.extractLsb' 0 4, rs, false⟩] ∧
    (∀ s : State, s.lcd.iface = .fourBit → s.lcd.half = none → s.drops = [] →
      let t := (s.latch (.frame ⟨b.extractLsb' 4 4, rs, false⟩)).latch (.frame ⟨b.extractLsb' 0 4, rs, false⟩)
      t = { s with lcd := { s.lcd with wakes := t.lcd.wakes }, lcdBus := some (.byte rs b) }) ∧
    (∀ ta, framesFrom c l (printEvents c bl ta [0x41, 0x42]) =
      [.frame ⟨4, true, false⟩, .frame ⟨1, true, false⟩, .frame ⟨4, true, false⟩, .frame ⟨2, true, false⟩])

/-- R162, R163: GOTO's byte is always a Set-DDRAM-Address command; for columns 1 to 40 its address is `col - 1` on row 1 and
`0x40 + (col - 1)` on row 2. R10, R43, R162: at shift offset 0 the address of columns 1 to 16 is the one the panel shows at that
row and column, and those of columns 17 to 40 are outside the window. -/
def Obligations.GotoByteIsASetAddressCommand : Prop :=
  ∀ (row col b : Byte), gotoByte row col = some b →
    b.getLsbD 7 = true ∧ ∃ a, decode (.lcd (.byte false b)) = .ok (.lcdSetDdramAddress a) ∧
      (1 ≤ col.toNat ∧ col.toNat ≤ 40 →
        (row = 1 → a.toNat = col.toNat - 1) ∧ (row = 2 → a.toNat = 0x40 + (col.toNat - 1))) ∧
      (∀ l : Lcd, l.shift = .is 0 →
        (∀ (r : Fin 2) (k : Fin 16), row.toNat = r.val + 1 → col.toNat = k.val + 1 →
          l.shownAddress r k = .is a ∧ l.inWindow a = true) ∧
        (17 ≤ col.toNat ∧ col.toNat ≤ 40 → l.inWindow a = false))

/-- R109: under either transport, for any `BL` and whatever the lines held before, a transfer shows the controller one frame,
fully known; hence for every operation, and for every printed string, the list of frames is the same under both transports,
whatever the delays, the backlight and the lines before; and BACKLIGHT, after any transfer, contributes none. -/
def Obligations.TransportsShowTheSameFrames : Prop :=
  ∀ (c c' : Config) (bl bl' : Bool) (l l' : Lines),
    (∀ (n : Nibble) (rs : Bool), framesFrom c l (txn c bl n rs) = [.frame ⟨n, rs, false⟩]) ∧
    (∀ i : Instr, (∀ v, i ≠ .backlight v) →
      framesFrom c l (expansion c bl i) = framesFrom c' l' (expansion c' bl' i)) ∧
    (∀ (a : TextAddr) (chs : List Byte),
      framesFrom c l (printEvents c bl a chs) = framesFrom c' l' (printEvents c' bl' a chs)) ∧
    (∀ (n : Nibble) (rs v : Bool), c.transport = .expander →
      framesFrom c (l.run c (txn c bl n rs)) (backlightEvents c v) = [])

/-- R219: every operation shows the controller an even number of frames, PRINT two for each character, and INIT its four
single ones first. -/
def Obligations.FramesComeInPairs : Prop :=
  ∀ (c : Config) (bl : Bool) (l : Lines),
    (∀ i : Instr, (∀ v, i ≠ .backlight v) → (framesFrom c l (expansion c bl i)).length % 2 = 0) ∧
    (∀ (a : TextAddr) (chs : List Byte), (framesFrom c l (printEvents c bl a chs)).length = 2 * chs.length) ∧
    (framesFrom c l (initEvents c bl)).take 4 =
      [.frame ⟨3, false, false⟩, .frame ⟨3, false, false⟩, .frame ⟨3, false, false⟩, .frame ⟨2, false, false⟩]

/-- R138: INIT's frames under both transports; its events on the expander with the backlight on, written out, and off, with
0x08 taken from every byte; its events on the parallel bus, ten for each transfer; 44 and 128 events. -/
def Obligations.InitExpansionWrittenOut : Prop :=
  ∀ (c : Config) (bl : Bool) (l : Lines), c.inBounds = true → c.tInit3 = 0 → 0 < c.tMode4 →
    framesFrom c l (initEvents c bl) =
      [3, 3, 3, 2, 2, 8, 0, 8, 0, 1, 0, 6].map (fun n : Nibble => .frame ⟨n, false, false⟩) ∧
    (c.transport = .expander →
      let w (v : Byte) : Event := .i2cWrite c.i2cAddr (if bl then v else v - 0x08)
      let x : Event := .delay c.tXp
      initEvents c bl =
        [.delay c.tPwr, w 0x3C, w 0x38, x, .delay c.tInit1, w 0x3C, w 0x38, x, .delay c.tInit2, w 0x3C, w 0x38, x,
          w 0x2C, w 0x28, x, .delay c.tMode4,
          w 0x2C, w 0x28, x, w 0x8C, w 0x88, x, .delay c.tCmd, w 0x0C, w 0x08, x, w 0x8C, w 0x88, x, .delay c.tCmd,
          w 0x0C, w 0x08, x, w 0x1C, w 0x18, x, .delay c.tClr, w 0x0C, w 0x08, x, w 0x6C, w 0x68, x, .delay c.tCmd] ∧
      (initEvents c bl).length = 44) ∧
    (c.transport = .parallel →
      let x (n : Nibble) : List Event := [.pin .rs false, .pin .rw false, .pin .d4 (n.getLsbD 0), .pin .d5 (n.getLsbD 1),
        .pin .d6 (n.getLsbD 2), .pin .d7 (n.getLsbD 3), .pin .en true, .delay c.tEn, .pin .en false, .delay c.tEn]
      initEvents c bl =
        [.delay c.tPwr] ++ x 3 ++ [.delay c.tInit1] ++ x 3 ++ [.delay c.tInit2] ++ x 3 ++ x 2 ++ [.delay c.tMode4] ++
          x 2 ++ x 8 ++ [.delay c.tCmd] ++ x 0 ++ x 8 ++ [.delay c.tCmd] ++ x 0 ++ x 1 ++ [.delay c.tClr] ++
          x 0 ++ x 6 ++ [.delay c.tCmd] ∧
      (initEvents c bl).length = 128)

/-- R110, R126: how many events a transfer, a byte, a command and a character take, the last one of the latter two being the
class delay. -/
def Obligations.EventCounts : Prop :=
  ∀ (c : Config) (bl rs : Bool) (n : Nibble) (b : Byte) (t : Nat), c.inBounds = true → 0 < t →
    (c.transport = .parallel → (txn c bl n rs).length = 10 ∧ (send c bl b rs).length = 20 ∧
      (cmd c bl b t).length = 21 ∧ (data c bl b).length = 21) ∧
    (c.transport = .expander → (txn c bl n rs).length = 3 ∧ (send c bl b rs).length = 6 ∧
      (cmd c bl b t).length = 7 ∧ (data c bl b).length = 7) ∧
    cmd c bl b t = send c bl b false ++ [.delay t] ∧ data c bl b = send c bl b true ++ [.delay c.tCmd]

/-- R224: the sums of the delays each unit requests. -/
def Obligations.RequestedDelays : Prop :=
  ∀ (c : Config) (bl rs v d cu bk dir : Bool) (n : Nibble) (b row col : Byte) (ta : TextAddr) (chs : List Byte) (x : Nat),
    x = (match c.transport with
      | .parallel => 2 * c.tEn
      | .expander => c.tXp) →
    delaySum (txn c bl n rs) = x ∧ delaySum (send c bl b rs) = 2 * x ∧
    delaySum (cmd c bl b c.tCmd) = 2 * x + c.tCmd ∧ delaySum (data c bl b) = 2 * x + c.tCmd ∧
    delaySum (clearEvents c bl) = 2 * x + c.tClr ∧ delaySum (backlightEvents c v) = c.tXp ∧
    delaySum (dispctlEvents c bl d cu bk) = 2 * x + c.tCmd ∧ delaySum (shiftEvents c bl dir) = 2 * x + c.tCmd ∧
    delaySum (gotoEvents c bl row col) = (if row = 1 ∨ row = 2 then 2 * x + c.tCmd else 0) ∧
    delaySum (printEvents c bl ta chs) = chs.length * (2 * x + c.tCmd) ∧
    delaySum (initEvents c bl) =
      c.tPwr + c.tInit1 + c.tInit2 + c.tInit3 + c.tMode4 + 3 * c.tCmd + c.tClr + 12 * x ∧
    (c.tPwr = 15000 ∧ c.tInit1 = 4100 ∧ c.tInit2 = 100 ∧ c.tInit3 = 0 ∧ c.tMode4 = 0 ∧ c.tCmd = 40 ∧ c.tClr = 1600 →
      delaySum (initEvents c bl) = 20920 + 12 * x) ∧
    (c.inBounds = true → 40 ≤ delaySum (cmd c bl b c.tCmd) ∧ 1600 ≤ delaySum (clearEvents c bl))

/-! ### Runs -/

/-- The small steps add up to the big one (R26, R60, R76): an operation other than PRINT, offered to a ready block, runs to
idle; the trace has grown by exactly its expansion, `BL` is as the operation leaves it, TEXT and the configuration are
untouched, and the words after it are still waiting. -/
def Obligations.OperationRunsToIdle : Prop :=
  ∀ (s : State) (i : Instr) (w : OpWord) (rest : List HostAct),
    s.cfg.inBounds = true → i.wf s.cfg.transport = true → i.isPrint = false → encode i = .op w →
    s.ready → s.script = .offer w :: rest → onlyOffers rest →
    ∃ n t, steps n s = .next t ∧ t.ready ∧ t.script = rest ∧ t.trace = s.trace ++ expansion s.cfg s.block.bl i ∧
      t.block.bl = blAfter s.block.bl i ∧ t.text = s.text ∧ t.cfg = s.cfg ∧ (i = .init → t.initDone = true)

/-- R170, R171, R174: PRINT of a terminated string runs to idle; the trace has grown by one text read and one data byte for
each character and the terminator's read. -/
def Obligations.PrintRunsToItsTerminator : Prop :=
  ∀ (s : State) (ta : TextAddr) (w : OpWord) (chs : List Byte) (rest : List HostAct),
    s.cfg.inBounds = true → encode (.print ta) = .op w → s.ready → s.script = .offer w :: rest → onlyOffers rest →
    s.holdsChars ta chs → s.readText (textAddrAfter ta chs.length) = 0 →
    ∃ n t, steps n s = .next t ∧ t.ready ∧ t.script = rest ∧
      t.trace = s.trace ++ printEvents s.cfg s.block.bl ta chs ∧ t.block.bl = s.block.bl ∧ t.text = s.text

/-- R173: PRINT where no byte of TEXT is 0x00 never ends: after every number of steps the block is busy, and it sends the
bytes of TEXT from `ta` on, wrapping, as many as one likes to wait for. -/
def Obligations.UnterminatedPrintNeverEnds : Prop :=
  ∀ (s : State) (ta : TextAddr) (w : OpWord),
    s.cfg.inBounds = true → encode (.print ta) = .op w → s.ready → s.script = [.offer w] →
    (∀ a, s.readText a ≠ 0) →
    (∀ n, ∃ t, steps (n + 1) s = .next t ∧ t.block.run = true) ∧
    (∀ k, ∃ n t, steps n s = .next t ∧ t.trace = s.trace ++ s.charEvents ta k)

/-- R24: from two ready states that agree on the configuration and `BL` alone, whatever ran before, an operation offered last
is taken and run to idle in both, adds the same events to both traces and leaves the same `BL`. For PRINT the two hold the same
string as well: TEXT reads the same, with a byte 0x00 somewhere from the operand on. -/
def Obligations.OperationsForgetHistory : Prop :=
  ∀ (s u : State) (i : Instr) (w : OpWord),
    s.cfg.inBounds = true → i.wf s.cfg.transport = true → encode i = .op w →
    s.ready → u.ready → u.cfg = s.cfg → u.block.bl = s.block.bl → s.script = [.offer w] → u.script = [.offer w] →
    (∀ ta, i = .print ta →
      (∀ a, u.readText a = s.readText a) ∧ ∃ k, s.readText (textAddrAfter ta k) = 0) →
    ∃ n m t v es, steps n s = .next t ∧ steps m u = .next v ∧ t.ready ∧ v.ready ∧ t.script = [] ∧ v.script = [] ∧
      t.trace = s.trace ++ es ∧ v.trace = u.trace ++ es ∧ t.block.bl = v.block.bl ∧
      (i.isPrint = false → es = expansion s.cfg s.block.bl i)

/-- R53, R213: INIT, with no frame lost, brings the controller from any view whatever, at either phase, to 4-bit mode, two
lines, display off, cleared, address counter 0x00, shift 0, left-to-right entry, under either transport. That it does so from
4-bit mode, at even phase and at odd (R211, R219), rests on the model's reading of the nibbles 0x3 there (logs 6 and 25). -/
def Obligations.InitMakesTheControllerKnown : Prop :=
  ∀ s : State, s.cfg.inBounds = true → s.ready → s.drops = [] → s.script = [.offer 0x10000000] →
    ∃ n t, steps n s = .next t ∧ t.ready ∧ t.initDone = true ∧ t.lcd = Lcd.afterInit

/-! ### Invariants -/

/-- The invariant holds right after reset, under any configuration within its bounds. -/
def Obligations.InvariantHoldsAtReset : Prop := ∀ c : Config, c.inBounds = true → Inv (State.resetWith c)

/-- Every step keeps the invariant. -/
def Obligations.StepKeepsTheInvariant : Prop := ∀ s t : State, Inv s → step s = .next t → Inv t

/-- R180: nothing faults, and from a state of the invariant the machine stops only where a reserved word, or BACKLIGHT under
PARALLEL, is offered to a ready block. That it stops there, where the hardware goes on (R73, R74), is the model's reading, as
R182 recommends (log 9). -/
def Obligations.MachineStopsOnlyAtAReservedWord : Prop :=
  ∀ s : State, Inv s →
    (∃ t, step s = .next t) ∨
    (s.ready ∧ ∃ w rest, s.script = .offer w :: rest ∧
      ((∃ e, decode (.op w) = .error e ∧ step s = .refused (.reservedWord e)) ∨
        (s.cfg.transport = .parallel ∧ (∃ v, decode (.op w) = .ok (.backlight v)) ∧
          step s = .refused .backlightUnderParallel)))

/-- Right after reset the lines follow the empty trace. -/
def Obligations.LinesFollowTheTraceAtReset : Prop := ∀ c : Config, LinesFollow (State.resetWith c)

/-- R29, R222: every step keeps the pins and the expander's latch as the trace since reset left them, and keeps the backlight
bit last written equal to `BL`. -/
def Obligations.StepKeepsTheLinesFollowingTheTrace : Prop :=
  ∀ s t : State, LinesFollow s → step s = .next t → LinesFollow t
end

