-- ==== Sys2Proof/Laws/Decode.lean ====
section
/-! SUPPORT. The fields of an operation word built from its opcode and operand field. -/

namespace Sys2Proof

@[simp] theorem opcField_opWord (opc : BitVec 4) (arg : BitVec 16) : opcField (opWord opc arg) = opc := by
  apply BitVec.eq_of_getElem_eq
  intro k hk
  interval_cases k <;> simp [opcField, opWord]

@[simp] theorem rsvField_opWord (opc : BitVec 4) (arg : BitVec 16) : rsvField (opWord opc arg) = 0 := by
  apply BitVec.eq_of_getElem_eq
  intro k hk
  interval_cases k <;> simp [rsvField, opWord]

@[simp] theorem argField_opWord (opc : BitVec 4) (arg : BitVec 16) : argField (opWord opc arg) = arg := by
  apply BitVec.eq_of_getElem_eq
  intro k hk
  interval_cases k <;> simp [argField, opWord]

@[simp] theorem rowField_goto (opc : BitVec 4) (row col : Byte) : rowField (opWord opc (gotoArg row col)) = row := by
  apply BitVec.eq_of_getElem_eq
  intro k hk
  interval_cases k <;> simp [rowField, opWord, gotoArg]

@[simp] theorem colField_goto (opc : BitVec 4) (row col : Byte) : colField (opWord opc (gotoArg row col)) = col := by
  apply BitVec.eq_of_getElem_eq
  intro k hk
  interval_cases k <;> simp [colField, opWord, gotoArg]

/-- A word whose reserved field is 0 is built from its opcode and operand field. -/
theorem opWord_fields (w : OpWord) (h : rsvField w = 0) : opWord (opcField w) (argField w) = w := by
  have hk : ∀ k, k < 12 → w.getLsbD (16 + k) = false := fun k hk => by
    have := congrArg (fun v => BitVec.getLsbD v k) h
    simpa [rsvField, hk] using this
  apply BitVec.eq_of_getElem_eq
  intro k hk'
  by_cases h1 : k < 16
  · have : k < 28 := by omega
    simp [opWord, opcField, argField, h1, this, BitVec.getLsbD_eq_getElem hk']
  · by_cases h2 : k < 28
    · have := hk (k - 16) (by omega)
      rw [show 16 + (k - 16) = k by omega, BitVec.getLsbD_eq_getElem hk'] at this
      simp [opWord, opcField, argField, h1, h2, this]
    · have h3 : k - 28 < 4 := by omega
      have h4 : 28 + (k - 28) = k := by omega
      simp [opWord, opcField, argField, h1, h2, h3, h4, BitVec.getLsbD_eq_getElem hk']

/-- GOTO's operand field is put together from its two operands. -/
theorem gotoArg_fields (w : OpWord) : gotoArg (rowField w) (colField w) = argField w := by
  apply BitVec.eq_of_getElem_eq
  intro k hk
  by_cases h : k < 8
  · simp [gotoArg, rowField, colField, argField, h]
  · have h3 : k - 8 < 8 := by omega
    have h4 : 8 + (k - 8) = k := by omega
    simp [gotoArg, rowField, colField, argField, h, h3, h4]

/-- Masking a word with the operand field's place cleared. -/
theorem opWord_and_high (opc : BitVec 4) (arg : BitVec 16) : opWord opc arg &&& 0xFFFF0000 = opWord opc 0 := by
  apply BitVec.eq_of_getLsbD_eq
  intro k hk
  interval_cases k <;> simp [opWord]

end Sys2Proof
end

