-- ==== Sys2Proof/Laws/Transport.lean ====
section
/-! SUPPORT. The bytes the block composes, bit by bit, and what every event of an expansion looks like. -/

namespace Sys2Proof.Machine

/-! ### Bytes -/

theorem expanderByte_rs (n : Nibble) (bl en rs : Bool) : (expanderByte n bl en rs).getLsbD 0 = rs := by
  cases bl <;> cases en <;> cases rs <;> revert n <;> decide
theorem expanderByte_rw (n : Nibble) (bl en rs : Bool) : (expanderByte n bl en rs).getLsbD 1 = false := by
  cases bl <;> cases en <;> cases rs <;> revert n <;> decide
theorem expanderByte_en (n : Nibble) (bl en rs : Bool) : (expanderByte n bl en rs).getLsbD 2 = en := by
  cases bl <;> cases en <;> cases rs <;> revert n <;> decide
theorem expanderByte_bl (n : Nibble) (bl en rs : Bool) : (expanderByte n bl en rs).getLsbD 3 = bl := by
  cases bl <;> cases en <;> cases rs <;> revert n <;> decide
@[simp] theorem expanderByte_nibble (n : Nibble) (bl en rs : Bool) : highNibble (expanderByte n bl en rs) = n := by
  cases bl <;> cases en <;> cases rs <;> revert n <;> decide

theorem bitAt3_bit1 (v : Bool) : (bitAt 3 v).getLsbD 1 = false := by cases v <;> decide
theorem bitAt3_bit2 (v : Bool) : (bitAt 3 v).getLsbD 2 = false := by cases v <;> decide
theorem bitAt3_bit3 (v : Bool) : (bitAt 3 v).getLsbD 3 = v := by cases v <;> decide

/-- The expander's reading of a byte puts it together again when RW is 0. -/
theorem expanderByte_fields (v : Byte) (h : v.getLsbD 1 = false) :
    expanderByte (v.extractLsb' 4 4) (v.getLsbD 3) (v.getLsbD 2) (v.getLsbD 0) = v := by
  revert v; decide

/-! ### Delays -/

@[simp] theorem delay_zero : delay 0 = [] := rfl
theorem delay_of_pos {t : Nat} (h : 0 < t) : delay t = [.delay t] := by simp [delay]; omega
theorem mem_delay {e : Event} {t : Nat} (h : e ∈ delay t) : e = .delay t ∧ 0 < t := by
  simp only [delay] at h
  split at h
  · simp at h
  · exact ⟨by simpa using h, by omega⟩

/-! ### What the block emits -/

/-- The shape of every transport event: the pins under PARALLEL with RW low, the expander's own address under EXPANDER with
RW = 0 and bit 3 as the backlight bit, a delay that is not 0 (R12, R13, R44, R107, R121, R151). -/
def Emitted (c : Config) (bl : Bool) : Event → Prop
  | .pin p v => c.transport = .parallel ∧ (p = .rw → v = false)
  | .i2cWrite a v => c.transport = .expander ∧ a = c.i2cAddr ∧ v.getLsbD 1 = false ∧ v.getLsbD 3 = bl
  | .delay t => 0 < t
  | .textRead _ _ => False

theorem emitted_of_delay {c : Config} {bl : Bool} {e : Event} {t : Nat} (h : e ∈ delay t) : Emitted c bl e := by
  obtain ⟨rfl, ht⟩ := mem_delay h
  exact ht

theorem emitted_of_txn {c : Config} {bl : Bool} {n : Nibble} {rs : Bool} {e : Event} (h : e ∈ txn c bl n rs) :
    Emitted c bl e := by
  cases ht : c.transport with
  | parallel =>
    simp only [txn, ht, txnPar, List.mem_append, List.mem_cons, List.not_mem_nil, or_false] at h
    rcases h with (((rfl | rfl | rfl | rfl | rfl | rfl | rfl) | h) | rfl) | h <;>
      first
      | exact emitted_of_delay h
      | simp [Emitted, ht]
  | expander =>
    simp only [txn, ht, txnExp, List.mem_append, List.mem_cons, List.not_mem_nil, or_false] at h
    rcases h with (rfl | rfl) | h
    · exact ⟨ht, rfl, expanderByte_rw .., expanderByte_bl ..⟩
    · exact ⟨ht, rfl, expanderByte_rw .., expanderByte_bl ..⟩
    · exact emitted_of_delay h

theorem emitted_of_send {c : Config} {bl : Bool} {b : Byte} {rs : Bool} {e : Event} (h : e ∈ send c bl b rs) :
    Emitted c bl e := by
  rcases List.mem_append.mp h with h | h <;> exact emitted_of_txn h

theorem emitted_of_cmd {c : Config} {bl : Bool} {b : Byte} {t : Nat} {e : Event} (h : e ∈ cmd c bl b t) :
    Emitted c bl e := by
  rcases List.mem_append.mp h with h | h
  · exact emitted_of_send h
  · exact emitted_of_delay h

theorem emitted_of_data {c : Config} {bl : Bool} {ch : Byte} {e : Event} (h : e ∈ data c bl ch) : Emitted c bl e := by
  rcases List.mem_append.mp h with h | h
  · exact emitted_of_send h
  · exact emitted_of_delay h

theorem emitted_of_init {c : Config} {bl : Bool} {e : Event} (h : e ∈ initEvents c bl) : Emitted c bl e := by
  simp only [initEvents, List.mem_append] at h
  rcases h with (((((((h | h | h) | h | h) | h | h) | h | h) | h) | h) | h) | h <;>
    first
    | exact emitted_of_delay h
    | exact emitted_of_txn h
    | exact emitted_of_cmd h

theorem emitted_of_goto {c : Config} {bl : Bool} {row col : Byte} {e : Event} (h : e ∈ gotoEvents c bl row col) :
    Emitted c bl e := by
  simp only [gotoEvents] at h
  split at h
  · exact emitted_of_cmd h
  · simp at h

theorem emitted_of_backlight {c : Config} {bl : Bool} {e : Event} (ht : c.transport = .expander)
    (h : e ∈ backlightEvents c bl) : Emitted c bl e := by
  rcases List.mem_append.mp h with h | h
  · obtain rfl := List.mem_singleton.mp h
    exact ⟨ht, rfl, bitAt3_bit1 _, bitAt3_bit3 _⟩
  · exact emitted_of_delay h

/-- Every event of an operation's expansion, with the `BL` the operation leaves. -/
theorem emitted_of_expansion {c : Config} {bl : Bool} {i : Instr} {e : Event} (hw : i.wf c.transport = true)
    (h : e ∈ expansion c bl i) : Emitted c (blAfter bl i) e := by
  cases i <;> simp only [expansion, List.not_mem_nil] at h
  case init => exact emitted_of_init h
  case clear => exact emitted_of_cmd h
  case goto => exact emitted_of_goto h
  case dispctl => exact emitted_of_cmd h
  case shift => exact emitted_of_cmd h
  case backlight => exact emitted_of_backlight (by simpa [Instr.wf] using hw) h

/-! ### Lengths that do not depend on the bits -/

theorem txn_length (c : Config) (bl bl' : Bool) (n n' : Nibble) (rs rs' : Bool) :
    (txn c bl n rs).length = (txn c bl' n' rs').length := by
  cases h : c.transport <;> simp [txn, h, txnPar, txnExp]

theorem data_length (c : Config) (bl bl' : Bool) (ch ch' : Byte) : (data c bl ch).length = (data c bl' ch').length := by
  simp only [data, send, List.length_append]
  rw [txn_length c bl bl' _ (highNibble ch') true true, txn_length c bl bl' _ (lowNibble ch') true true]

theorem data_ne_nil (c : Config) (bl : Bool) (ch : Byte) : 0 < (data c bl ch).length := by
  cases h : c.transport <;> simp [data, send, txn, h, txnPar, txnExp]

end Sys2Proof.Machine
end

