-- ==== Sys2Proof/Laws/Frames.lean ====
section
/-! SUPPORT. Frames of an event list put together from parts, and the frame of one transfer. -/

namespace Sys2Proof.Machine

theorem Lines.run_append (c : Config) (l : Lines) (xs ys : List Event) :
    l.run c (xs ++ ys) = (l.run c xs).run c ys := by
  induction xs generalizing l with
  | nil => rfl
  | cons e xs ih => exact ih _

theorem framesFrom_append (c : Config) (l : Lines) (xs ys : List Event) :
    framesFrom c l (xs ++ ys) = framesFrom c l xs ++ framesFrom c (l.run c xs) ys := by
  induction xs generalizing l with
  | nil => rfl
  | cons e xs ih => simp [framesFrom, Lines.run, ih]

@[simp] theorem framesFrom_delay (c : Config) (l : Lines) (t : Nat) : framesFrom c l (delay t) = [] := by
  simp only [delay]
  split <;> rfl

@[simp] theorem Lines.run_delay (c : Config) (l : Lines) (t : Nat) : l.run c (delay t) = l := by
  simp only [delay]
  split <;> rfl

theorem nibbleOfLevels_bits (n : Nibble) :
    nibbleOfLevels (n.getLsbD 3) (n.getLsbD 2) (n.getLsbD 1) (n.getLsbD 0) = n := by
  revert n; decide

/-- A transfer shows one frame, whatever the lines held (R101, R109). -/
theorem framesFrom_txn (c : Config) (bl rs : Bool) (n : Nibble) (l : Lines) :
    framesFrom c l (txn c bl n rs) = [.frame ⟨n, rs, false⟩] := by
  cases h : c.transport with
  | parallel =>
    simp only [txn, h, txnPar, framesFrom_append, framesFrom_delay]
    simp [framesFrom, Lines.run, Lines.observe, Lines.after, PinImage.observe, PinImage.set, PinImage.frame,
      nibbleOfLevels_bits, -BitVec.getLsbD_eq_getElem]
  | expander =>
    simp only [txn, h, txnExp, framesFrom_append, framesFrom_delay]
    cases hx : l.xp <;>
      simp [framesFrom, Lines.observe, Lines.after, XpImage.observe, hx, expanderByte_en, expanderByte_rs, expanderByte_rw,
        -BitVec.getLsbD_eq_getElem]

end Sys2Proof.Machine
end

