-- ==== Sys2Proof/Laws/State.lean ====
section
/-! SUPPORT. One lemma per field per update of the state, each true by definition, so that no later proof unfolds a record
update. -/

namespace Sys2Proof.Machine


/-! ### `State.setBl` -/

@[simp] theorem State.setBl_cfg (s : State) (v : Bool) : (s.setBl v).cfg = s.cfg := rfl
@[simp] theorem State.setBl_bl (s : State) (v : Bool) : (s.setBl v).block.bl = v := rfl
@[simp] theorem State.setBl_run (s : State) (v : Bool) : (s.setBl v).block.run = s.block.run := rfl
@[simp] theorem State.setBl_opl (s : State) (v : Bool) : (s.setBl v).block.opl = s.block.opl := rfl
@[simp] theorem State.setBl_pos (s : State) (v : Bool) : (s.setBl v).block.pos = s.block.pos := rfl
@[simp] theorem State.setBl_tp (s : State) (v : Bool) : (s.setBl v).block.tp = s.block.tp := rfl
@[simp] theorem State.setBl_ch (s : State) (v : Bool) : (s.setBl v).block.ch = s.block.ch := rfl
@[simp] theorem State.setBl_text (s : State) (v : Bool) : (s.setBl v).text = s.text := rfl
@[simp] theorem State.setBl_script (s : State) (v : Bool) : (s.setBl v).script = s.script := rfl
@[simp] theorem State.setBl_pins (s : State) (v : Bool) : (s.setBl v).pins = s.pins := rfl
@[simp] theorem State.setBl_xp (s : State) (v : Bool) : (s.setBl v).xp = s.xp := rfl
@[simp] theorem State.setBl_xpBus (s : State) (v : Bool) : (s.setBl v).xpBus = s.xpBus := rfl
@[simp] theorem State.setBl_lcd (s : State) (v : Bool) : (s.setBl v).lcd = s.lcd := rfl
@[simp] theorem State.setBl_lcdBus (s : State) (v : Bool) : (s.setBl v).lcdBus = s.lcdBus := rfl
@[simp] theorem State.setBl_drops (s : State) (v : Bool) : (s.setBl v).drops = s.drops := rfl
@[simp] theorem State.setBl_initDone (s : State) (v : Bool) : (s.setBl v).initDone = s.initDone := rfl
@[simp] theorem State.setBl_trace (s : State) (v : Bool) : (s.setBl v).trace = s.trace := rfl

/-! ### `State.setPos` -/

@[simp] theorem State.setPos_cfg (s : State) (p : Nat) : (s.setPos p).cfg = s.cfg := rfl
@[simp] theorem State.setPos_bl (s : State) (p : Nat) : (s.setPos p).block.bl = s.block.bl := rfl
@[simp] theorem State.setPos_run (s : State) (p : Nat) : (s.setPos p).block.run = s.block.run := rfl
@[simp] theorem State.setPos_opl (s : State) (p : Nat) : (s.setPos p).block.opl = s.block.opl := rfl
@[simp] theorem State.setPos_pos (s : State) (p : Nat) : (s.setPos p).block.pos = p := rfl
@[simp] theorem State.setPos_tp (s : State) (p : Nat) : (s.setPos p).block.tp = s.block.tp := rfl
@[simp] theorem State.setPos_ch (s : State) (p : Nat) : (s.setPos p).block.ch = s.block.ch := rfl
@[simp] theorem State.setPos_text (s : State) (p : Nat) : (s.setPos p).text = s.text := rfl
@[simp] theorem State.setPos_script (s : State) (p : Nat) : (s.setPos p).script = s.script := rfl
@[simp] theorem State.setPos_pins (s : State) (p : Nat) : (s.setPos p).pins = s.pins := rfl
@[simp] theorem State.setPos_xp (s : State) (p : Nat) : (s.setPos p).xp = s.xp := rfl
@[simp] theorem State.setPos_xpBus (s : State) (p : Nat) : (s.setPos p).xpBus = s.xpBus := rfl
@[simp] theorem State.setPos_lcd (s : State) (p : Nat) : (s.setPos p).lcd = s.lcd := rfl
@[simp] theorem State.setPos_lcdBus (s : State) (p : Nat) : (s.setPos p).lcdBus = s.lcdBus := rfl
@[simp] theorem State.setPos_drops (s : State) (p : Nat) : (s.setPos p).drops = s.drops := rfl
@[simp] theorem State.setPos_initDone (s : State) (p : Nat) : (s.setPos p).initDone = s.initDone := rfl
@[simp] theorem State.setPos_trace (s : State) (p : Nat) : (s.setPos p).trace = s.trace := rfl

/-! ### `State.setTp` -/

@[simp] theorem State.setTp_cfg (s : State) (a : TextAddr) : (s.setTp a).cfg = s.cfg := rfl
@[simp] theorem State.setTp_bl (s : State) (a : TextAddr) : (s.setTp a).block.bl = s.block.bl := rfl
@[simp] theorem State.setTp_run (s : State) (a : TextAddr) : (s.setTp a).block.run = s.block.run := rfl
@[simp] theorem State.setTp_opl (s : State) (a : TextAddr) : (s.setTp a).block.opl = s.block.opl := rfl
@[simp] theorem State.setTp_pos (s : State) (a : TextAddr) : (s.setTp a).block.pos = s.block.pos := rfl
@[simp] theorem State.setTp_tp (s : State) (a : TextAddr) : (s.setTp a).block.tp = a := rfl
@[simp] theorem State.setTp_ch (s : State) (a : TextAddr) : (s.setTp a).block.ch = s.block.ch := rfl
@[simp] theorem State.setTp_text (s : State) (a : TextAddr) : (s.setTp a).text = s.text := rfl
@[simp] theorem State.setTp_script (s : State) (a : TextAddr) : (s.setTp a).script = s.script := rfl
@[simp] theorem State.setTp_pins (s : State) (a : TextAddr) : (s.setTp a).pins = s.pins := rfl
@[simp] theorem State.setTp_xp (s : State) (a : TextAddr) : (s.setTp a).xp = s.xp := rfl
@[simp] theorem State.setTp_xpBus (s : State) (a : TextAddr) : (s.setTp a).xpBus = s.xpBus := rfl
@[simp] theorem State.setTp_lcd (s : State) (a : TextAddr) : (s.setTp a).lcd = s.lcd := rfl
@[simp] theorem State.setTp_lcdBus (s : State) (a : TextAddr) : (s.setTp a).lcdBus = s.lcdBus := rfl
@[simp] theorem State.setTp_drops (s : State) (a : TextAddr) : (s.setTp a).drops = s.drops := rfl
@[simp] theorem State.setTp_initDone (s : State) (a : TextAddr) : (s.setTp a).initDone = s.initDone := rfl
@[simp] theorem State.setTp_trace (s : State) (a : TextAddr) : (s.setTp a).trace = s.trace := rfl

/-! ### `State.setCh` -/

@[simp] theorem State.setCh_cfg (s : State) (c : Byte) : (s.setCh c).cfg = s.cfg := rfl
@[simp] theorem State.setCh_bl (s : State) (c : Byte) : (s.setCh c).block.bl = s.block.bl := rfl
@[simp] theorem State.setCh_run (s : State) (c : Byte) : (s.setCh c).block.run = s.block.run := rfl
@[simp] theorem State.setCh_opl (s : State) (c : Byte) : (s.setCh c).block.opl = s.block.opl := rfl
@[simp] theorem State.setCh_pos (s : State) (c : Byte) : (s.setCh c).block.pos = s.block.pos := rfl
@[simp] theorem State.setCh_tp (s : State) (c : Byte) : (s.setCh c).block.tp = s.block.tp := rfl
@[simp] theorem State.setCh_ch (s : State) (c : Byte) : (s.setCh c).block.ch = c := rfl
@[simp] theorem State.setCh_text (s : State) (c : Byte) : (s.setCh c).text = s.text := rfl
@[simp] theorem State.setCh_script (s : State) (c : Byte) : (s.setCh c).script = s.script := rfl
@[simp] theorem State.setCh_pins (s : State) (c : Byte) : (s.setCh c).pins = s.pins := rfl
@[simp] theorem State.setCh_xp (s : State) (c : Byte) : (s.setCh c).xp = s.xp := rfl
@[simp] theorem State.setCh_xpBus (s : State) (c : Byte) : (s.setCh c).xpBus = s.xpBus := rfl
@[simp] theorem State.setCh_lcd (s : State) (c : Byte) : (s.setCh c).lcd = s.lcd := rfl
@[simp] theorem State.setCh_lcdBus (s : State) (c : Byte) : (s.setCh c).lcdBus = s.lcdBus := rfl
@[simp] theorem State.setCh_drops (s : State) (c : Byte) : (s.setCh c).drops = s.drops := rfl
@[simp] theorem State.setCh_initDone (s : State) (c : Byte) : (s.setCh c).initDone = s.initDone := rfl
@[simp] theorem State.setCh_trace (s : State) (c : Byte) : (s.setCh c).trace = s.trace := rfl

/-! ### `State.idle` -/

@[simp] theorem State.idle_cfg (s : State) : s.idle.cfg = s.cfg := rfl
@[simp] theorem State.idle_bl (s : State) : s.idle.block.bl = s.block.bl := rfl
@[simp] theorem State.idle_run (s : State) : s.idle.block.run = false := rfl
@[simp] theorem State.idle_opl (s : State) : s.idle.block.opl = s.block.opl := rfl
@[simp] theorem State.idle_pos (s : State) : s.idle.block.pos = s.block.pos := rfl
@[simp] theorem State.idle_tp (s : State) : s.idle.block.tp = s.block.tp := rfl
@[simp] theorem State.idle_ch (s : State) : s.idle.block.ch = s.block.ch := rfl
@[simp] theorem State.idle_text (s : State) : s.idle.text = s.text := rfl
@[simp] theorem State.idle_script (s : State) : s.idle.script = s.script := rfl
@[simp] theorem State.idle_pins (s : State) : s.idle.pins = s.pins := rfl
@[simp] theorem State.idle_xp (s : State) : s.idle.xp = s.xp := rfl
@[simp] theorem State.idle_xpBus (s : State) : s.idle.xpBus = s.xpBus := rfl
@[simp] theorem State.idle_lcd (s : State) : s.idle.lcd = s.lcd := rfl
@[simp] theorem State.idle_lcdBus (s : State) : s.idle.lcdBus = s.lcdBus := rfl
@[simp] theorem State.idle_drops (s : State) : s.idle.drops = s.drops := rfl
@[simp] theorem State.idle_initDone (s : State) : s.idle.initDone = s.initDone := rfl
@[simp] theorem State.idle_trace (s : State) : s.idle.trace = s.trace := rfl

/-! ### `State.accept` -/

@[simp] theorem State.accept_cfg (s : State) (w : OpWord) (i : Instr) : (s.accept w i).cfg = s.cfg := rfl
@[simp] theorem State.accept_bl (s : State) (w : OpWord) (i : Instr) : (s.accept w i).block.bl = s.block.bl := rfl
@[simp] theorem State.accept_run (s : State) (w : OpWord) (i : Instr) : (s.accept w i).block.run = true := rfl
@[simp] theorem State.accept_opl (s : State) (w : OpWord) (i : Instr) : (s.accept w i).block.opl = w := rfl
@[simp] theorem State.accept_pos (s : State) (w : OpWord) (i : Instr) : (s.accept w i).block.pos = 0 := rfl
@[simp] theorem State.accept_ch (s : State) (w : OpWord) (i : Instr) : (s.accept w i).block.ch = s.block.ch := rfl
@[simp] theorem State.accept_text (s : State) (w : OpWord) (i : Instr) : (s.accept w i).text = s.text := rfl
@[simp] theorem State.accept_script (s : State) (w : OpWord) (i : Instr) : (s.accept w i).script = s.script := rfl
@[simp] theorem State.accept_pins (s : State) (w : OpWord) (i : Instr) : (s.accept w i).pins = s.pins := rfl
@[simp] theorem State.accept_xp (s : State) (w : OpWord) (i : Instr) : (s.accept w i).xp = s.xp := rfl
@[simp] theorem State.accept_xpBus (s : State) (w : OpWord) (i : Instr) : (s.accept w i).xpBus = s.xpBus := rfl
@[simp] theorem State.accept_lcd (s : State) (w : OpWord) (i : Instr) : (s.accept w i).lcd = s.lcd := rfl
@[simp] theorem State.accept_lcdBus (s : State) (w : OpWord) (i : Instr) : (s.accept w i).lcdBus = s.lcdBus := rfl
@[simp] theorem State.accept_drops (s : State) (w : OpWord) (i : Instr) : (s.accept w i).drops = s.drops := rfl
@[simp] theorem State.accept_initDone (s : State) (w : OpWord) (i : Instr) : (s.accept w i).initDone = s.initDone := rfl
@[simp] theorem State.accept_trace (s : State) (w : OpWord) (i : Instr) : (s.accept w i).trace = s.trace := rfl
@[simp] theorem State.accept_print_tp (s : State) (w : OpWord) (a : TextAddr) :
    (s.accept w (.print a)).block.tp = a := rfl

/-! ### `State.writeText` and `State.applyReset` -/

@[simp] theorem State.writeText_cfg (s : State) (a : TextAddr) (v : Byte) : (s.writeText a v).cfg = s.cfg := rfl
@[simp] theorem State.writeText_block (s : State) (a : TextAddr) (v : Byte) : (s.writeText a v).block = s.block := rfl
@[simp] theorem State.writeText_script (s : State) (a : TextAddr) (v : Byte) : (s.writeText a v).script = s.script := rfl
@[simp] theorem State.writeText_pins (s : State) (a : TextAddr) (v : Byte) : (s.writeText a v).pins = s.pins := rfl
@[simp] theorem State.writeText_xp (s : State) (a : TextAddr) (v : Byte) : (s.writeText a v).xp = s.xp := rfl
@[simp] theorem State.writeText_xpBus (s : State) (a : TextAddr) (v : Byte) : (s.writeText a v).xpBus = s.xpBus := rfl
@[simp] theorem State.writeText_lcd (s : State) (a : TextAddr) (v : Byte) : (s.writeText a v).lcd = s.lcd := rfl
@[simp] theorem State.writeText_lcdBus (s : State) (a : TextAddr) (v : Byte) : (s.writeText a v).lcdBus = s.lcdBus := rfl
@[simp] theorem State.writeText_drops (s : State) (a : TextAddr) (v : Byte) : (s.writeText a v).drops = s.drops := rfl
@[simp] theorem State.writeText_initDone (s : State) (a : TextAddr) (v : Byte) : (s.writeText a v).initDone = s.initDone := rfl
@[simp] theorem State.writeText_trace (s : State) (a : TextAddr) (v : Byte) : (s.writeText a v).trace = s.trace := rfl
@[simp] theorem State.applyReset_cfg (s : State) : s.applyReset.cfg = s.cfg := rfl
@[simp] theorem State.applyReset_bl (s : State) : s.applyReset.block.bl = true := rfl
@[simp] theorem State.applyReset_run (s : State) : s.applyReset.block.run = false := rfl
@[simp] theorem State.applyReset_opl (s : State) : s.applyReset.block.opl = s.block.opl := rfl
@[simp] theorem State.applyReset_pos (s : State) : s.applyReset.block.pos = s.block.pos := rfl
@[simp] theorem State.applyReset_tp (s : State) : s.applyReset.block.tp = s.block.tp := rfl
@[simp] theorem State.applyReset_ch (s : State) : s.applyReset.block.ch = s.block.ch := rfl
@[simp] theorem State.applyReset_text (s : State) : s.applyReset.text = s.text := rfl
@[simp] theorem State.applyReset_script (s : State) : s.applyReset.script = s.script := rfl
@[simp] theorem State.applyReset_pins (s : State) : s.applyReset.pins = s.pins := rfl
@[simp] theorem State.applyReset_xp (s : State) : s.applyReset.xp = s.xp := rfl
@[simp] theorem State.applyReset_xpBus (s : State) : s.applyReset.xpBus = s.xpBus := rfl
@[simp] theorem State.applyReset_lcd (s : State) : s.applyReset.lcd = Lcd.unknown := rfl
@[simp] theorem State.applyReset_lcdBus (s : State) : s.applyReset.lcdBus = s.lcdBus := rfl
@[simp] theorem State.applyReset_drops (s : State) : s.applyReset.drops = s.drops := rfl
@[simp] theorem State.applyReset_initDone (s : State) : s.applyReset.initDone = false := rfl
@[simp] theorem State.applyReset_trace (s : State) : s.applyReset.trace = [] := rfl

/-! ### `PinImage.set` -/

@[simp] theorem PinImage.get_set_same (im : PinImage) (p : Pin) (v : Bool) : (im.set p v).get p = .is v := by
  cases p <;> rfl

theorem PinImage.get_set_other (im : PinImage) (p q : Pin) (v : Bool) (h : q ≠ p) : (im.set p v).get q = im.get q := by
  cases p <;> cases q <;> first | rfl | exact absurd rfl h

end Sys2Proof.Machine
end

