-- ==== Sys2Proof/Laws/Memory.lean ====
section
/-! SUPPORT. The laws of memory: read after write, other cells untouched, and every operation keeps the canonical form. -/

namespace Sys2Proof.Machine

@[simp] theorem Memory.find_put_same (m : List Host.Cell) (a : Nat) (v : Byte) :
    Memory.find (Memory.put m a v) a = some v := by
  induction m with
  | nil => simp [Memory.put, Memory.find]
  | cons c m ih =>
    simp only [Memory.put]
    split
    · simp [Memory.find]
    · split
      · simp [Memory.find]
      · rename_i h
        simp [Memory.find, Ne.symm h, ih]

theorem Memory.find_put_other (m : List Host.Cell) (a b : Nat) (v : Byte) (h : b ≠ a) :
    Memory.find (Memory.put m a v) b = Memory.find m b := by
  induction m with
  | nil => simp [Memory.put, Memory.find, Ne.symm h]
  | cons c m ih =>
    simp only [Memory.put]
    split
    · simp [Memory.find, Ne.symm h]
    · split
      · rename_i e
        simp [Memory.find, ← e, Ne.symm h]
      · simp [Memory.find, ih]

theorem Memory.find_remove_other (m : List Host.Cell) (a b : Nat) (h : b ≠ a) :
    Memory.find (Memory.remove m a) b = Memory.find m b := by
  induction m with
  | nil => rfl
  | cons c m ih =>
    simp only [Memory.remove]
    split
    · rename_i e
      simp [Memory.find, e, Ne.symm h]
    · simp [Memory.find, ih]

theorem Memory.find_none_of_lt (m : List Host.Cell) (a : Nat) (h : ∀ c ∈ m, a < c.1) : Memory.find m a = none := by
  induction m with
  | nil => rfl
  | cons c m ih =>
    have hc := h c (by simp)
    simp only [Memory.find, show c.1 ≠ a by omega, if_false]
    exact ih fun d hd => h d (by simp [hd])

theorem Memory.find_remove_same (m : List Host.Cell) (a : Nat) (h : Memory.Rising m) :
    Memory.find (Memory.remove m a) a = none := by
  induction m with
  | nil => rfl
  | cons c m ih =>
    have hp := List.pairwise_cons.mp h
    simp only [Memory.remove]
    split
    · rename_i e
      exact Memory.find_none_of_lt m a fun d hd => e ▸ hp.1 d hd
    · rename_i e
      simp [Memory.find, e, ih hp.2]

theorem Memory.mem_put (m : List Host.Cell) (a : Nat) (v : Byte) (c : Host.Cell) (h : c ∈ Memory.put m a v) :
    c = (a, v) ∨ c ∈ m := by
  induction m with
  | nil => simpa [Memory.put] using h
  | cons d m ih =>
    simp only [Memory.put] at h
    split at h
    · simpa using h
    · split at h
      · simp only [List.mem_cons] at h ⊢
        tauto
      · simp only [List.mem_cons] at h ⊢
        rcases h with h | h
        · tauto
        · rcases ih h with h | h <;> tauto

theorem Memory.mem_remove (m : List Host.Cell) (a : Nat) (c : Host.Cell) (h : c ∈ Memory.remove m a) : c ∈ m := by
  induction m with
  | nil => simp [Memory.remove] at h
  | cons d m ih =>
    simp only [Memory.remove] at h
    split at h
    · simp [h]
    · simp only [List.mem_cons] at h ⊢
      exact h.imp_right ih

theorem Memory.rising_put (m : List Host.Cell) (a : Nat) (v : Byte) (h : Memory.Rising m) :
    Memory.Rising (Memory.put m a v) := by
  induction m with
  | nil => simp [Memory.put]
  | cons c m ih =>
    have hp := List.pairwise_cons.mp h
    simp only [Memory.put]
    split
    · rename_i lt
      refine List.pairwise_cons.mpr ⟨fun d hd => ?_, h⟩
      rcases List.mem_cons.mp hd with rfl | hd
      · exact lt
      · exact Nat.lt_trans lt (hp.1 d hd)
    · split
      · rename_i e
        exact List.pairwise_cons.mpr ⟨fun d hd => e ▸ hp.1 d hd, hp.2⟩
      · refine List.pairwise_cons.mpr ⟨fun d hd => ?_, ih hp.2⟩
        rcases Memory.mem_put m a v d hd with rfl | hd
        · show c.1 < a
          omega
        · exact hp.1 d hd

theorem Memory.rising_remove (m : List Host.Cell) (a : Nat) (h : Memory.Rising m) :
    Memory.Rising (Memory.remove m a) := by
  induction m with
  | nil => simp [Memory.remove]
  | cons c m ih =>
    have hp := List.pairwise_cons.mp h
    simp only [Memory.remove]
    split
    · exact hp.2
    · exact List.pairwise_cons.mpr ⟨fun d hd => hp.1 d (Memory.mem_remove m a d hd), ih hp.2⟩

/-- A host's write keeps TEXT in canonical form. -/
theorem State.writeText_keeps_wf (s : State) (a : TextAddr) (v : Byte) (h : Memory.wf s.text) :
    Memory.wf (s.writeText a v).text := by
  simp only [State.writeText]
  split
  · exact ⟨Memory.rising_remove _ _ h.1, fun c hc => h.2 c (Memory.mem_remove _ _ c hc)⟩
  · rename_i hv
    refine ⟨Memory.rising_put _ _ _ h.1, fun c hc => ?_⟩
    rcases Memory.mem_put _ _ _ c hc with rfl | hc
    · exact ⟨a.isLt, hv⟩
    · exact h.2 c hc

/-- A character stored in a row keeps the known cells of DDRAM in canonical form. -/
theorem Memory.put_keeps_ddramWf (m : List Host.Cell) (a : DdramAddr) (v : Byte) (ha : inRow a = true)
    (h : Memory.ddramWf m) : Memory.ddramWf (Memory.put m a.toNat v) := by
  refine ⟨Memory.rising_put _ _ _ h.1, fun c hc => ?_⟩
  rcases Memory.mem_put _ _ _ c hc with rfl | hc
  · exact ⟨a.isLt, by simpa using ha⟩
  · exact h.2 c hc

/-- The controller's store keeps the known cells of DDRAM in canonical form. -/
theorem Lcd.store_keeps_ddramWf (l : Lcd) (ch : Byte) (h : Memory.ddramWf l.ddram) :
    Memory.ddramWf (l.store ch).ddram := by
  simp only [Lcd.store]
  split
  · split
    · exact Memory.put_keeps_ddramWf _ _ _ (by assumption) h
    · simp [Memory.ddramWf, Memory.Rising]
  · simp [Memory.ddramWf, Memory.Rising]

/-- Memory as reset leaves it is in canonical form. -/
theorem State.resetWith_wf (c : Config) : Memory.wf (State.resetWith c).text ∧ Memory.ddramWf (State.resetWith c).lcd.ddram := by
  simp [State.resetWith, Lcd.unknown, Memory.wf, Memory.ddramWf, Memory.Rising]

end Sys2Proof.Machine
end

