-- ==== Sys2Proof/Laws/Ops.lean ====
section
/-! SUPPORT. What the shared operations change, said once: the fields each leaves alone, and the cases of `latch`, `emit`
and `issue`. -/

namespace Sys2Proof.Machine

/-! ### Taking a frame touches the controller alone -/

@[simp] theorem State.takeFrame_cfg (s : State) (x : Frame) : (s.takeFrame x).cfg = s.cfg := by
  simp only [State.takeFrame]; repeat' split
  all_goals rfl

@[simp] theorem State.takeFrame_block (s : State) (x : Frame) : (s.takeFrame x).block = s.block := by
  simp only [State.takeFrame]; repeat' split
  all_goals rfl

@[simp] theorem State.takeFrame_text (s : State) (x : Frame) : (s.takeFrame x).text = s.text := by
  simp only [State.takeFrame]; repeat' split
  all_goals rfl

@[simp] theorem State.takeFrame_script (s : State) (x : Frame) : (s.takeFrame x).script = s.script := by
  simp only [State.takeFrame]; repeat' split
  all_goals rfl

@[simp] theorem State.takeFrame_pins (s : State) (x : Frame) : (s.takeFrame x).pins = s.pins := by
  simp only [State.takeFrame]; repeat' split
  all_goals rfl

@[simp] theorem State.takeFrame_xp (s : State) (x : Frame) : (s.takeFrame x).xp = s.xp := by
  simp only [State.takeFrame]; repeat' split
  all_goals rfl

@[simp] theorem State.takeFrame_xpBus (s : State) (x : Frame) : (s.takeFrame x).xpBus = s.xpBus := by
  simp only [State.takeFrame]; repeat' split
  all_goals rfl

@[simp] theorem State.takeFrame_drops (s : State) (x : Frame) : (s.takeFrame x).drops = s.drops := by
  simp only [State.takeFrame]; repeat' split
  all_goals rfl

@[simp] theorem State.takeFrame_initDone (s : State) (x : Frame) : (s.takeFrame x).initDone = s.initDone := by
  simp only [State.takeFrame]; repeat' split
  all_goals rfl

@[simp] theorem State.takeFrame_trace (s : State) (x : Frame) : (s.takeFrame x).trace = s.trace := by
  simp only [State.takeFrame]; repeat' split
  all_goals rfl

/-! ### What a frame does, by mode and phase -/

/-- Outside 4-bit mode a frame is a whole transfer. -/
theorem State.takeFrame_outside (s : State) (n : Nibble) (rs : Bool) (h : s.lcd.iface = .undefined8) :
    s.takeFrame ⟨n, rs, false⟩ = { s with lcdBus := some (.nibble rs n) } := by
  simp [State.takeFrame, h]

/-- At even phase a frame is held as the high half. -/
theorem State.takeFrame_even (s : State) (n : Nibble) (rs : Bool) (h : s.lcd.iface = .fourBit) (he : s.lcd.half = none) :
    s.takeFrame ⟨n, rs, false⟩ =
      { s with lcd := { s.lcd with wakes := s.lcd.wakesAfter ⟨n, rs, false⟩, half := some (n, rs) } } := by
  simp [State.takeFrame, h, he]

/-- At odd phase a frame with the same RS completes the byte. -/
theorem State.takeFrame_odd (s : State) (m n : Nibble) (rs : Bool) (h : s.lcd.iface = .fourBit)
    (ho : s.lcd.half = some (m, rs)) :
    s.takeFrame ⟨n, rs, false⟩ =
      { s with
        lcd := { s.lcd with wakes := s.lcd.wakesAfter ⟨n, rs, false⟩, half := none }
        lcdBus := some (.byte rs (joinNibbles m n)) } := by
  simp [State.takeFrame, h, ho]

/-- A frame that is not lost is taken. -/
theorem State.latch_frame (s : State) (f : Frame) (h : s.drops.head? ≠ some true) :
    s.latch (.frame f) = State.takeFrame { s with drops := s.drops.tail } f := by
  simp only [State.latch]
  split
  · simp_all
  · rfl

/-! ### Latching touches the controller and the environment's choices alone -/

@[simp] theorem State.latch_cfg (s : State) (x : Observed) : (s.latch x).cfg = s.cfg := by
  simp only [State.latch]; repeat' split
  all_goals simp
@[simp] theorem State.latchIf_cfg (s : State) (x : Option Observed) : (s.latchIf x).cfg = s.cfg := by
  cases x <;> simp [State.latchIf]
@[simp] theorem State.drivePin_cfg (s : State) (p : Pin) (v : Bool) :
    (s.drivePin p v).cfg = s.cfg := by
  simp [State.drivePin]
@[simp] theorem State.latchByte_cfg (s : State) (v : Byte) : (s.latchByte v).cfg = s.cfg := by
  simp [State.latchByte]

@[simp] theorem State.latch_block (s : State) (x : Observed) : (s.latch x).block = s.block := by
  simp only [State.latch]; repeat' split
  all_goals simp
@[simp] theorem State.latchIf_block (s : State) (x : Option Observed) : (s.latchIf x).block = s.block := by
  cases x <;> simp [State.latchIf]
@[simp] theorem State.drivePin_block (s : State) (p : Pin) (v : Bool) :
    (s.drivePin p v).block = s.block := by
  simp [State.drivePin]
@[simp] theorem State.latchByte_block (s : State) (v : Byte) : (s.latchByte v).block = s.block := by
  simp [State.latchByte]

@[simp] theorem State.latch_text (s : State) (x : Observed) : (s.latch x).text = s.text := by
  simp only [State.latch]; repeat' split
  all_goals simp
@[simp] theorem State.latchIf_text (s : State) (x : Option Observed) : (s.latchIf x).text = s.text := by
  cases x <;> simp [State.latchIf]
@[simp] theorem State.drivePin_text (s : State) (p : Pin) (v : Bool) :
    (s.drivePin p v).text = s.text := by
  simp [State.drivePin]
@[simp] theorem State.latchByte_text (s : State) (v : Byte) : (s.latchByte v).text = s.text := by
  simp [State.latchByte]

@[simp] theorem State.latch_script (s : State) (x : Observed) : (s.latch x).script = s.script := by
  simp only [State.latch]; repeat' split
  all_goals simp
@[simp] theorem State.latchIf_script (s : State) (x : Option Observed) : (s.latchIf x).script = s.script := by
  cases x <;> simp [State.latchIf]
@[simp] theorem State.drivePin_script (s : State) (p : Pin) (v : Bool) :
    (s.drivePin p v).script = s.script := by
  simp [State.drivePin]
@[simp] theorem State.latchByte_script (s : State) (v : Byte) : (s.latchByte v).script = s.script := by
  simp [State.latchByte]

@[simp] theorem State.latch_pins (s : State) (x : Observed) : (s.latch x).pins = s.pins := by
  simp only [State.latch]; repeat' split
  all_goals simp
@[simp] theorem State.latchIf_pins (s : State) (x : Option Observed) : (s.latchIf x).pins = s.pins := by
  cases x <;> simp [State.latchIf]
@[simp] theorem State.drivePin_pins (s : State) (p : Pin) (v : Bool) :
    (s.drivePin p v).pins = s.pins.set p v := by
  simp [State.drivePin]
@[simp] theorem State.latchByte_pins (s : State) (v : Byte) : (s.latchByte v).pins = s.pins := by
  simp [State.latchByte]

@[simp] theorem State.latch_xp (s : State) (x : Observed) : (s.latch x).xp = s.xp := by
  simp only [State.latch]; repeat' split
  all_goals simp
@[simp] theorem State.latchIf_xp (s : State) (x : Option Observed) : (s.latchIf x).xp = s.xp := by
  cases x <;> simp [State.latchIf]
@[simp] theorem State.drivePin_xp (s : State) (p : Pin) (v : Bool) :
    (s.drivePin p v).xp = s.xp := by
  simp [State.drivePin]
@[simp] theorem State.latchByte_xp (s : State) (v : Byte) : (s.latchByte v).xp = .is v := by
  simp [State.latchByte]

@[simp] theorem State.latch_xpBus (s : State) (x : Observed) : (s.latch x).xpBus = s.xpBus := by
  simp only [State.latch]; repeat' split
  all_goals simp
@[simp] theorem State.latchIf_xpBus (s : State) (x : Option Observed) : (s.latchIf x).xpBus = s.xpBus := by
  cases x <;> simp [State.latchIf]
@[simp] theorem State.drivePin_xpBus (s : State) (p : Pin) (v : Bool) :
    (s.drivePin p v).xpBus = s.xpBus := by
  simp [State.drivePin]
@[simp] theorem State.latchByte_xpBus (s : State) (v : Byte) : (s.latchByte v).xpBus = s.xpBus := by
  simp [State.latchByte]

@[simp] theorem State.latch_initDone (s : State) (x : Observed) : (s.latch x).initDone = s.initDone := by
  simp only [State.latch]; repeat' split
  all_goals simp
@[simp] theorem State.latchIf_initDone (s : State) (x : Option Observed) : (s.latchIf x).initDone = s.initDone := by
  cases x <;> simp [State.latchIf]
@[simp] theorem State.drivePin_initDone (s : State) (p : Pin) (v : Bool) :
    (s.drivePin p v).initDone = s.initDone := by
  simp [State.drivePin]
@[simp] theorem State.latchByte_initDone (s : State) (v : Byte) : (s.latchByte v).initDone = s.initDone := by
  simp [State.latchByte]

@[simp] theorem State.latch_trace (s : State) (x : Observed) : (s.latch x).trace = s.trace := by
  simp only [State.latch]; repeat' split
  all_goals simp
@[simp] theorem State.latchIf_trace (s : State) (x : Option Observed) : (s.latchIf x).trace = s.trace := by
  cases x <;> simp [State.latchIf]
@[simp] theorem State.drivePin_trace (s : State) (p : Pin) (v : Bool) :
    (s.drivePin p v).trace = s.trace := by
  simp [State.drivePin]
@[simp] theorem State.latchByte_trace (s : State) (v : Byte) : (s.latchByte v).trace = s.trace := by
  simp [State.latchByte]

/-! ### What `emit` leaves alone -/

@[simp] theorem State.emit_cfg (s : State) (e : Event) : (s.emit e).cfg = s.cfg := by
  simp only [State.emit]; split <;> first | rfl | simp | (split <;> rfl)

@[simp] theorem State.emit_block (s : State) (e : Event) : (s.emit e).block = s.block := by
  simp only [State.emit]; split <;> first | rfl | simp | (split <;> rfl)

@[simp] theorem State.emit_text (s : State) (e : Event) : (s.emit e).text = s.text := by
  simp only [State.emit]; split <;> first | rfl | simp | (split <;> rfl)

@[simp] theorem State.emit_script (s : State) (e : Event) : (s.emit e).script = s.script := by
  simp only [State.emit]; split <;> first | rfl | simp | (split <;> rfl)

@[simp] theorem State.emit_xp (s : State) (e : Event) : (s.emit e).xp = s.xp := by
  simp only [State.emit]; split <;> first | rfl | simp | (split <;> rfl)

@[simp] theorem State.emit_initDone (s : State) (e : Event) : (s.emit e).initDone = s.initDone := by
  simp only [State.emit]; split <;> first | rfl | simp | (split <;> rfl)

@[simp] theorem State.emit_trace (s : State) (e : Event) : (s.emit e).trace = s.trace ++ [e] := by
  simp only [State.emit]; split <;> first | rfl | simp | (split <;> rfl)

/-- A delay or a text read changes nothing but the trace. -/
@[simp] theorem State.emit_delay (s : State) (t : Nat) : s.emit (.delay t) = { s with trace := s.trace ++ [.delay t] } := rfl
@[simp] theorem State.emit_textRead (s : State) (a : TextAddr) (v : Byte) :
    s.emit (.textRead a v) = { s with trace := s.trace ++ [.textRead a v] } := rfl
/-- A byte for the expander waits on the bus and changes nothing else but the trace. -/
theorem State.emit_i2cWrite (s : State) (v : Byte) :
    s.emit (.i2cWrite s.cfg.i2cAddr v) =
      { s with trace := s.trace ++ [.i2cWrite s.cfg.i2cAddr v], xpBus := some v } := by
  simp [State.emit]
theorem State.emit_pin (s : State) (p : Pin) (v : Bool) :
    s.emit (.pin p v) = State.drivePin { s with trace := s.trace ++ [Event.pin p v] } p v := rfl

/-- `issue` at a position: the event there, and what comes after it. -/
theorem State.issue_of_get (s : State) (evs : List Event) (e : Event) (h : evs[s.block.pos]? = some e) :
    s.issue evs =
      if s.block.pos + 1 < evs.length then (s.emit e).setPos (s.block.pos + 1) else (s.emit e).idle := by
  simp [State.issue, h]

/-- `issue` with no event left: idle at once. -/
theorem State.issue_of_end (s : State) (evs : List Event) (h : evs[s.block.pos]? = none) : s.issue evs = s.idle := by
  simp [State.issue, h]

/-- Every way `issue` can go. -/
theorem State.issue_cases (s : State) (evs : List Event) :
    (evs.length ≤ s.block.pos ∧ s.issue evs = s.idle) ∨
      (∃ e ∈ evs, s.block.pos + 1 < evs.length ∧ evs[s.block.pos]? = some e ∧
        s.issue evs = (s.emit e).setPos (s.block.pos + 1)) ∨
      (∃ e ∈ evs, s.block.pos + 1 = evs.length ∧ evs[s.block.pos]? = some e ∧ s.issue evs = (s.emit e).idle) := by
  cases h : evs[s.block.pos]? with
  | none => exact .inl ⟨List.getElem?_eq_none_iff.mp h, s.issue_of_end evs h⟩
  | some e =>
    have hm : e ∈ evs := List.mem_of_getElem? h
    have hl : s.block.pos < evs.length := by
      obtain ⟨hl, -⟩ := List.getElem?_eq_some_iff.mp h
      exact hl
    by_cases hn : s.block.pos + 1 < evs.length
    · exact .inr (.inl ⟨e, hm, hn, rfl, by rw [s.issue_of_get evs e h, if_pos hn]⟩)
    · exact .inr (.inr ⟨e, hm, by omega, rfl, by rw [s.issue_of_get evs e h, if_neg hn]⟩)

/-- A transfer in or out of 4-bit mode touches the controller alone. -/
theorem State.inFourBit_eq (s : State) (f : Lcd → Lcd) :
    s.inFourBit f = { s with lcd := if s.lcd.iface = .fourBit then f s.lcd else s.lcd.forget } := by
  simp only [State.inFourBit]; split <;> rfl

/-! ### The lines and the controller do not look at the block -/

theorem State.takeFrame_withBlock (s : State) (f : Frame) (b : Block) :
    State.takeFrame { s with block := b } f = { s.takeFrame f with block := b } := by
  simp only [State.takeFrame]
  (repeat' split) <;> rfl

theorem State.latch_withBlock (s : State) (o : Observed) (b : Block) :
    State.latch { s with block := b } o = { s.latch o with block := b } := by
  simp only [State.latch]
  split
  · rfl
  · split
    · exact State.takeFrame_withBlock { s with drops := s.drops.tail } _ b
    · rfl
    · rfl

/-- What an event does outside the block does not depend on the block. -/
theorem State.emit_withBlock (s : State) (e : Event) (b : Block) :
    State.emit { s with block := b } e = { s.emit e with block := b } := by
  cases e with
  | pin p v =>
    simp only [State.emit_pin, State.drivePin]
    cases s.pins.observe p v with
    | none => rfl
    | some o =>
      exact State.latch_withBlock { s with trace := s.trace ++ [Event.pin p v], pins := s.pins.set p v } _ b
  | i2cWrite a v =>
    simp only [State.emit]
    split <;> rfl
  | delay t => rfl
  | textRead a v => rfl

end Sys2Proof.Machine
end

