-- ==== Sys2Proof/Laws/Panel.lean ====
section
/-! SUPPORT. The rows in numbers, and the window: what it shows at an offset, and how a step moves it. -/

namespace Sys2Proof.Machine

theorem inRow_iff (a : DdramAddr) : inRow a = true ↔ a.toNat < 40 ∨ 64 ≤ a.toNat ∧ a.toNat < 104 := by
  simp [inRow, ofRow, rowBase, rowLength]

@[simp] theorem Lcd.shownAddress_of_anyValue (l : Lcd) (row : Fin panelRows) (col : Fin visibleColumns)
    (h : l.shift = .anyValue) : l.shownAddress row col = .anyValue := by
  simp [Lcd.shownAddress, h]

/-- The window at a known offset. -/
theorem Lcd.shownAddress_of_shift (l : Lcd) (k : Int) (row : Fin panelRows) (col : Fin visibleColumns) (h : l.shift = .is k) :
    l.shownAddress row col =
      if 0 ≤ col.val - k ∧ col.val - k < rowLength then .is (BitVec.ofNat 7 (rowBase row + (col.val - k).toNat))
      else .anyValue := by
  simp [Lcd.shownAddress, h]

/-- Two views with one offset show the same addresses. -/
theorem Lcd.shownAddress_congr {l m : Lcd} (h : l.shift = m.shift) : l.shownAddress = m.shownAddress := by
  funext row col
  simp [Lcd.shownAddress, h]

/-- An address the window shows lies in its row. -/
theorem Lcd.shownAddress_ofRow (l : Lcd) (row : Fin panelRows) (col : Fin visibleColumns) (a : DdramAddr)
    (h : l.shownAddress row col = .is a) : ofRow row a = true := by
  simp only [Lcd.shownAddress] at h
  split at h
  · cases h
  · split at h
    · rename_i k _ hk
      cases h
      have hr := row.isLt
      simp only [rowLength, panelRows] at hk hr
      have : (col.val - k).toNat < 40 := by omega
      simp only [ofRow, rowBase, rowLength, Bool.and_eq_true, decide_eq_true_eq, BitVec.toNat_ofNat]
      omega
    · cases h

end Sys2Proof.Machine
end

