-- ==== Sys2Proof/Laws/PerInstr.lean ====
section
/-! SUPPORT. Per instruction: the family InTable says that an instruction's coded form lies in its own row of the opcode
table, whatever its operands (R89). -/

namespace Sys2Proof.Laws.InTable

/-- The row with the instruction's mnemonic selects its coded form. -/
def Statement (i : Instr) : Prop := ∃ r ∈ tableRows, r.mnemonic = i.mnemonic ∧ r.selects (encode i) = true

theorem init : Statement .init := by unfold Statement; decide
theorem clear : Statement .clear := by unfold Statement; decide
theorem goto (row col : Byte) : Statement (.goto row col) := by
  refine ⟨tableRows[2], by decide, rfl, ?_⟩
  exact Bool.and_eq_true_iff.mpr ⟨rfl, decide_eq_true (opWord_and_high 3 (gotoArg row col))⟩
theorem dispctl (d c b : Bool) : Statement (.dispctl d c b) := by unfold Statement; revert d c b; decide
theorem print (ta : TextAddr) : Statement (.print ta) := by
  refine ⟨tableRows[4], by decide, rfl, ?_⟩
  exact Bool.and_eq_true_iff.mpr ⟨rfl, decide_eq_true (opWord_and_high 5 ta)⟩
theorem shift (dir : Bool) : Statement (.shift dir) := by unfold Statement; revert dir; decide
theorem backlight (s : Bool) : Statement (.backlight s) := by unfold Statement; revert s; decide
theorem lcdClear : Statement .lcdClear := by unfold Statement; decide
theorem lcdEntryMode : Statement .lcdEntryMode := by unfold Statement; decide
theorem lcdDisplayControl (d c b : Bool) : Statement (.lcdDisplayControl d c b) := by
  unfold Statement; revert d c b; decide
theorem lcdShiftDisplay (r : Bool) : Statement (.lcdShiftDisplay r) := by unfold Statement; revert r; decide
theorem lcdFunctionSet : Statement .lcdFunctionSet := by unfold Statement; decide
theorem lcdSetDdramAddress (a : DdramAddr) : Statement (.lcdSetDdramAddress a) := by
  refine ⟨tableRows[12], by decide, rfl, ?_⟩
  revert a; decide
theorem lcdData (ch : Byte) : Statement (.lcdData ch) := by
  refine ⟨tableRows[13], by decide, rfl, ?_⟩
  revert ch; decide
theorem nibWake : Statement .nibWake := by unfold Statement; decide
theorem nibMode4 : Statement .nibMode4 := by unfold Statement; decide
theorem xpByte (n : Nibble) (b e r : Bool) : Statement (.xpByte n b e r) := by
  refine ⟨tableRows[16], by decide, rfl, ?_⟩
  revert n b e r; decide

end Sys2Proof.Laws.InTable
end

