-- ==== Sys2Proof/Laws/Step.lean ====
section
/-! SUPPORT. What a turn does, agent by agent, and how turns add up: the controller's turn, the expander's, acceptance, the
busy block's, and the turns in which the buses drain. -/

namespace Sys2Proof.Machine

/-! ### Steps add up -/

theorem steps_add (m n : Nat) (s t : State) (h : steps m s = .next t) : steps (m + n) s = steps n t := by
  induction m generalizing s with
  | zero => cases h; simp
  | succ m ih =>
    rw [show m + 1 + n = (m + n) + 1 by omega]
    simp only [steps] at h ⊢
    split at h
    · rename_i u hu
      exact ih u h
    · cases h
    · cases h

theorem steps_one (s t : State) (h : step s = .next t) : steps 1 s = .next t := by simp [steps, h]

/-! ### What one state has in common with another, the lines, the controller and the buses apart -/

/-- The block's side is the same in two states. -/
structure Same (s t : State) : Prop where
  cfg : t.cfg = s.cfg
  block : t.block = s.block
  text : t.text = s.text
  script : t.script = s.script
  initDone : t.initDone = s.initDone
  trace : t.trace = s.trace

theorem Same.refl (s : State) : Same s s := ⟨rfl, rfl, rfl, rfl, rfl, rfl⟩
theorem Same.trans {s t u : State} (h : Same s t) (k : Same t u) : Same s u :=
  ⟨k.1.trans h.1, k.2.trans h.2, k.3.trans h.3, k.4.trans h.4, k.5.trans h.5, k.6.trans h.6⟩

/-! ### The controller's turn -/

/-- What an instruction of the controller makes of its view. -/
def lcdEffect (l : Lcd) : Instr → Lcd
  | .lcdClear => if l.iface = .fourBit then l.clear else l.forget
  | .lcdEntryMode => if l.iface = .fourBit then l.setEntry else l.forget
  | .lcdDisplayControl d c b => if l.iface = .fourBit then l.setFlags d c b else l.forget
  | .lcdShiftDisplay r => if l.iface = .fourBit then l.moveWindow r else l.forget
  | .lcdFunctionSet => if l.iface = .fourBit then l.setFunction else l.forget
  | .lcdSetDdramAddress a => if l.iface = .fourBit then l.setAddress a else l.forget
  | .lcdData ch => if l.iface = .fourBit then l.store ch else l.forget
  | .nibWake => { Lcd.unknown with wakes := l.oneMoreWake }
  | .nibMode4 => { Lcd.unknown with iface := if l.wakes = 3 then .fourBit else .undefined8 }
  | .init => l
  | .clear => l
  | .goto _ _ => l
  | .dispctl _ _ _ => l
  | .print _ => l
  | .shift _ => l
  | .backlight _ => l
  | .xpByte _ _ _ _ => l

theorem decodeNibble_cases {rs : Bool} {n : Nibble} {i : Instr} (h : decodeNibble rs n = .ok i) :
    i = .nibWake ∨ i = .nibMode4 := by
  simp only [decodeNibble] at h
  repeat' split at h
  all_goals cases h
  all_goals simp

/-- Which instructions a transfer can decode to. -/
theorem decode_lcd_cases {x : Transfer} {i : Instr} (h : decode (.lcd x) = .ok i) :
    i = .nibWake ∨ i = .nibMode4 ∨ i = .lcdClear ∨ i = .lcdEntryMode ∨ (∃ d c b, i = .lcdDisplayControl d c b) ∨
      (∃ r, i = .lcdShiftDisplay r) ∨ i = .lcdFunctionSet ∨ (∃ a, i = .lcdSetDdramAddress a) ∨ ∃ ch, i = .lcdData ch := by
  cases x with
  | nibble rs n => rcases decodeNibble_cases h with rfl | rfl <;> simp
  | byte rs b =>
    simp only [decode, decodeByte, decodeCommand] at h
    repeat' split at h
    all_goals cases h
    all_goals simp

/-- A transfer's instruction changes the controller's view and nothing else. -/
theorem exec_of_decode_lcd {x : Transfer} {i : Instr} (h : decode (.lcd x) = .ok i) (s : State) :
    exec i s = .next { s with lcd := lcdEffect s.lcd i } := by
  rcases decode_lcd_cases h with
    rfl | rfl | rfl | rfl | ⟨d, c, b, rfl⟩ | ⟨r, rfl⟩ | rfl | ⟨a, rfl⟩ | ⟨ch, rfl⟩ <;>
    simp only [exec, execNibWake, execNibMode4, execLcdClear, execLcdEntryMode, execLcdDisplayControl, execLcdShiftDisplay,
      execLcdFunctionSet, execLcdSetDdramAddress, execLcdData, State.inFourBit_eq, lcdEffect]

/-- What a transfer makes of the controller's view. -/
def Lcd.act (l : Lcd) (x : Transfer) : Lcd :=
  match decode (.lcd x) with
  | .ok i => lcdEffect l i
  | .error _ => l.undefinedTransfer x

/-- With a transfer waiting, the step is the controller's, and it always goes on. -/
theorem step_of_lcdBus (s : State) (x : Transfer) (hb : s.cfg.inBounds = true) (h : s.lcdBus = some x) :
    step s = .next { s with lcdBus := none, lcd := s.lcd.act x } := by
  simp only [step, hb, if_true, State.turn, h, State.controllerTurn, Lcd.act]
  cases hd : decode (.lcd x) with
  | ok i => exact exec_of_decode_lcd hd _
  | error e => rfl

/-! ### The expander's turn -/

/-- With a byte the block writes waiting, the step is the expander's. -/
theorem step_of_xpBus (s : State) (v : Byte) (hb : s.cfg.inBounds = true) (hq : s.lcdBus = none)
    (h : s.xpBus = some v) (ht : s.cfg.transport = .expander) (h1 : v.getLsbD 1 = false) :
    step s = .next (State.latchByte { s with xpBus := none } v) := by
  have hd : decode (.xp v) = .ok (.xpByte (v.extractLsb' 4 4) (v.getLsbD 3) (v.getLsbD 2) (v.getLsbD 0)) := by
    simp only [decode, decodeExpander, h1]
    rfl
  simp only [step, hb, if_true, State.turn, hq, h, State.expanderTurn, hd]
  simp only [exec, execXpByte, ht]
  rw [expanderByte_fields v h1]

/-! ### The buses drain -/

/-- A transfer waiting at the controller is gone after at most one step. -/
theorem drain_lcdBus (s : State) (hb : s.cfg.inBounds = true) (hx : s.xpBus = none) :
    ∃ n t, steps n s = .next t ∧ t.quiet ∧ Same s t := by
  cases h : s.lcdBus with
  | none => exact ⟨0, s, rfl, ⟨h, hx⟩, Same.refl s⟩
  | some x =>
    exact ⟨1, _, steps_one _ _ (step_of_lcdBus s x hb h), ⟨rfl, hx⟩, ⟨rfl, rfl, rfl, rfl, rfl, rfl⟩⟩

/-- Whatever the block has issued completes in finitely many steps, the block's side unchanged. -/
theorem drain (s : State) (hb : s.cfg.inBounds = true)
    (hx : ∀ v, s.xpBus = some v → s.cfg.transport = .expander ∧ v.getLsbD 1 = false) :
    ∃ n t, steps n s = .next t ∧ t.quiet ∧ Same s t := by
  have first : ∃ n t, steps n s = .next t ∧ t.lcdBus = none ∧ t.xpBus = s.xpBus ∧ Same s t := by
    cases h : s.lcdBus with
    | none => exact ⟨0, s, rfl, h, rfl, Same.refl s⟩
    | some x =>
      exact ⟨1, _, steps_one _ _ (step_of_lcdBus s x hb h), rfl, rfl, ⟨rfl, rfl, rfl, rfl, rfl, rfl⟩⟩
  obtain ⟨n, t, hn, hl, hxb, hs⟩ := first
  cases h : t.xpBus with
  | none => exact ⟨n, t, hn, ⟨hl, h⟩, hs⟩
  | some v =>
    have hv := hx v (hxb ▸ h)
    have h2 := step_of_xpBus t v (by rw [hs.cfg]; exact hb) hl h (by rw [hs.cfg]; exact hv.1) hv.2
    obtain ⟨k, u, hk, hq, hsu⟩ :=
      drain_lcdBus (State.latchByte { t with xpBus := none } v) (by simp [hs.cfg, hb]) (by simp)
    refine ⟨n + (1 + k), u, ?_, hq, hs.trans (Same.trans ?_ hsu)⟩
    · rw [steps_add n _ _ _ hn, steps_add 1 _ _ _ (steps_one _ _ h2)]
      exact hk
    · exact ⟨by simp, by simp, by simp, by simp, by simp, by simp⟩

/-- What an event of the block leaves on the expander's bus is a byte the block writes. -/
theorem emit_xpBus (s : State) (e : Event) (bl : Bool) (he : Emitted s.cfg bl e) (hq : s.xpBus = none) :
    ∀ v, (s.emit e).xpBus = some v → s.cfg.transport = .expander ∧ v.getLsbD 1 = false := by
  intro v hv
  cases e with
  | pin p x => simp [State.emit, hq] at hv
  | i2cWrite a x =>
    obtain ⟨ht, rfl, h1, -⟩ := he
    rw [State.emit_i2cWrite] at hv
    simp at hv
    subst hv
    exact ⟨ht, h1⟩
  | delay t => simp [hq] at hv
  | textRead a x => simp [hq] at hv

/-! ### The block's turn -/

/-- A busy block with quiet buses and only words offered runs the word it holds. -/
theorem step_of_busy (s : State) (i : Instr) (hb : s.cfg.inBounds = true) (hq : s.quiet) (hr : s.block.run = true)
    (ho : onlyOffers s.script) (hd : decode (.op s.block.opl) = .ok i) : step s = exec i s := by
  simp only [step, hb, if_true, State.turn, hq.1, hq.2, State.hostTurn]
  have : s.blockTurn = exec i s := by simp [State.blockTurn, hr, hd]
  split
  · exact this
  · rw [if_pos hr]
    exact this
  all_goals
    rename_i h
    rw [h] at ho
    obtain ⟨w, hw⟩ := ho _ List.mem_cons_self
    cases hw

/-- A ready block accepts the word offered and executes it at once. -/
theorem step_of_offer (s : State) (i : Instr) (w : OpWord) (rest : List HostAct) (hb : s.cfg.inBounds = true)
    (hq : s.ready) (hs : s.script = .offer w :: rest) (hd : decode (.op w) = .ok i) :
    step s = exec i ({ s with script := rest }.accept w i) := by
  simp only [step, hb, if_true, State.turn, hq.1.1, hq.1.2, State.hostTurn, hs, hq.2]
  simp [State.acceptTurn, hd]

theorem blAfter_idem (bl : Bool) (i : Instr) : blAfter (blAfter bl i) i = blAfter bl i := by cases i <;> rfl
theorem expansion_blAfter (c : Config) (bl : Bool) (i : Instr) : expansion c (blAfter bl i) i = expansion c bl i := by
  cases i <;> rfl

/-- A turn of an operation other than PRINT writes `BL` as the operation does and issues the next event of its expansion;
INIT's ghost flag is set when it becomes idle. -/
theorem exec_of_operation (i : Instr) (s : State) (hi : i.isOperation = true) (hp : i.isPrint = false)
    (hw : i.wf s.cfg.transport = true) (h0 : s.block.pos = 0 ∨ s.block.bl = blAfter s.block.bl i) :
    ∃ d, exec i s =
        .next { (s.setBl (blAfter s.block.bl i)).issue (expansion s.cfg s.block.bl i) with initDone := d } ∧
      (i = .init →
        ((s.setBl (blAfter s.block.bl i)).issue (expansion s.cfg s.block.bl i)).block.run = false → d = true) := by
  have hid : ∀ s : State, s.setBl s.block.bl = s := fun s => rfl
  cases i <;> simp only [Instr.isOperation, Instr.isPrint, Bool.false_eq_true, reduceCtorEq] at hi hp
  case init =>
    simp only [blAfter, hid, expansion, exec, execInit]
    exact ⟨_, rfl, fun _ h => by simp [h]⟩
  case clear => simp only [blAfter, hid, expansion, exec, execClear]; exact ⟨_, rfl, by simp⟩
  case goto => simp only [blAfter, hid, expansion, exec, execGoto]; exact ⟨_, rfl, by simp⟩
  case dispctl => simp only [blAfter, hid, expansion, exec, execDispctl]; exact ⟨_, rfl, by simp⟩
  case shift => simp only [blAfter, hid, expansion, exec, execShift]; exact ⟨_, rfl, by simp⟩
  case backlight v =>
    have ht : s.cfg.transport = .expander := by simpa [Instr.wf] using hw
    simp only [blAfter, expansion, exec, execBacklight, ht]
    refine ⟨((s.setBl v).issue (backlightEvents s.cfg v)).initDone, ?_, by simp⟩
    have : (if s.block.pos = 0 then s.setBl v else s) = s.setBl v := by
      split
      · rfl
      · rcases h0 with h0 | h0
        · contradiction
        · simp only [blAfter] at h0
          rw [← h0]
          rfl
    rw [this]
    rfl

/-- Everything a turn of an operation can do. PRINT reads or sends; any other one issues the next event of a list of the
expansion's length, in which every event is of the transport's shape. Only BACKLIGHT writes `BL`, at its first event. -/
theorem exec_op_cases {i : Instr} {s t : State} (hi : i.isOperation = true) (h : exec i s = .next t) :
    (i.isPrint = true ∧ (s.block.pos = 0 ∧ t = s.printRead ∨ s.block.pos ≠ 0 ∧ t = s.printData)) ∨
      (i.isPrint = false ∧ i.wf s.cfg.transport = true ∧ ∃ b d evs,
        t = { (s.setBl b).issue evs with initDone := d } ∧
        (b = s.block.bl ∨ i = .backlight b ∧ s.block.pos = 0 ∧ evs = backlightEvents s.cfg b) ∧ (i ≠ .init → d = s.initDone) ∧
        evs.length = (expansion s.cfg b i).length ∧ ∀ e ∈ evs, Emitted s.cfg b e) := by
  have hid : ∀ s : State, s.setBl s.block.bl = s := fun s => rfl
  have hdone : ∀ (s : State) (evs : List Event), (s.issue evs).initDone = s.initDone := by
    intro s evs
    rcases s.issue_cases evs with ⟨-, e⟩ | ⟨e, -, -, -, h⟩ | ⟨e, -, -, -, h⟩ <;> simp [*]
  cases i <;> simp only [Instr.isOperation, Bool.false_eq_true] at hi
  case print ta =>
    refine .inl ⟨rfl, ?_⟩
    simp only [exec, execPrint, Host.Outcome.next.injEq] at h
    split at h
    · exact .inl ⟨by assumption, h.symm⟩
    · exact .inr ⟨by assumption, h.symm⟩
  case init =>
    simp only [exec, execInit, Host.Outcome.next.injEq] at h
    exact .inr ⟨rfl, rfl, s.block.bl, _, _, h.symm, .inl rfl, fun k => absurd rfl k, rfl, fun e he => emitted_of_init he⟩
  case clear =>
    simp only [exec, execClear, Host.Outcome.next.injEq] at h
    exact .inr ⟨rfl, rfl, s.block.bl, _, _, h.symm, .inl rfl, fun _ => hdone _ _, rfl, fun e he => emitted_of_cmd he⟩
  case goto =>
    simp only [exec, execGoto, Host.Outcome.next.injEq] at h
    exact .inr ⟨rfl, rfl, s.block.bl, _, _, h.symm, .inl rfl, fun _ => hdone _ _, rfl, fun e he => emitted_of_goto he⟩
  case dispctl =>
    simp only [exec, execDispctl, Host.Outcome.next.injEq] at h
    exact .inr ⟨rfl, rfl, s.block.bl, _, _, h.symm, .inl rfl, fun _ => hdone _ _, rfl, fun e he => emitted_of_cmd he⟩
  case shift =>
    simp only [exec, execShift, Host.Outcome.next.injEq] at h
    exact .inr ⟨rfl, rfl, s.block.bl, _, _, h.symm, .inl rfl, fun _ => hdone _ _, rfl, fun e he => emitted_of_cmd he⟩
  case backlight v =>
    cases ht : s.cfg.transport with
    | parallel => simp [exec, execBacklight, ht] at h
    | expander =>
      simp only [exec, execBacklight, ht, Host.Outcome.next.injEq] at h
      by_cases hp : s.block.pos = 0
      · simp only [hp, if_true] at h
        exact .inr ⟨rfl, by simp [Instr.wf], v, _, _, h.symm, .inr ⟨rfl, hp, rfl⟩, fun _ => hdone _ _, rfl,
          fun e he => emitted_of_backlight ht he⟩
      · simp only [hp, if_false] at h
        refine .inr ⟨rfl, by simp [Instr.wf], s.block.bl, _, _, h.symm, .inl rfl, fun _ => hdone _ _, ?_,
          fun e he => emitted_of_backlight ht he⟩
        simp [expansion, backlightEvents]

theorem decode_op_isOperation {w : OpWord} {i : Instr} (h : decode (.op w) = .ok i) : i.isOperation = true := by
  simp only [decode, decodeOp, decodeOperands] at h
  repeat' split at h
  all_goals cases h
  all_goals rfl

/-- Which steps go on, and how: the controller's, the expander's, an idle one, the block's, and each of the host's acts. -/
theorem step_cases {s t : State} (h : step s = .next t) :
    s.cfg.inBounds = true ∧
    ((∃ x, s.lcdBus = some x ∧ t = { s with lcdBus := none, lcd := s.lcd.act x }) ∨
      (∃ v, s.lcdBus = none ∧ s.xpBus = some v ∧ s.cfg.transport = .expander ∧ v.getLsbD 1 = false ∧
        t = State.latchByte { s with xpBus := none } v) ∨
      (s.quiet ∧ s.block.run = false ∧
        (s.script = [] ∧ t = s ∨ ∃ n rest, s.script = .letRun (n + 1) :: rest ∧ t = { s with script := .letRun n :: rest })) ∨
      (s.quiet ∧ s.block.run = true ∧ ∃ i script, decode (.op s.block.opl) = .ok i ∧ i.isOperation = true ∧
        exec i { s with script := script } = .next t ∧
        (script = s.script ∧ (s.script = [] ∨ ∃ w rest, s.script = .offer w :: rest) ∨
          ∃ n rest, s.script = .letRun (n + 1) :: rest ∧ script = .letRun n :: rest)) ∨
      (s.ready ∧ ∃ w rest i, s.script = .offer w :: rest ∧ decode (.op w) = .ok i ∧ i.isOperation = true ∧
        exec i ({ s with script := rest }.accept w i) = .next t) ∨
      (s.quiet ∧ ∃ a v rest, s.script = .write a v :: rest ∧ t = { s with script := rest }.writeText a v) ∨
      (s.quiet ∧ ∃ rest, s.script = .letRun 0 :: rest ∧ t = { s with script := rest }) ∨
      (s.quiet ∧ ∃ rest, s.script = .reset :: rest ∧ t = { s with script := rest }.applyReset)) := by
  have hb : s.cfg.inBounds = true := by
    cases hb : s.cfg.inBounds with
    | true => rfl
    | false => simp [step, hb] at h
  refine ⟨hb, ?_⟩
  obtain hl | ⟨x, hl⟩ : s.lcdBus = none ∨ ∃ x, s.lcdBus = some x := by cases s.lcdBus <;> simp
  case inr =>
    rw [step_of_lcdBus s x hb hl] at h
    cases h
    exact .inl ⟨x, hl, rfl⟩
  case inl =>
    obtain hx | ⟨v, hx⟩ : s.xpBus = none ∨ ∃ v, s.xpBus = some v := by cases s.xpBus <;> simp
    case inr =>
      refine .inr (.inl ⟨v, hl, hx, ?_⟩)
      cases h1 : v.getLsbD 1 with
      | true => simp [step, hb, State.turn, hl, hx, State.expanderTurn, decode, decodeExpander, h1, -BitVec.getLsbD_eq_getElem] at h
      | false =>
        cases ht : s.cfg.transport with
        | parallel =>
          simp [step, hb, State.turn, hl, hx, State.expanderTurn, decode, decodeExpander, h1, exec, execXpByte, ht,
            -BitVec.getLsbD_eq_getElem] at h
        | expander =>
          rw [step_of_xpBus s v hb hl hx ht h1] at h
          cases h
          exact ⟨rfl, rfl, rfl⟩
    case inl =>
      have hq : s.quiet := ⟨hl, hx⟩
      refine .inr (.inr ?_)
      simp only [step, hb, if_true, State.turn, hl, hx] at h
      have busy : ∀ script, State.blockTurn { s with script := script } = .next t →
          (s.block.run = false ∧ t = { s with script := script }) ∨
          (s.block.run = true ∧ ∃ i, decode (.op s.block.opl) = .ok i ∧ i.isOperation = true ∧
            exec i { s with script := script } = .next t) := by
        intro script hs
        simp only [State.blockTurn] at hs
        split at hs
        · rename_i hr
          split at hs
          · rename_i i hd
            exact .inr ⟨hr, i, hd, decode_op_isOperation hd, hs⟩
          · cases hs
        · rename_i hr
          cases hs
          exact .inl ⟨by simpa using hr, rfl⟩
      simp only [State.hostTurn] at h
      split at h
      · rename_i hs
        rcases busy s.script h with ⟨hr, ht⟩ | ⟨hr, i, hd, hi, he⟩
        · exact .inl ⟨hq, hr, .inl ⟨hs, ht⟩⟩
        · exact .inr (.inl ⟨hq, hr, i, _, hd, hi, he, .inl ⟨rfl, .inl hs⟩⟩)
      · rename_i w rest hs
        split at h
        · rcases busy s.script h with ⟨hr, ht⟩ | ⟨hr, i, hd, hi, he⟩
          · simp_all
          · exact .inr (.inl ⟨hq, hr, i, _, hd, hi, he, .inl ⟨rfl, .inr ⟨w, rest, hs⟩⟩⟩)
        · rename_i hr
          simp only [State.acceptTurn] at h
          split at h
          · rename_i i hd
            exact .inr (.inr (.inl ⟨⟨hq, by simpa using hr⟩, w, rest, i, hs, hd, decode_op_isOperation hd, h⟩))
          · cases h
      · rename_i a v rest hs
        cases h
        exact .inr (.inr (.inr (.inl ⟨hq, a, v, rest, hs, rfl⟩)))
      · rename_i rest hs
        cases h
        exact .inr (.inr (.inr (.inr (.inl ⟨hq, rest, hs, rfl⟩))))
      · rename_i n rest hs
        rcases busy _ h with ⟨hr, ht⟩ | ⟨hr, i, hd, hi, he⟩
        · exact .inl ⟨hq, hr, .inr ⟨n, rest, hs, ht⟩⟩
        · exact .inr (.inl ⟨hq, hr, i, _, hd, hi, he, .inr ⟨n, rest, hs, rfl⟩⟩)
      · rename_i rest hs
        cases h
        exact .inr (.inr (.inr (.inr (.inr ⟨hq, rest, hs, rfl⟩))))

end Sys2Proof.Machine
end

