-- ==== Sys2Proof/Tests/Slice0.lean ====
section
/-! SUPPORT. Tests: the checks of WellFormed on ill-formed terms, words written out bit by bit from the spec's encodings, one
step of each instruction against spec/95_test_vectors.md and the rules, and a witness for the hypotheses of every statement
that has some. -/

open Sys2Proof Sys2Proof.Machine

namespace Sys2Proof.Tests

/-! ### States -/

/-- The default configuration under PARALLEL. -/
def parallelCfg : Config := { Config.default with transport := .parallel }
/-- Right after reset, EXPANDER, one word offered. -/
def offering (w : OpWord) : State := { State.reset with script := [.offer w] }
/-- Right after reset, PARALLEL, one word offered. -/
def offeringPar (w : OpWord) : State := { State.resetWith parallelCfg with script := [.offer w] }
/-- A busy block that holds a word at a position. -/
def busy (c : Config) (w : OpWord) (pos : Nat) : State :=
  { State.resetWith c with block := { Block.reset with run := true, opl := w, pos := pos } }
/-- The controller after INIT, nothing waiting. -/
def initialized : State := { State.reset with lcd := Lcd.afterInit }
/-- The controller after INIT with an address counter. -/
def atCounter (a : DdramAddr) : State := { State.reset with lcd := { Lcd.afterInit with ac := .is a } }

/-- What holds of the next state, false when there is none. -/
def after (o : Host.Outcome State Fault Refusal) (f : State → Bool) : Bool :=
  match o with
  | .next t => f t
  | .fault _ => false
  | .refused _ => false
/-- The trace is this one. -/
def traces (es : List Event) (t : State) : Bool := decide (t.trace = es)
/-- The controller's view is this one. -/
def shows (l : Lcd) (t : State) : Bool := decide (t.lcd = l)
/-- The outcome is this refusal. -/
def refuses (o : Host.Outcome State Fault Refusal) (r : Refusal) : Bool :=
  match o with
  | .refused q => decide (q = r)
  | .next _ => false
  | .fault _ => false

/-! ### WellFormed refuses ill-formed terms (R9, R74, R84, R107) -/

theorem test_wf_backlight_needs_expander : (Instr.backlight true).wf .parallel = false := by decide
theorem test_wf_xpByte_needs_expander : (Instr.xpByte 3 true true false).wf .parallel = false := by decide
theorem test_wf_data_is_not_the_terminator : (Instr.lcdData 0x00).wf .expander = false := by decide
theorem test_wf_accepts_backlight : (Instr.backlight true).wf .expander = true := by decide
theorem test_wf_accepts_any_row : (Instr.goto 0 0).wf .parallel = true := by decide
theorem test_bounds_default : Config.default.inBounds = true := by decide
theorem test_bounds_tPwr : { Config.default with tPwr := 14999 }.inBounds = false := by decide
theorem test_bounds_tInit1 : { Config.default with tInit1 := 4099 }.inBounds = false := by decide
theorem test_bounds_tInit2 : { Config.default with tInit2 := 99 }.inBounds = false := by decide
theorem test_bounds_tCmd : { Config.default with tCmd := 39 }.inBounds = false := by decide
theorem test_bounds_tClr : { Config.default with tClr := 1599 }.inBounds = false := by decide
theorem test_bounds_tEn : { Config.default with tEn := 0 }.inBounds = false := by decide
theorem test_bounds_tXp : { Config.default with tXp := 0 }.inBounds = false := by decide

/-! ### Words written out bit by bit decode (R70 to R72, R77 to R84) -/

theorem test_decode_init : decode (.op 0b0001_000000000000_0000000000000000) = .ok .init := by decide
theorem test_decode_clear : decode (.op 0b0010_000000000000_0000000000000000) = .ok .clear := by decide
theorem test_decode_goto : decode (.op 0b0011_000000000000_00000010_00010000) = .ok (.goto 2 16) := by decide
theorem test_decode_dispctl : decode (.op 0b0100_000000000000_0000000000000_1_0_1) = .ok (.dispctl true false true) := by decide
theorem test_decode_print : decode (.op 0b0101_000000000000_1111111111111111) = .ok (.print 0xFFFF) := by decide
theorem test_decode_shift : decode (.op 0b0110_000000000000_000000000000000_0) = .ok (.shift false) := by decide
theorem test_decode_backlight : decode (.op 0b0111_000000000000_000000000000000_1) = .ok (.backlight true) := by decide
theorem test_decode_lcdClear : decode (.lcd (.byte false 0b0000_0001)) = .ok .lcdClear := by decide
theorem test_decode_lcdEntryMode : decode (.lcd (.byte false 0b0000_0110)) = .ok .lcdEntryMode := by decide
theorem test_decode_lcdDisplayControl :
    decode (.lcd (.byte false 0b00001_1_1_0)) = .ok (.lcdDisplayControl true true false) := by decide
theorem test_decode_lcdShiftDisplay : decode (.lcd (.byte false 0b00011_0_00)) = .ok (.lcdShiftDisplay false) := by decide
theorem test_decode_lcdFunctionSet : decode (.lcd (.byte false 0b0010_1000)) = .ok .lcdFunctionSet := by decide
theorem test_decode_lcdSetDdramAddress :
    decode (.lcd (.byte false 0b1_1001111)) = .ok (.lcdSetDdramAddress 0x4F) := by decide
theorem test_decode_lcdData : decode (.lcd (.byte true 0b0000_0001)) = .ok (.lcdData 0x01) := by decide
theorem test_decode_nibWake : decode (.lcd (.nibble false 0b0011)) = .ok .nibWake := by decide
theorem test_decode_nibMode4 : decode (.lcd (.nibble false 0b0010)) = .ok .nibMode4 := by decide
theorem test_decode_xpByte : decode (.xp 0b1010_1_0_0_1) = .ok (.xpByte 0xA true false true) := by decide

/-- The reserved words of spec/95_test_vectors.md section 2.6, each for its reason. -/
theorem test_decode_reserved_words :
    decode (.op 0x00000000) = .error .reservedOpcode ∧ decode (.op 0x80000000) = .error .reservedOpcode ∧
    decode (.op 0xF0000000) = .error .reservedOpcode ∧ decode (.op 0x10000001) = .error .reservedArg ∧
    decode (.op 0x20008000) = .error .reservedArg ∧ decode (.op 0x40000008) = .error .reservedArg ∧
    decode (.op 0x60000002) = .error .reservedArg ∧ decode (.op 0x70000002) = .error .reservedArg ∧
    decode (.op 0x30010101) = .error .reservedRsv := by decide
theorem test_decode_foreign_bytes :
    decode (.lcd (.byte false 0x02)) = .error .otherCommand ∧ decode (.lcd (.byte false 0x19)) = .error .otherCommand ∧
    decode (.lcd (.nibble true 3)) = .error .otherNibble ∧ decode (.xp 0x0E) = .error .readRequested := by decide

/-! ### One step of each instruction (spec/95_test_vectors.md sections 2 and 3) -/

/-- P1: INIT's first event is the power-on settle. -/
theorem test_init_first : after (step (offering 0x10000000)) (traces [.delay 15000]) = true := by decide
/-- P1: INIT's last event is the 44th, `Delay(T_CMD)`, and the block is then idle. -/
theorem test_init_last :
    after (step (busy Config.default 0x10000000 43)) (fun t => traces [.delay 40] t && !t.block.run && t.initDone) = true := by
  decide
/-- P2 a1: `W0C` first. -/
theorem test_clear_first : after (step (offering 0x20000000)) (traces [.i2cWrite 0x27 0x0C]) = true := by decide
/-- P2 a1: the seventh and last event is `Delay(T_CLR)`. -/
theorem test_clear_last :
    after (step (busy Config.default 0x20000000 6)) (fun t => traces [.delay 1600] t && !t.block.run) = true := by decide
/-- 2.4: `GOTO 1, 0` sends 0xFF. -/
theorem test_goto_column_wraps : after (step (offering 0x30000100)) (traces [.i2cWrite 0x27 0xFC]) = true := by decide
/-- P4: `GOTO 3, 5` does nothing. -/
theorem test_goto_other_row : after (step (offering 0x30000305)) (fun t => traces [] t && !t.block.run) = true := by decide
/-- 2.3: `DISPCTL 0,1,1` has the low nibble 0xB. -/
theorem test_dispctl_low_nibble :
    after (step (busy Config.default 0x40000003 3)) (traces [.i2cWrite 0x27 0xBC]) = true := by decide
/-- Section 2.5: an empty string is one text read. -/
theorem test_print_empty :
    after (step (offering 0x50000100)) (fun t => traces [.textRead 0x0100 0x00] t && !t.block.run) = true := by decide
/-- Section 2.5: the pointer wraps from 0xFFFF to 0x0000 after the seventh event of a character. -/
theorem test_print_pointer_wraps :
    after (step { busy Config.default 0x5000FFFF 7 with
      block := { Block.reset with run := true, opl := 0x5000FFFF, pos := 7, tp := 0xFFFF, ch := 0x41 } })
      (fun t => traces [.delay 40] t && decide (t.block.tp = 0x0000) && decide (t.block.pos = 0) && t.block.run) = true := by
  decide
/-- P3 and P5: SHIFT left sends the low nibble 8, right 0xC. -/
theorem test_shift_left : after (step (busy Config.default 0x60000000 3)) (traces [.i2cWrite 0x27 0x8C]) = true := by decide
theorem test_shift_right : after (step (busy Config.default 0x60000001 3)) (traces [.i2cWrite 0x27 0xCC]) = true := by decide
/-- P3: `BACKLIGHT 0` writes 0x00 at once and `BL = 0`. -/
theorem test_backlight_off :
    after (step (offering 0x70000000)) (fun t => traces [.i2cWrite 0x27 0x00] t && !t.block.bl) = true := by decide
/-- 2.6: BACKLIGHT under PARALLEL is refused. -/
theorem test_backlight_parallel : refuses (step (offeringPar 0x70000001)) .backlightUnderParallel = true := by decide

/-- R57. -/
theorem test_lcdClear :
    after (exec .lcdClear (atCounter 0x45)) (fun t => decide (t.lcd.ac = .is 0) && decide (t.lcd.shift = .is 0)) = true := by
  decide
/-- R58. -/
theorem test_lcdEntryMode :
    after (exec .lcdEntryMode { initialized with lcd := { Lcd.afterInit with entry := .anyValue } })
      (fun t => decide (t.lcd.entry = .is .incrementNoShift)) = true := by decide
/-- P1: `DISPCTL 1,0,0` after INIT leaves the display on, the cursor and the blink off. -/
theorem test_lcdDisplayControl :
    after (exec (.lcdDisplayControl true false false) initialized) (shows { Lcd.afterInit with display := .is true }) = true := by
  decide
/-- P3: a shift left moves the window one step left. -/
theorem test_lcdShiftDisplay :
    after (exec (.lcdShiftDisplay false) initialized) (shows { Lcd.afterInit with shift := .is (-1) }) = true := by decide
/-- R58. -/
theorem test_lcdFunctionSet :
    after (exec .lcdFunctionSet { initialized with lcd := { Lcd.afterInit with function := .anyValue } })
      (fun t => decide (t.lcd.function = .is .fourBitTwoLine5x8)) = true := by decide
/-- R56. -/
theorem test_lcdSetDdramAddress :
    after (exec (.lcdSetDdramAddress 0x40) initialized) (shows { Lcd.afterInit with ac := .is 0x40 }) = true := by decide
/-- P2: "X" at row 2, column 1: DDRAM[0x40] = 0x58, address counter 0x41. -/
theorem test_lcdData :
    after (exec (.lcdData 0x58) (atCounter 0x40))
      (fun t => decide (t.lcd.readDdram 0x40 = .is 0x58) && decide (t.lcd.ac = .is 0x41)) = true := by decide
/-- U1: past the last address of row 1 the counter is any value. -/
theorem test_lcdData_leaves_row :
    after (exec (.lcdData 0x58) (atCounter 0x27)) (fun t => decide (t.lcd.ac = .anyValue)) = true := by decide
/-- R53. -/
theorem test_nibWake : after (exec .nibWake State.reset) (fun t => decide (t.lcd.wakes = 1)) = true := by decide
theorem test_nibMode4 :
    after (exec .nibMode4 { State.reset with lcd := { Lcd.unknown with wakes := 3 } })
      (fun t => decide (t.lcd.iface = .fourBit) && decide (t.lcd.half = none)) = true := by decide
/-- 2.7: `W3C W38` shows the frame (3, 0, 0). -/
theorem test_xpByte_falls :
    after (exec (.xpByte 3 true false false) { State.reset with xp := .is 0x3C })
      (fun t => decide (t.xp = .is 0x38) && decide (t.lcdBus = some (.nibble false 3))) = true := by decide
/-- 2.7: `W08` after `W38` shows no frame, EN was already 0. -/
theorem test_xpByte_no_edge :
    after (exec (.xpByte 0 true false false) { initialized with xp := .is 0x38 })
      (fun t => decide (t.xp = .is 0x08) && decide (t.lcdBus = none) && shows Lcd.afterInit t) = true := by decide

/-- R102, P4: the ninth event of a parallel transfer lowers EN and shows the frame, here the high nibble of 0x80. -/
theorem test_parallel_strobe :
    after (step { busy parallelCfg 0x30000101 8 with pins := ⟨.is false, .is false, .is true, .is false, .is false, .is false, .is true⟩ })
      (fun t => traces [.pin .en false] t && decide (t.lcdBus = some (.nibble false 8))) = true := by decide
/-- 2.7: `EN=1 EN=0` with no level ever written shows one unknown frame. -/
theorem test_parallel_unknown_frame :
    frames parallelCfg [.pin .en true, .pin .en false] = [.unknownFrame] := by decide
/-- 2.7: `W38 W3C` from a latch with EN = 0 shows none; `W08` first after reset may show one. -/
theorem test_expander_frames :
    frames Config.default [.i2cWrite 0x27 0x08, .i2cWrite 0x27 0x3C] = [.maybeUnknown] ∧
    framesFrom Config.default ⟨PinImage.unknown, .is 0x00⟩ [.i2cWrite 0x27 0x38, .i2cWrite 0x27 0x3C] = [] := by decide
/-- R210: reset with the lamp off and an operation running. -/
theorem test_reset_input :
    after (step { busy Config.default 0x20000000 3 with
        script := [.reset], block := { Block.reset with bl := false, run := true, opl := 0x20000000, pos := 3 } })
      (fun t => t.block.bl && !t.block.run && traces [] t) = true := by decide

/-- R125, R54: in 4-bit mode at even phase the halves of 0x31 pair into a byte like any other, RS = 0 or 1. -/
theorem test_wake_nibble_is_a_half_in_four_bit_mode :
    ((initialized.latch (.frame ⟨3, false, false⟩)).latch (.frame ⟨1, false, false⟩)).lcdBus = some (.byte false 0x31) ∧
    ((initialized.latch (.frame ⟨3, true, false⟩)).latch (.frame ⟨1, true, false⟩)).lcdBus = some (.byte true 0x31) := by
  decide
/-- P3: "A" at row 1, column 16 is in the window and "B" after it is not, until one shift left brings it in (R43, R162). -/
def p3View : Lcd :=
  { Lcd.afterInit with display := .is true, cursor := .is true, ac := .is 0x11, ddram := [(0x0F, 0x41), (0x10, 0x42)] }
theorem test_window_before_shift :
    p3View.panel 0 15 = .is (some 0x41) ∧ p3View.inWindow 0x10 = false ∧ p3View.shownAddress 1 0 = .is 0x40 := by decide
theorem test_window_after_shift_left :
    (p3View.moveWindow false).panel 0 14 = .is (some 0x41) ∧ (p3View.moveWindow false).panel 0 15 = .is (some 0x42) ∧
    (p3View.moveWindow true).shownAddress 0 0 = .anyValue := by decide
/-- P1: after INIT the display is off and shows nothing. -/
theorem test_panel_dark_after_init : Lcd.afterInit.panel 1 7 = .is none := by decide

/-! ### The table's numbering and the fetch -/

theorem test_table_words :
    decodeTableWord 32 0x30000201 = some (.goto 2 1) ∧ decodeTableWord 8 0x01 = some .lcdClear ∧
    decodeTableWord 8 0x80 = some (.lcdSetDdramAddress 0) ∧ decodeTableWord 8 0x03 = some .nibWake ∧
    decodeTableWord 8 0x02 = some .nibMode4 ∧ decodeTableWord 8 0x00 = some (.xpByte 0 false false false) ∧
    decodeTableWord 8 0x42 = some (.lcdData 0x42) ∧ decodeTableWord 32 0x80000000 = none := by decide
theorem test_fetch_operation : after (step (State.reset.withFetchWord 32 0x10000000)) (traces [.delay 15000]) = true := by decide
theorem test_fetch_command :
    after (step (State.reset.withFetchWord 8 0x80)) (fun t => decide (t.lcd.ac = .is 0)) = true := by decide
theorem test_fetch_expander :
    after (step (State.reset.withFetchWord 8 0x38)) (fun t => decide (t.xp = .is 0x38)) = true := by decide

/-! ### Witnesses: the hypotheses of each statement can be met together, each clause at its boundaries -/

/-- CLEAR under EXPANDER, its first event issued and still on its way. -/
def midClear : State :=
  { busy Config.default 0x20000000 1 with
    script := [.offer 0x10000000], xpBus := some 0x0C, trace := [.i2cWrite 0x27 0x0C] }
/-- PRINT of "A" at 0x0100, about to read. -/
def printing : State :=
  { State.reset with
    text := [(0x0100, 0x41)]
    block := { Block.reset with run := true, opl := 0x50000100, tp := 0x0100 } }
/-- A TEXT with no byte 0x00 in it. -/
def fullText : List Host.Cell := (List.range' 0 65536).map fun k => (k, 1)

theorem find_range (n m a : Nat) (h : n ≤ a) (h' : a < n + m) :
    Memory.find ((List.range' n m).map fun k => (k, (1 : Byte))) a = some 1 := by
  induction m generalizing n with
  | zero => omega
  | succ m ih =>
    rw [List.range'_succ]
    simp only [List.map_cons, Memory.find]
    split
    · rfl
    · exact ih (n + 1) (by omega) (by omega)

theorem witness_EncodeOfDecodeIsTheCode : decode (.op 0x30000201) = .ok (.goto 2 1) := by decide
theorem witness_ReservedWordIsRefused :
    (∀ w, (offering w).cfg.inBounds = true ∧ (offering w).ready ∧ (offering w).script = .offer w :: []) ∧
    ((0x00000000 : OpWord).extractLsb' 28 4 = 0 ∧ 8 ≤ ((0x80000000 : OpWord).extractLsb' 28 4).toNat ∧
      8 ≤ ((0xF0000000 : OpWord).extractLsb' 28 4).toNat ∧ (0x30010101 : OpWord).extractLsb' 16 12 ≠ 0) ∧
    ((0x10000001 : OpWord).extractLsb' 28 4 = 1 ∧ (0x10000001 : OpWord).extractLsb' 0 16 ≠ 0) ∧
    ((0x20008000 : OpWord).extractLsb' 28 4 = 2 ∧ (0x20008000 : OpWord).extractLsb' 0 16 ≠ 0) ∧
    ((0x40000008 : OpWord).extractLsb' 28 4 = 4 ∧ (0x40000008 : OpWord).extractLsb' 3 13 ≠ 0) ∧
    ((0x60000002 : OpWord).extractLsb' 28 4 = 6 ∧ (0x60000002 : OpWord).extractLsb' 1 15 ≠ 0) ∧
    ((0x70000002 : OpWord).extractLsb' 28 4 = 7 ∧ (0x70000002 : OpWord).extractLsb' 1 15 ≠ 0) :=
  ⟨fun _ => ⟨rfl, ⟨⟨rfl, rfl⟩, rfl⟩, rfl⟩, by decide⟩
theorem witness_WhatParallelLacksIsRefused : (State.resetWith parallelCfg).cfg.transport = .parallel := by decide
theorem witness_ResetInputAbandonsTheOperation :
    let s := { busy Config.default 0x20000000 3 with script := [.reset] }
    s.cfg.inBounds = true ∧ s.quiet ∧ s.script = .reset :: [] ∧ s.block.run = true := by decide
theorem witness_IdleLatchesAreReadByNothing :
    ((offering 0x50000100).ready ∧ (offering 0x50000100).script = .offer 0x50000100 :: [] ∧
      decode (.op 0x50000100) = .ok (.print 0x0100) ∧ ∃ t, step (offering 0x50000100) = .next t) ∧
    ((offering 0x20000000).ready ∧ (∀ ta, decode (.op 0x20000000) ≠ .ok (.print ta)) ∧
      ∃ t, step (offering 0x20000000) = .next t) ∧
    ((offering 0x80000000).ready ∧ (offering 0x80000000).script = .offer 0x80000000 :: [] ∧
      step (offering 0x80000000) = .refused (.reservedWord .reservedOpcode)) :=
  ⟨⟨by decide, rfl, rfl, _, rfl⟩, ⟨by decide, nofun, _, rfl⟩, by decide, rfl, rfl⟩
theorem witness_StepRunsTheDecodedInstruction :
    State.reset.cfg.inBounds = true ∧
    ({ initialized with lcdBus := some (.byte false 0x01) }.lcdBus = some (.byte false 0x01) ∧
      decode (.lcd (.byte false 0x01)) = .ok .lcdClear) ∧
    (midClear.lcdBus = none ∧ midClear.xpBus = some 0x0C ∧ decode (.xp 0x0C) = .ok (.xpByte 0 true true false)) ∧
    ((offering 0x20000000).ready ∧ (offering 0x20000000).script = .offer 0x20000000 :: [] ∧
      decode (.op 0x20000000) = .ok .clear) ∧
    ((busy Config.default 0x20000000 1).quiet ∧ (busy Config.default 0x20000000 1).block.run = true ∧
      (busy Config.default 0x20000000 1).script = [] ∧
      decode (.op (busy Config.default 0x20000000 1).block.opl) = .ok .clear) ∧
    (let s := { busy Config.default 0x20000000 1 with script := [.letRun 1] }
     s.quiet ∧ s.block.run = true ∧ s.script = .letRun (0 + 1) :: []) := by decide
theorem witness_IdleBlockWaits : State.reset.cfg.inBounds = true ∧ State.reset.ready ∧ State.reset.script = [] := by decide
theorem witness_OfferedWordIsHeldWhileBusy :
    midClear.block.run = true ∧ midClear.script = .offer 0x10000000 :: [] ∧ ∃ t, step midClear = .next t :=
  ⟨rfl, rfl, _, rfl⟩
/-- One witness for each alternative, GOTO at the columns where `col - 1` wraps and where it is 0. -/
theorem witness_CommandOperationsIssueTheirNextEvent :
    (displayControlByte true true true).toNat = 8 + 4 + 2 + 1 ∧ (displayControlByte false false false).toNat = 8 ∧
    (0 - 1 : Byte) ||| 0x80 = 0xFF ∧ (1 - 1 : Byte) ||| 0xC0 = 0xC0 ∧
    (∀ b ∈ [0x01, 0x08, 0x0F, 0x1C, 0x18, 0xFF, 0xC0], (cmd Config.default true b 40)[0]? ≠ none ∧
      (cmd Config.default true b 40)[6]? = some (.delay 40)) := by decide
theorem witness_GotoAnyOtherRowDoesNothing :
    ((0 : Byte) ≠ 1 ∧ (0 : Byte) ≠ 2) ∧ ((3 : Byte) ≠ 1 ∧ (3 : Byte) ≠ 2) ∧ ((255 : Byte) ≠ 1 ∧ (255 : Byte) ≠ 2) := by decide
theorem witness_InitIssuesItsNextEvent :
    (busy Config.default 0x10000000 0).block.run = true ∧
    (initEvents Config.default true)[(busy Config.default 0x10000000 0).block.pos]? = some (.delay 15000) ∧
    (initEvents Config.default true)[(busy Config.default 0x10000000 43).block.pos]? = some (.delay 40) :=
  ⟨rfl, rfl, rfl⟩
theorem witness_BacklightSetsItsBitAndWritesItAtOnce :
    Config.default.transport = .expander ∧ 1 ≤ Config.default.tXp ∧ (busy Config.default 0x70000001 0).block.pos = 0 ∧
    (busy Config.default 0x70000001 1).block.pos = 1 := by decide
theorem witness_PrintReadsTheNextCharacter :
    printing.block.pos = 0 ∧ printing.readText printing.block.tp ≠ 0 ∧
    State.reset.block.pos = 0 ∧ State.reset.readText State.reset.block.tp = 0 := by decide
theorem witness_PrintSendsTheCharacterAndAdvances :
    (busy Config.default 0x50000100 1).block.pos = 0 + 1 ∧
    (data Config.default true 0x41)[0]? = some (.i2cWrite 0x27 0x4D) ∧ 0 + 1 < (data Config.default true 0x41).length ∧
    (busy Config.default 0x50000100 7).block.pos = 6 + 1 ∧
    (data Config.default true 0x41)[6]? = some (.delay 40) ∧ 6 + 1 = (data Config.default true 0x41).length := by decide
theorem witness_ClearHomesTheCounter : initialized.lcd.iface = .fourBit := by decide
theorem witness_SetAddressLoadsTheCounter :
    initialized.lcd.iface = .fourBit ∧
    (∀ a ∈ ([0x00, 0x27, 0x40, 0x67] : List DdramAddr), a.toNat < 40 ∨ (64 ≤ a.toNat ∧ a.toNat < 104)) ∧
    (∀ a ∈ ([0x28, 0x3F, 0x68, 0x7F] : List DdramAddr), 40 ≤ a.toNat ∧ a.toNat < 64 ∨ 104 ≤ a.toNat) := by decide
theorem witness_OtherCommandsSetWhatTheyName :
    initialized.lcd.iface = .fourBit ∧ initialized.lcd.shift = .is 0 ∧
    { Lcd.afterInit with shift := .anyValue }.iface = .fourBit ∧
    { Lcd.afterInit with shift := .anyValue }.shift = .anyValue ∧ (15 : Fin 16).val = (14 : Fin 16).val + 1 ∧
    (∃ t, exec (.lcdShiftDisplay true) initialized = .next t) ∧ ∃ t, exec (.lcdShiftDisplay false) initialized = .next t :=
  ⟨rfl, rfl, rfl, rfl, rfl, ⟨_, rfl⟩, _, rfl⟩
theorem witness_CharacterIsStoredAtTheCounter :
    ∀ a ∈ ([0x00, 0x26, 0x27, 0x40, 0x66, 0x67] : List DdramAddr),
      (atCounter a).lcd.iface = .fourBit ∧ (atCounter a).lcd.ac = .is a ∧
      (a.toNat < 40 ∨ (64 ≤ a.toNat ∧ a.toNat < 104)) ∧ (atCounter a).lcd.entry = .is .incrementNoShift ∧
      { Lcd.afterInit with ac := .is a, entry := .anyValue }.entry = .anyValue := by decide
theorem witness_CharacterAtAnUnknownCounter :
    { Lcd.afterInit with ac := .anyValue }.iface = .fourBit ∧ { Lcd.afterInit with ac := .anyValue }.ac = .anyValue ∧
    ∀ a ∈ ([0x28, 0x3F, 0x68, 0x7F] : List DdramAddr),
      (atCounter a).lcd.ac = .is a ∧ (40 ≤ a.toNat ∧ a.toNat < 64 ∨ 104 ≤ a.toNat) := by decide
/-- Command bytes just outside each class of R77, and 0x33, which two wake nibbles make. -/
theorem witness_TransfersWithoutAnEffectLeaveNothingKnown :
    State.reset.lcd.iface = .undefined8 ∧ State.reset.drops.head? ≠ some true ∧ [false].head? ≠ some true ∧
    encode .lcdClear = .lcd (.byte false 0x01) ∧ encode (.lcdData 0x41) = .lcd (.byte true 0x41) ∧
    { State.reset with lcdBus := some (.nibble false 8) }.cfg.inBounds = true ∧
    (∀ x ∈ [(false, (8 : Nibble)), (true, 3), (true, 2)], ¬(x.1 = false ∧ (x.2 = 3 ∨ x.2 = 2))) ∧
    { initialized with lcdBus := some (.byte false 0x33) }.cfg.inBounds = true ∧
    (∀ b ∈ ([0x00, 0x02, 0x05, 0x07, 0x10, 0x17, 0x19, 0x1B, 0x1D, 0x27, 0x29, 0x33, 0x7F] : List Byte),
      b.toNat < 128 ∧ b ≠ 0x01 ∧ b ≠ 0x06 ∧ b ≠ 0x18 ∧ b ≠ 0x1C ∧ b ≠ 0x28 ∧ ¬(8 ≤ b.toNat ∧ b.toNat ≤ 15)) := by decide
theorem witness_ThreeWakesAndATwoGiveFourBitMode :
    { Lcd.unknown with wakes := 3 }.wakes = 3 ∧ { Lcd.unknown with wakes := 2 }.wakes ≠ 3 := by decide
theorem witness_ExpanderLatchesTheByteAndFramesFallWithEn :
    State.reset.cfg.transport = .expander ∧ State.reset.xp = .anyValue ∧
    (0x38 : Byte).getLsbD 2 = false ∧ (0x3C : Byte).getLsbD 2 = true := by decide
theorem witness_TwoFramesMakeAByte :
    initialized.lcd.iface = .fourBit ∧ initialized.drops.head? ≠ some true ∧ initialized.lcd.half = none ∧
    { Lcd.afterInit with half := some (2, false) }.half = some (2, false) ∧ (0x28 : Byte).toNat = 16 * 2 + 8 ∧
    { Lcd.afterInit with half := some (2, true) }.half = some (2, !false) := by decide
theorem witness_LostFrameLeavesTheControllerUnknown :
    { initialized with drops := [true, false] }.drops = true :: [false] ∧ initialized.drops.head? ≠ some true := by decide
theorem witness_OperationLeavesTheRestAlone :
    Instr.clear.isOperation = true ∧ (∃ t, exec .clear (busy Config.default 0x20000000 1) = .next t) ∧
    (∃ t, exec .clear (busy parallelCfg 0x20000000 1) = .next t) ∧ Instr.clear.isPrint = false ∧
    (∀ v, Instr.clear ≠ .backlight v) ∧ Instr.clear ≠ .init :=
  ⟨rfl, ⟨_, rfl⟩, ⟨_, rfl⟩, rfl, by decide, by decide⟩
/-- A pin, EN falling from 1, from an unknown level and from 0, EN rising, a write, a turn with neither, and an image with an
unknown level. -/
theorem witness_EventReachesItsCollaborator :
    (∀ e ∈ [.is true, .anyValue, .is false], ∃ t,
      exec .clear { busy parallelCfg 0x20000000 8 with pins := { PinImage.unknown with en := e } } = .next t ∧
      t.trace = [] ++ [.pin .en false]) ∧
    (∃ t, exec .clear (busy parallelCfg 0x20000000 6) = .next t ∧ t.trace = [] ++ [.pin .en true]) ∧
    (Pin.d7 ≠ .en ∧ PinImage.unknown.get .d7 = .anyValue) ∧
    (∃ t, exec .clear (busy parallelCfg 0x20000000 0) = .next t ∧ t.trace = [] ++ [.pin .rs false]) ∧
    (∃ t, exec .clear (busy Config.default 0x20000000 0) = .next t ∧ t.trace = [] ++ [.i2cWrite 0x27 0x0C]) ∧
    (∃ t, exec .clear (busy Config.default 0x20000000 2) = .next t ∧ t.trace = [] ++ [.delay 1]) :=
  ⟨fun e _ => match e with
    | .anyValue => ⟨_, rfl, by decide⟩
    | .is true => ⟨_, rfl, by decide⟩
    | .is false => ⟨_, rfl, by decide⟩, ⟨_, rfl, by decide⟩, by decide, ⟨_, rfl, by decide⟩, ⟨_, rfl, by decide⟩,
    ⟨_, rfl, by decide⟩⟩
theorem witness_OutsideInstructionsLeaveTheBlockAlone :
    Instr.lcdClear.isOperation = false ∧ (∃ t, exec .lcdClear initialized = .next t) ∧
    (∀ n b e r, Instr.lcdClear ≠ .xpByte n b e r) ∧ (∀ ch, Instr.lcdClear ≠ .lcdData ch) ∧
    (Instr.xpByte 3 true false false).isOperation = false ∧
    ∃ t, exec (.xpByte 3 true false false) initialized = .next t :=
  ⟨rfl, ⟨_, rfl⟩, nofun, nofun, rfl, _, rfl⟩
/-- One step, for the statements whose hypotheses are `step s = .next t` and the event it adds. -/
theorem witness_StepIssuesAtMostOneEvent : ∃ t, step (offering 0x20000000) = .next t := ⟨_, rfl⟩
theorem witness_TransportsNeverMix :
    (∃ t, step (offering 0x20000000) = .next t ∧ t.trace = [] ++ [.i2cWrite 0x27 0x0C] ∧ t.cfg.transport = .expander) ∧
    (∃ t, step (offeringPar 0x20000000) = .next t ∧ t.trace = [] ++ [.pin .rs false] ∧ t.cfg.transport = .parallel) :=
  ⟨⟨_, rfl, by decide⟩, ⟨_, rfl, by decide⟩⟩
theorem witness_EveryWriteCarriesTheBacklightAndRwZero :
    (∃ t, step (offering 0x20000000) = .next t ∧ t.trace = [] ++ [.i2cWrite 0x27 0x0C]) ∧
    (∃ t, step (busy parallelCfg 0x20000000 1) = .next t ∧ t.trace = [] ++ [.pin .rw false]) :=
  ⟨⟨_, rfl, by decide⟩, ⟨_, rfl, by decide⟩⟩
theorem witness_OnlyBacklightAndResetWriteBl :
    ∃ t, step (offering 0x70000000) = .next t ∧ t.block.bl = false ∧ (offering 0x70000000).block.bl = true :=
  ⟨_, rfl, by decide⟩
theorem witness_OnlyTheHostWritesText :
    ∃ t, step { State.reset with script := [.write 0x0100 0x41] } = .next t ∧ t.readText 0x0100 ≠ State.reset.readText 0x0100 :=
  ⟨_, rfl, by decide⟩
theorem witness_ConfigurationIsNeverWritten : ∃ t, step (offeringPar 0x10000000) = .next t := ⟨_, rfl⟩
theorem witness_BlockIsOpenLoop :
    Instr.init.isOperation = true ∧ ∃ t, exec .init (busy parallelCfg 0x10000000 1) = .next t := ⟨rfl, _, rfl⟩
theorem witness_TextReadsBackWhatTheHostWrote :
    let s := { printing with script := [.write 0x0100 0x00] }
    Memory.wf s.text ∧ (0x0101 : TextAddr) ≠ 0x0100 ∧ (0xFFFF : TextAddr) ≠ 0 ∧ s.cfg.inBounds = true ∧ s.quiet ∧
    s.script = .write 0x0100 0x00 :: [] := by decide
theorem witness_ByteIsFramedHighNibbleFirst :
    initialized.lcd.iface = .fourBit ∧ initialized.lcd.half = none ∧ initialized.drops = [] := by decide
theorem witness_ParallelTransferIsTenEvents : parallelCfg.transport = .parallel ∧ 1 ≤ parallelCfg.tEn := by decide
theorem witness_ExpanderTransferIsThreeEvents : Config.default.transport = .expander ∧ 1 ≤ Config.default.tXp := by decide
theorem witness_BacklightShowsNoFrame :
    Config.default.transport = .expander ∧ (0x3B : Byte).getLsbD 2 = false ∧ Lines.unknown.xp = .anyValue := by decide
theorem witness_GotoByteIsASetAddressCommand :
    gotoByte 1 1 = some 0x80 ∧ gotoByte 1 16 = some 0x8F ∧ gotoByte 2 1 = some 0xC0 ∧ gotoByte 2 16 = some 0xCF ∧
    gotoByte 1 0 = some 0xFF ∧ gotoByte 2 65 = some 0xC0 ∧ gotoByte 1 255 = some 0xFE ∧
    gotoByte 1 17 = some 0x90 ∧ gotoByte 2 40 = some 0xE7 ∧ Lcd.afterInit.shift = .is 0 := by decide
theorem witness_TransportsShowTheSameFrames :
    (∀ v, Instr.init ≠ .backlight v) ∧ Config.default.transport = .expander := by decide
theorem witness_FramesComeInPairs : ∀ v, Instr.clear ≠ .backlight v := by decide
theorem witness_InitExpansionWrittenOut :
    Config.default.inBounds = true ∧ Config.default.tInit3 = 0 ∧ 0 < Config.default.tMode4 ∧
    Config.default.transport = .expander ∧ parallelCfg.inBounds = true ∧ parallelCfg.tInit3 = 0 ∧ 0 < parallelCfg.tMode4 ∧
    parallelCfg.transport = .parallel := by decide
theorem witness_EventCounts :
    Config.default.inBounds = true ∧ 0 < Config.default.tCmd ∧ Config.default.transport = .expander ∧
    parallelCfg.inBounds = true ∧ 0 < parallelCfg.tCmd ∧ parallelCfg.transport = .parallel := by decide
theorem witness_RequestedDelays :
    (Config.default.tXp = match Config.default.transport with
      | .parallel => 2 * Config.default.tEn
      | .expander => Config.default.tXp) ∧
    (2 * parallelCfg.tEn = match parallelCfg.transport with
      | .parallel => 2 * parallelCfg.tEn
      | .expander => parallelCfg.tXp) ∧
    (let c := { Config.default with tMode4 := 0 }
     c.tPwr = 15000 ∧ c.tInit1 = 4100 ∧ c.tInit2 = 100 ∧ c.tInit3 = 0 ∧ c.tMode4 = 0 ∧ c.tCmd = 40 ∧ c.tClr = 1600) ∧
    Config.default.inBounds = true := by decide
theorem witness_OperationRunsToIdle :
    let s := { offering 0x30000305 with script := [.offer 0x30000305, .offer 0x10000000] }
    s.cfg.inBounds = true ∧ (Instr.goto 3 5).wf s.cfg.transport = true ∧ (Instr.goto 3 5).isPrint = false ∧
    encode (.goto 3 5) = .op 0x30000305 ∧ s.ready ∧ s.script = .offer 0x30000305 :: [.offer 0x10000000] ∧
    onlyOffers [.offer 0x10000000] :=
  ⟨by decide, by decide, by decide, by decide, by decide, rfl, fun _ h => ⟨_, List.mem_singleton.mp h⟩⟩
theorem witness_PrintRunsToItsTerminator :
    let s := { offering 0x5000FFFF with text := [(0, 0x42), (0xFFFF, 0x41)] }
    s.cfg.inBounds = true ∧ encode (.print 0xFFFF) = .op 0x5000FFFF ∧ s.ready ∧ s.script = .offer 0x5000FFFF :: [] ∧
    onlyOffers [] ∧ s.holdsChars 0xFFFF [0x41, 0x42] ∧ s.readText (textAddrAfter 0xFFFF 2) = 0 :=
  ⟨by decide, by decide, by decide, rfl, nofun, ⟨by decide, by decide, by decide, by decide, trivial⟩, by decide⟩
theorem witness_UnterminatedPrintNeverEnds :
    let s := { offering 0x50000000 with text := fullText }
    s.cfg.inBounds = true ∧ encode (.print 0) = .op 0x50000000 ∧ s.ready ∧ s.script = [.offer 0x50000000] ∧
    ∀ a, s.readText a ≠ 0 := by
  refine ⟨rfl, rfl, ⟨⟨rfl, rfl⟩, rfl⟩, rfl, fun a => ?_⟩
  have h := find_range 0 65536 a.toNat (Nat.zero_le _) (by have := a.isLt; omega)
  show (Memory.find fullText a.toNat).getD Memory.unlisted ≠ 0
  rw [fullText, h]
  decide
theorem witness_OperationsForgetHistory :
    let u := { offering 0x30000201 with lcd := Lcd.afterInit, xp := .is 0x18, initDone := true, trace := [.delay 1600] }
    (offering 0x30000201).cfg.inBounds = true ∧ (Instr.goto 2 1).wf (offering 0x30000201).cfg.transport = true ∧
    (Instr.goto 2 1).isPrint = false ∧ encode (.goto 2 1) = .op 0x30000201 ∧ (offering 0x30000201).ready ∧ u.ready ∧
    u.cfg = (offering 0x30000201).cfg ∧ u.block.bl = (offering 0x30000201).block.bl ∧
    (offering 0x30000201).script = [.offer 0x30000201] ∧ u.script = [.offer 0x30000201] ∧
    (∀ ta, Instr.goto 2 1 ≠ .print ta) :=
  ⟨rfl, rfl, rfl, rfl, ⟨⟨rfl, rfl⟩, rfl⟩, ⟨⟨rfl, rfl⟩, rfl⟩, rfl, rfl, rfl, rfl, nofun⟩
/-- The same for PRINT of "AB", one of the two states having sent something before. -/
theorem witness_OperationsForgetHistory_print :
    let s := { offering 0x5000FFFF with text := [(0, 0x42), (0xFFFF, 0x41)] }
    let u := { s with lcd := Lcd.afterInit, xp := .is 0x18, initDone := true, trace := [.delay 1600] }
    s.cfg.inBounds = true ∧ (Instr.print 0xFFFF).wf s.cfg.transport = true ∧ encode (.print 0xFFFF) = .op 0x5000FFFF ∧
    s.ready ∧ u.ready ∧ u.cfg = s.cfg ∧ u.block.bl = s.block.bl ∧ s.script = [.offer 0x5000FFFF] ∧
    u.script = [.offer 0x5000FFFF] ∧ (∀ a, u.readText a = s.readText a) ∧ s.readText (textAddrAfter 0xFFFF 2) = 0 :=
  ⟨by decide, by decide, by decide, ⟨⟨rfl, rfl⟩, rfl⟩, ⟨⟨rfl, rfl⟩, rfl⟩, rfl, rfl, rfl, rfl, fun _ => rfl, by decide⟩
/-- A controller at odd phase, as a reset in mid-byte leaves it (R211, R219). -/
theorem witness_InitMakesTheControllerKnown :
    let s := { offering 0x10000000 with lcd := { Lcd.unknown with iface := .fourBit, half := some (8, false) } }
    s.cfg.inBounds = true ∧ s.ready ∧ s.drops = [] ∧ s.script = [.offer 0x10000000] := by decide
theorem witness_InvariantHoldsAtReset : Config.default.inBounds = true ∧ parallelCfg.inBounds = true := by decide
theorem midClear_inv : Inv midClear where
  cfg := by decide
  text := by decide
  block := fun _ => ⟨rfl, by decide⟩
  lcd := ⟨by decide, nofun, fun h => absurd rfl h, by decide⟩
  lcdBus := nofun
  xpBus := fun v h => by cases h; exact ⟨rfl, rfl, rfl⟩
  rwPin := nofun
  rwBit := nofun
theorem witness_StepKeepsTheInvariant : Inv midClear ∧ ∃ t, step midClear = .next t := ⟨midClear_inv, _, rfl⟩
theorem witness_MachineStopsOnlyAtAReservedWord : Inv midClear := midClear_inv
theorem witness_StepKeepsTheLinesFollowingTheTrace : LinesFollow midClear ∧ ∃ t, step midClear = .next t where
  left :=
    { pins := fun p v h => by cases p <;> cases h
      xp := fun v h => by cases h
      bus := fun v h => by cases h; rfl
      lamp := fun v h => by cases h; rfl }
  right := ⟨_, rfl⟩

end Sys2Proof.Tests
end

/-! # Scope: the configuration, one event a turn, where an event goes, and GOTO's byte -/

namespace Sys2Proof.Machine

/-! ### The configuration's bounds -/

/-- A configuration is out of bounds exactly when one of R9's seven bounds that are not 0 is violated. -/
theorem inBounds_eq_false_iff (c : Config) :
    c.inBounds = false ↔ c.tPwr < 15000 ∨ c.tInit1 < 4100 ∨ c.tInit2 < 100 ∨ c.tCmd < 40 ∨ c.tClr < 1600 ∨
      c.tEn < 1 ∨ c.tXp < 1 := by
  simp only [Config.inBounds, Bool.and_eq_false_iff, decide_eq_false_iff_not, Nat.not_le, or_assoc]

/-- The two refusals an instruction can end in, both for want of an expander. -/
theorem exec_refused_cases {i : Instr} {s : State} {r : Refusal} (h : exec i s = .refused r) :
    r = .backlightUnderParallel ∨ r = .expanderAbsent := by
  cases i
  case backlight v =>
    simp only [exec, execBacklight] at h
    split at h <;> cases h
    exact .inl rfl
  case xpByte n b e r =>
    simp only [exec, execXpByte] at h
    split at h <;> cases h
    exact .inr rfl
  all_goals cases h

theorem exec_ne_configOutOfBounds (i : Instr) (s : State) : exec i s ≠ .refused .configOutOfBounds := by
  intro h
  rcases exec_refused_cases h with h | h <;> cases h

theorem State.blockTurn_ne_configOutOfBounds (s : State) : s.blockTurn ≠ .refused .configOutOfBounds := by
  simp only [State.blockTurn]
  split
  · split
    · exact exec_ne_configOutOfBounds _ _
    · nofun
  · nofun

theorem State.acceptTurn_ne_configOutOfBounds (s : State) (w : OpWord) :
    s.acceptTurn w ≠ .refused .configOutOfBounds := by
  simp only [State.acceptTurn]
  split
  · exact exec_ne_configOutOfBounds _ _
  · nofun

theorem State.hostTurn_ne_configOutOfBounds (s : State) : s.hostTurn ≠ .refused .configOutOfBounds := by
  simp only [State.hostTurn]
  split
  · exact s.blockTurn_ne_configOutOfBounds
  · split
    · exact s.blockTurn_ne_configOutOfBounds
    · exact State.acceptTurn_ne_configOutOfBounds _ _
  · nofun
  · nofun
  · exact State.blockTurn_ne_configOutOfBounds _
  · nofun

/-- No agent's turn asks about the bounds: only `step` itself does. -/
theorem State.turn_ne_configOutOfBounds (s : State) : s.turn ≠ .refused .configOutOfBounds := by
  simp only [State.turn, State.controllerTurn, State.expanderTurn]
  split
  · split
    · exact exec_ne_configOutOfBounds _ _
    · nofun
  · split
    · split
      · exact exec_ne_configOutOfBounds _ _
      · nofun
    · exact s.hostTurn_ne_configOutOfBounds

theorem step_refused_configOutOfBounds_iff (s : State) :
    step s = .refused .configOutOfBounds ↔ s.cfg.inBounds = false := by
  simp only [step]
  split <;> rename_i hb
  · simp [hb, s.turn_ne_configOutOfBounds]
  · simpa using hb

/-- Settles O7: only `step` refuses with this reason, and it does so by `Config.inBounds`. -/
theorem configurationIsHeldToItsBounds : Obligations.ConfigurationIsHeldToItsBounds := fun s =>
  (step_refused_configOutOfBounds_iff s).trans (inBounds_eq_false_iff s.cfg)

/-! ### A turn of an operation issues one event or none -/

/-- What an operation can issue: an event of the transport's shape, or PRINT's text read (R12). -/
def Issuable (c : Config) (e : Event) : Prop := (∃ bl, Emitted c bl e) ∨ ∃ a v, e = .textRead a v

theorem Issuable.ne_delay_zero {c : Config} {e : Event} (h : Issuable c e) : e ≠ .delay 0 := by
  rintro rfl
  rcases h with ⟨_, h⟩ | ⟨_, _, h⟩
  · exact Nat.lt_irrefl 0 h
  · cases h

theorem Issuable.i2cWrite_address {c : Config} {a : I2cAddr} {v : Byte} (h : Issuable c (.i2cWrite a v)) :
    a = c.i2cAddr := by
  rcases h with ⟨_, _, ha, _⟩ | ⟨_, _, h⟩
  · exact ha
  · cases h

/-- A turn of the block: it issues at most one event, and apart from that event's effect touches only its own latches
and the ghost flag. -/
def BlockMoves (s t : State) : Prop :=
  ∃ b d, t = { s with block := b, initDone := d } ∨
    ∃ e, Issuable s.cfg e ∧ t = { s.emit e with block := b, initDone := d }

/-- Writing `BL` first makes no difference to what the event does outside the block. -/
theorem BlockMoves.of_issue (s : State) (b d : Bool) (evs : List Event) (he : ∀ e ∈ evs, Emitted s.cfg b e) :
    BlockMoves s { (s.setBl b).issue evs with initDone := d } := by
  have hemit : ∀ e, (s.setBl b).emit e = { s.emit e with block := (s.setBl b).block } := fun e =>
    State.emit_withBlock s e _
  rcases (s.setBl b).issue_cases evs with ⟨-, h⟩ | ⟨e, hm, -, -, h⟩ | ⟨e, hm, -, -, h⟩
  · exact ⟨_, d, .inl (by rw [h]; rfl)⟩
  · exact ⟨_, d, .inr ⟨e, .inl ⟨b, he e hm⟩, by rw [h, hemit]; rfl⟩⟩
  · exact ⟨_, d, .inr ⟨e, .inl ⟨b, he e hm⟩, by rw [h, hemit]; rfl⟩⟩

theorem BlockMoves.of_printRead (s : State) : BlockMoves s s.printRead := by
  refine ⟨s.printRead.block, s.initDone, .inr ⟨_, .inr ⟨s.block.tp, s.readText s.block.tp, rfl⟩, ?_⟩⟩
  simp only [State.printRead]
  split <;> rfl

theorem BlockMoves.of_printData (s : State) : BlockMoves s s.printData := by
  refine ⟨s.printData.block, s.printData.initDone, ?_⟩
  simp only [State.printData]
  split
  · exact .inl rfl
  · rename_i e he
    refine .inr ⟨e, .inl ⟨s.block.bl, emitted_of_data (List.mem_of_getElem? he)⟩, ?_⟩
    split <;> rfl

theorem exec_op_blockMoves {i : Instr} {s t : State} (hi : i.isOperation = true) (h : exec i s = .next t) :
    BlockMoves s t := by
  rcases exec_op_cases hi h with ⟨-, ⟨-, rfl⟩ | ⟨-, rfl⟩⟩ | ⟨-, -, b, d, evs, rfl, -, -, -, he⟩
  · exact .of_printRead s
  · exact .of_printData s
  · exact .of_issue s b d evs he

theorem BlockMoves.cfg {s t : State} (h : BlockMoves s t) : t.cfg = s.cfg := by
  obtain ⟨b, d, rfl | ⟨e, -, rfl⟩⟩ := h
  · rfl
  · exact s.emit_cfg e

theorem BlockMoves.trace {s t : State} (h : BlockMoves s t) :
    t.trace = s.trace ∨ ∃ e, t.trace = s.trace ++ [e] ∧ e ≠ .delay 0 := by
  obtain ⟨b, d, rfl | ⟨e, he, rfl⟩⟩ := h
  · exact .inl rfl
  · exact .inr ⟨e, s.emit_trace e, he.ne_delay_zero⟩

/-! ### A step: nothing is issued, the block moves, or the machine is reset -/

/-- What a step does to the configuration and the trace: it leaves both alone, or is a turn of the block from a state
that has both, or is a reset, which empties the trace. -/
theorem step_cfg_trace_cases {s t : State} (h : step s = .next t) :
    (t.cfg = s.cfg ∧ t.trace = s.trace) ∨
      (∃ u : State, u.cfg = s.cfg ∧ u.trace = s.trace ∧ BlockMoves u t) ∨
      ((∃ rest, s.script = .reset :: rest) ∧ t.cfg = s.cfg ∧ t.trace = []) := by
  obtain ⟨-, h⟩ := step_cases h
  rcases h with ⟨x, -, rfl⟩ | ⟨v, -, -, -, -, rfl⟩ | ⟨-, -, ⟨-, rfl⟩ | ⟨n, rest, -, rfl⟩⟩ |
    ⟨-, -, i, script, -, hi, he, -⟩ | ⟨-, w, rest, i, -, -, hi, he⟩ | ⟨-, a, v, rest, -, rfl⟩ | ⟨-, rest, -, rfl⟩ |
    ⟨-, rest, hs, rfl⟩
  · exact .inl ⟨rfl, rfl⟩
  · exact .inl ⟨State.latchByte_cfg .., State.latchByte_trace ..⟩
  · exact .inl ⟨rfl, rfl⟩
  · exact .inl ⟨rfl, rfl⟩
  · exact .inr (.inl ⟨{ s with script := script }, rfl, rfl, exec_op_blockMoves hi he⟩)
  · exact .inr (.inl ⟨({ s with script := rest } : State).accept w i, rfl, rfl, exec_op_blockMoves hi he⟩)
  · exact .inl ⟨rfl, rfl⟩
  · exact .inl ⟨rfl, rfl⟩
  · exact .inr (.inr ⟨⟨rest, hs⟩, rfl, rfl⟩)

/-- Settles O33: only a turn of the block issues, one event, and only a reset empties the trace. -/
theorem stepIssuesAtMostOneEvent : Obligations.StepIssuesAtMostOneEvent := by
  intro s t h
  rcases step_cfg_trace_cases h with ⟨-, htr⟩ | ⟨u, -, hu, hm⟩ | ⟨hs, -, htr⟩
  · exact .inl htr
  · exact (hu ▸ hm.trace).imp_right .inl
  · exact .inr (.inr ⟨hs, htr⟩)

/-- Settles O38: neither a turn of the block nor anything else a step does writes the configuration. -/
theorem configurationIsNeverWritten : Obligations.ConfigurationIsNeverWritten := by
  intro s t h
  rcases step_cfg_trace_cases h with ⟨hc, -⟩ | ⟨u, hu, -, hm⟩ | ⟨-, hc, -⟩
  · exact hc
  · exact hm.cfg.trans hu
  · exact hc

/-! ### Where an event goes -/

/-- The controller latches a frame without looking at the pins or the trace again. -/
theorem State.takeFrame_withPinsTrace (s : State) (f : Frame) (pins : PinImage) (tr : List Event) :
    State.takeFrame { s with pins := pins, trace := tr } f = { s.takeFrame f with pins := pins, trace := tr } := by
  simp only [State.takeFrame]
  (repeat' split) <;> rfl

theorem State.latch_withPinsTrace (s : State) (o : Observed) (pins : PinImage) (tr : List Event) :
    State.latch { s with pins := pins, trace := tr } o = { s.latch o with pins := pins, trace := tr } := by
  simp only [State.latch]
  split
  · rfl
  · split
    · exact State.takeFrame_withPinsTrace { s with drops := s.drops.tail } _ pins tr
    · rfl
    · rfl

/-- A pin event in full: the output is set, the trace grows, and the controller samples what it observes. -/
theorem State.emit_pin_eq (s : State) (p : Pin) (v : Bool) :
    s.emit (.pin p v) =
      { s.latchIf (s.pins.observe p v) with pins := s.pins.set p v, trace := s.trace ++ [.pin p v] } := by
  simp only [State.emit_pin, State.drivePin]
  cases s.pins.observe p v with
  | none => rfl
  | some o => exact s.latch_withPinsTrace o (s.pins.set p v) (s.trace ++ [.pin p v])

theorem PinImage.observe_of_falling {im : PinImage} (h : im.en = .is true) : im.observe .en false = some im.frame := by
  simp [PinImage.observe, h]

theorem PinImage.observe_of_maybe_falling {im : PinImage} (h : im.en = .anyValue) :
    im.observe .en false = some .maybeUnknown := by
  simp [PinImage.observe, h]

/-- Only EN going to 0 from a level that was not 0 shows the controller anything (R52, R108). -/
theorem PinImage.observe_eq_none {im : PinImage} {p : Pin} {v : Bool} (h : p ≠ .en ∨ v = true ∨ im.en = .is false) :
    im.observe p v = none := by
  simp only [PinImage.observe]
  split <;> simp_all

/-- The frame on fully known pins is their four data levels with RS and RW. -/
theorem PinImage.frame_of_levels (n : Nibble) (rs rw : Bool) (en : Known Bool) :
    PinImage.frame ⟨.is rs, .is rw, en, .is (n.getLsbD 0), .is (n.getLsbD 1), .is (n.getLsbD 2), .is (n.getLsbD 3)⟩ =
      .frame ⟨n, rs, rw⟩ := by
  simp only [PinImage.frame, nibbleOfLevels_bits]

theorem PinImage.frame_of_anyValue {im : PinImage} {p : Pin} (hp : p ≠ .en) (h : im.get p = .anyValue) :
    im.frame = .unknownFrame := by
  simp only [PinImage.frame]
  split
  · cases p <;> simp_all [PinImage.get]
  · rfl

/-- A pin event goes to the pins, and to the controller when EN falls. -/
theorem State.emit_pin_reaches (s : State) (p : Pin) (v : Bool) :
    (s.emit (.pin p v)).pins.get p = .is v ∧ (∀ q, q ≠ p → (s.emit (.pin p v)).pins.get q = s.pins.get q) ∧
      (p = .en ∧ v = false ∧ s.pins.en = .is true → (s.latch s.pins.frame).sameController (s.emit (.pin p v))) ∧
      (p = .en ∧ v = false ∧ s.pins.en = .anyValue → (s.latch .maybeUnknown).sameController (s.emit (.pin p v))) ∧
      (p ≠ .en ∨ v = true ∨ s.pins.en = .is false → s.sameController (s.emit (.pin p v))) := by
  rw [s.emit_pin_eq]
  refine ⟨PinImage.get_set_same .., fun q hq => PinImage.get_set_other _ _ _ _ hq, ?_, ?_, fun h => ?_⟩
  · rintro ⟨rfl, rfl, h⟩
    rw [PinImage.observe_of_falling h]
    exact ⟨rfl, rfl, rfl⟩
  · rintro ⟨rfl, rfl, h⟩
    rw [PinImage.observe_of_maybe_falling h]
    exact ⟨rfl, rfl, rfl⟩
  · rw [PinImage.observe_eq_none h]
    exact ⟨rfl, rfl, rfl⟩

theorem State.emit_pins_of_not_pin (s : State) {e : Event} (h : ∀ p v, e ≠ .pin p v) :
    (s.emit e).pins = s.pins ∧ s.sameController (s.emit e) := by
  cases e with
  | pin p v => exact absurd rfl (h p v)
  | i2cWrite a v => simp only [State.emit]; split <;> exact ⟨rfl, rfl, rfl, rfl⟩
  | delay t => exact ⟨rfl, rfl, rfl, rfl⟩
  | textRead a v => exact ⟨rfl, rfl, rfl, rfl⟩

theorem State.emit_xpBus_of_not_i2cWrite (s : State) {e : Event} (h : ∀ a v, e ≠ .i2cWrite a v) :
    (s.emit e).xpBus = s.xpBus := by
  cases e with
  | i2cWrite a v => exact absurd rfl (h a v)
  | pin p v => rw [s.emit_pin, State.drivePin_xpBus]
  | delay t => rfl
  | textRead a v => rfl

/-- Settles O31: a turn issues no event or one (`BlockMoves`), and `emit` hands each kind to its own collaborator. -/
theorem eventReachesItsCollaborator : Obligations.EventReachesItsCollaborator := by
  refine ⟨fun i s t hi h => ?_, PinImage.frame_of_levels, fun im p hp h => PinImage.frame_of_anyValue hp h⟩
  obtain ⟨b, d, rfl | ⟨e, he, rfl⟩⟩ := exec_op_blockMoves hi h
  · refine ⟨fun p v h => ?_, fun _ => ⟨rfl, rfl, rfl, rfl⟩, fun a v h => ?_, fun _ => rfl⟩ <;> simp at h
  · have one : ∀ e', (s.emit e).trace = s.trace ++ [e'] ↔ e = e' := by simp
    refine ⟨fun p v h => ?_, fun h => ?_, fun a v h => ?_, fun h => ?_⟩
    · obtain rfl := (one _).mp h
      exact s.emit_pin_reaches p v
    · exact s.emit_pins_of_not_pin fun p v hp => h p v ((one _).mpr hp)
    · obtain rfl := (one _).mp h
      obtain rfl := he.i2cWrite_address
      exact congrArg State.xpBus (s.emit_i2cWrite v)
    · exact s.emit_xpBus_of_not_i2cWrite fun a v hw => h a v ((one _).mpr hw)

/-! ### What an instruction of the controller or the expander touches -/

/-- An instruction of the controller changes its view alone; the only other one outside the block is the expander's. -/
theorem exec_outside_cases {i : Instr} {s t : State} (hi : i.isOperation = false) (h : exec i s = .next t) :
    ((∀ n b e r, i ≠ .xpByte n b e r) ∧ t = { s with lcd := lcdEffect s.lcd i }) ∨
      ∃ n b e r, i = .xpByte n b e r ∧ t = s.latchByte (expanderByte n b e r) := by
  cases i <;> simp only [Instr.isOperation, Bool.true_eq_false] at hi
  case xpByte n b e r =>
    simp only [exec, execXpByte] at h
    split at h <;> cases h
    exact .inr ⟨n, b, e, r, rfl, rfl⟩
  all_goals
    cases h
    refine .inl ⟨nofun, ?_⟩
    simp only [State.inFourBit_eq, lcdEffect]

/-- The known cells of DDRAM stay as they are or are forgotten together. -/
def Lcd.StoresNothing (l m : Lcd) : Prop := m.ddram = l.ddram ∨ m.ddram = []

theorem Lcd.StoresNothing.readDdram {l m : Lcd} (h : l.StoresNothing m) (a : DdramAddr) :
    m.readDdram a = l.readDdram a ∨ m.readDdram a = .anyValue := by
  rcases h with h | h
  · exact .inl (by simp only [Lcd.readDdram, h])
  · exact .inr (by simp only [Lcd.readDdram, h, Memory.find])

/-- Only a character stores. -/
theorem lcdEffect_storesNothing (l : Lcd) {i : Instr} (hi : ∀ ch, i ≠ .lcdData ch) :
    l.StoresNothing (lcdEffect l i) := by
  have kept {f : Lcd} (hf : l.StoresNothing f) : l.StoresNothing (if l.iface = .fourBit then f else l.forget) := by
    split
    · exact hf
    · exact .inr rfl
  cases i
  case lcdData ch => exact absurd rfl (hi ch)
  case lcdClear => exact kept (.inr rfl)
  case lcdEntryMode | lcdDisplayControl | lcdShiftDisplay | lcdFunctionSet | lcdSetDdramAddress => exact kept (.inl rfl)
  case nibWake | nibMode4 => exact .inr rfl
  all_goals exact .inl rfl

/-- A frame is held, passed on or forgotten; it stores nothing by itself. -/
theorem State.takeFrame_storesNothing (s : State) (f : Frame) : s.lcd.StoresNothing (s.takeFrame f).lcd := by
  simp only [State.takeFrame]
  split
  · exact .inr rfl
  · split
    · exact .inl rfl
    · split
      · exact .inl rfl
      · split
        · exact .inl rfl
        · exact .inr rfl

theorem State.latch_storesNothing (s : State) (o : Observed) : s.lcd.StoresNothing (s.latch o).lcd := by
  simp only [State.latch]
  split
  · exact .inr rfl
  · split
    · exact State.takeFrame_storesNothing { s with drops := s.drops.tail } _
    · exact .inr rfl
    · exact .inr rfl

theorem State.latchByte_storesNothing (s : State) (v : Byte) : s.lcd.StoresNothing (s.latchByte v).lcd := by
  simp only [State.latchByte]
  cases s.xp.observe v with
  | none => exact .inl rfl
  | some o => exact State.latch_storesNothing { s with xp := .is v } o

/-- Settles O32: the controller's instructions change its view alone (`lcdEffect`), the expander's its latch and what the
controller samples from it. -/
theorem outsideInstructionsLeaveTheBlockAlone : Obligations.OutsideInstructionsLeaveTheBlockAlone := by
  intro i s t hi h
  rcases exec_outside_cases hi h with ⟨-, rfl⟩ | ⟨n, b, e, r, rfl, rfl⟩
  · exact ⟨rfl, rfl, rfl, rfl, rfl, rfl, rfl, rfl, fun _ => ⟨rfl, rfl, rfl⟩,
      fun hc a => (lcdEffect_storesNothing s.lcd hc).readDdram a⟩
  · exact ⟨s.latchByte_cfg _, s.latchByte_block _, s.latchByte_text _, s.latchByte_script _, s.latchByte_pins _,
      s.latchByte_initDone _, s.latchByte_trace _, s.latchByte_xpBus _, fun hx => absurd rfl (hx n b e r),
      fun _ a => (s.latchByte_storesNothing _).readDdram a⟩

/-! ### GOTO's byte -/

/-- A command byte with bit 7 set is a Set-DDRAM-Address, its address the other seven bits (R80). -/
theorem decodeCommand_of_bit7 {b : Byte} (h : b.getLsbD 7 = true) :
    decodeCommand b = .ok (.lcdSetDdramAddress (b.extractLsb' 0 7)) := by
  revert b; decide

/-- Row 1's byte: bit 7, and the column offset modulo 128 as the address. -/
theorem or80_setAddress (x : Byte) :
    (x ||| 0x80).getLsbD 7 = true ∧ ((x ||| 0x80).extractLsb' 0 7).toNat = x.toNat % 128 := by
  revert x; decide

/-- Row 2's byte: bit 7, and the column offset modulo 64 in the second row's addresses. -/
theorem orC0_setAddress (x : Byte) :
    (x ||| 0xC0).getLsbD 7 = true ∧ ((x ||| 0xC0).extractLsb' 0 7).toNat = 64 + x.toNat % 64 := by
  revert x; decide

theorem columnOffset_toNat {col : Byte} (h : 1 ≤ col.toNat) : (columnOffset col).toNat = col.toNat - 1 :=
  BitVec.toNat_sub_of_le h

/-- GOTO has a byte for rows 1 and 2 only, and it sets the address (R162, R163). -/
theorem gotoByte_cases {row col b : Byte} (h : gotoByte row col = some b) :
    b.getLsbD 7 = true ∧
      (row = 1 ∧ (b.extractLsb' 0 7).toNat = (columnOffset col).toNat % 128 ∨
        row = 2 ∧ (b.extractLsb' 0 7).toNat = 64 + (columnOffset col).toNat % 64) := by
  simp only [gotoByte] at h
  split at h
  · rename_i hr
    cases h
    obtain ⟨h7, ha⟩ := or80_setAddress (columnOffset col)
    exact ⟨h7, .inl ⟨hr, ha⟩⟩
  · split at h
    · rename_i hr
      cases h
      obtain ⟨h7, ha⟩ := orC0_setAddress (columnOffset col)
      exact ⟨h7, .inr ⟨hr, ha⟩⟩
    · cases h

/-- The address GOTO sets for a row of the panel and a column of its 40 (R162). -/
theorem gotoByte_address {row col b : Byte} (h : gotoByte row col = some b) (h1 : 1 ≤ col.toNat) (h40 : col.toNat ≤ 40) :
    (b.extractLsb' 0 7).toNat = 64 * (row.toNat - 1) + (col.toNat - 1) := by
  have hc := columnOffset_toNat h1
  obtain ⟨-, ⟨rfl, ha⟩ | ⟨rfl, ha⟩⟩ := gotoByte_cases h
  · simp only [ha, hc, BitVec.reduceToNat]
    omega
  · simp only [ha, hc, BitVec.reduceToNat]
    omega

/-- At shift offset 0 a position shows its own column of its row (R43). -/
theorem Lcd.shownAddress_of_shift_zero {l : Lcd} (h : l.shift = .is 0) (r : Fin panelRows) (k : Fin visibleColumns) :
    l.shownAddress r k = .is (BitVec.ofNat 7 (64 * r.val + k.val)) := by
  have hk := k.isLt
  simp only [visibleColumns] at hk
  rw [l.shownAddress_of_shift 0 r k h, if_pos (by simp only [rowLength]; omega)]
  simp [rowBase]

theorem Lcd.inWindow_of_shown {l : Lcd} {r : Fin panelRows} {k : Fin visibleColumns} {a : DdramAddr}
    (h : l.shownAddress r k = .is a) : l.inWindow a = true :=
  decide_eq_true ⟨r, k, h⟩

/-- At shift offset 0 an address past the sixteenth of its row is outside the window (R43). -/
theorem Lcd.not_inWindow_of_shift_zero {l : Lcd} (h : l.shift = .is 0) {a : DdramAddr} (ha : 16 ≤ a.toNat % 64) :
    l.inWindow a = false := by
  refine decide_eq_false ?_
  rintro ⟨r, k, hrk⟩
  rw [Lcd.shownAddress_of_shift_zero h, Known.is.injEq] at hrk
  have hr := r.isLt
  have hk := k.isLt
  simp only [panelRows, visibleColumns] at hr hk
  rw [← hrk, BitVec.toNat_ofNat] at ha
  omega

/-- Settles O45: the byte's bit 7 makes it a Set-DDRAM-Address, and `gotoByte_address` places its address in or past the
window at offset 0. -/
theorem gotoByteIsASetAddressCommand : Obligations.GotoByteIsASetAddressCommand := by
  intro row col b h
  obtain ⟨h7, -⟩ := gotoByte_cases h
  have haddr := gotoByte_address h
  refine ⟨h7, b.extractLsb' 0 7, decodeCommand_of_bit7 h7, fun ⟨h1, h40⟩ => ⟨?_, ?_⟩,
    fun l hl => ⟨fun r k hr hk => ?_, fun ⟨h17, h40⟩ => ?_⟩⟩
  · rintro rfl
    simpa using haddr h1 h40
  · rintro rfl
    simpa using haddr h1 h40
  · have hshown : l.shownAddress r k = .is (b.extractLsb' 0 7) := by
      rw [Lcd.shownAddress_of_shift_zero hl, Known.is.injEq]
      apply BitVec.eq_of_toNat_eq
      rw [haddr (by omega) (by omega), BitVec.toNat_ofNat]
      omega
    exact ⟨hshown, Lcd.inWindow_of_shown hshown⟩
  · refine Lcd.not_inWindow_of_shift_zero hl ?_
    rw [haddr (by omega) h40]
    omega

end Sys2Proof.Machine

/-! # Runs: an operation offered to a ready block, turn after turn, until the block is idle again -/

namespace Sys2Proof.Machine

/-! ### An operation's word decodes to it -/

/-- The operation a word encodes is the one the block takes it for (R70 to R72). -/
theorem decode_of_encode_op {i : Instr} {w : OpWord} (h : encode i = .op w) : decode (.op w) = .ok i := by
  cases i <;> cases h
  case dispctl d c b => revert d c b; decide
  case shift dir => revert dir; decide
  case backlight v => revert v; decide
  all_goals simp [decode, decodeOp, decodeOperands]

/-! ### A busy block, and what a stretch of its turns leaves -/

/-- The block runs operation `i`, every event it has issued has completed, and the host only has words to offer. -/
structure Running (i : Instr) (s : State) : Prop where
  inBounds : s.cfg.inBounds = true
  quiet : s.quiet
  run : s.block.run = true
  word : decode (.op s.block.opl) = .ok i
  offers : onlyOffers s.script

/-- Turns of operation `i` have taken `s` to `t`, where everything issued has completed: the trace has grown by `es`,
`BL` is as the operation leaves it, and what no operation writes is as it was. -/
structure Progress (i : Instr) (es : List Event) (s t : State) : Prop where
  cfg : t.cfg = s.cfg
  text : t.text = s.text
  script : t.script = s.script
  opl : t.block.opl = s.block.opl
  bl : t.block.bl = blAfter s.block.bl i
  trace : t.trace = s.trace ++ es
  quiet : t.quiet

theorem Progress.trans {i : Instr} {es fs : List Event} {s t u : State} (h : Progress i es s t)
    (k : Progress i fs t u) : Progress i (es ++ fs) s u where
  cfg := k.cfg.trans h.cfg
  text := k.text.trans h.text
  script := k.script.trans h.script
  opl := k.opl.trans h.opl
  bl := by rw [k.bl, h.bl, blAfter_idem]
  trace := by rw [k.trace, h.trace, List.append_assoc]
  quiet := k.quiet

/-- As long as the block stays busy it goes on with the same operation. -/
theorem Running.progress {i : Instr} {es : List Event} {s t : State} (h : Running i s) (p : Progress i es s t)
    (hr : t.block.run = true) : Running i t where
  inBounds := by rw [p.cfg]; exact h.inBounds
  quiet := p.quiet
  run := hr
  word := by rw [p.opl]; exact h.word
  offers := by rw [p.script]; exact h.offers

/-- A turn of the operation, and steps after it. The first turn stands apart because acceptance runs it too (log 12). -/
def Turns (i : Instr) (s u : State) : Prop := ∃ t n, exec i s = .next t ∧ steps n t = .next u

theorem Turns.trans {i : Instr} {s t u : State} (h : Turns i s t) (ht : Running i t) (k : Turns i t u) : Turns i s u := by
  obtain ⟨s', n, hs, hn⟩ := h
  obtain ⟨t', m, ht', hm⟩ := k
  have hstep : step t = .next t' := (step_of_busy t i ht.inBounds ht.quiet ht.run ht.offers ht.word).trans ht'
  refine ⟨s', n + (1 + m), hs, ?_⟩
  rw [steps_add n _ _ _ hn, steps_add 1 _ _ _ (steps_one _ _ hstep), hm]

/-- A turn that issues `e` and writes the block's latches, followed by the steps in which `e` completes (R60). -/
theorem turns_of_emit {i : Instr} {s : State} {e : Event} {bl d : Bool} {b : Block} (h : Running i s)
    (hexec : exec i s = .next { s.emit e with block := b, initDone := d })
    (he : Emitted s.cfg bl e ∨ ∃ a v, e = .textRead a v) (hopl : b.opl = s.block.opl)
    (hbl : b.bl = blAfter s.block.bl i) :
    ∃ u, Turns i s u ∧ Progress i [e] s u ∧ u.block = b ∧ u.initDone = d := by
  have hbus : ∀ v, (s.emit e).xpBus = some v → (s.emit e).cfg.transport = .expander ∧ v.getLsbD 1 = false := by
    rw [s.emit_cfg]
    rcases he with he | ⟨a, v, rfl⟩
    · exact emit_xpBus s e bl he h.quiet.2
    · simp [h.quiet.2]
  have hin : (s.emit e).cfg.inBounds = true := by rw [s.emit_cfg]; exact h.inBounds
  obtain ⟨n, u, hn, hq, hs⟩ := drain { s.emit e with block := b, initDone := d } hin hbus
  refine ⟨u, ⟨_, n, hexec, hn⟩, ⟨?_, ?_, ?_, ?_, ?_, ?_, hq⟩, hs.block, hs.initDone⟩
  · exact hs.cfg.trans (s.emit_cfg e)
  · exact hs.text.trans (s.emit_text e)
  · exact hs.script.trans (s.emit_script e)
  · rw [hs.block, hopl]
  · rw [hs.block, hbl]
  · exact hs.trace.trans (s.emit_trace e)

/-! ### Operations other than PRINT -/

/-- One turn of an operation other than PRINT, its event completed (R11, R60, R76). -/
theorem turn_of_expansion {i : Instr} {s : State} {e : Event} (h : Running i s) (hp : i.isPrint = false)
    (hw : i.wf s.cfg.transport = true) (h0 : s.block.pos = 0 ∨ s.block.bl = blAfter s.block.bl i)
    (he : (expansion s.cfg s.block.bl i)[s.block.pos]? = some e) :
    ∃ u, Turns i s u ∧ Progress i [e] s u ∧
      if s.block.pos + 1 < (expansion s.cfg s.block.bl i).length then
        u.block.run = true ∧ u.block.pos = s.block.pos + 1
      else u.block.run = false ∧ (i = .init → u.initDone = true) := by
  obtain ⟨d, hexec, hd⟩ := exec_of_operation i s (decode_op_isOperation h.word) hp hw h0
  have hem := emitted_of_expansion hw (List.mem_of_getElem? he)
  have hemit : (s.setBl (blAfter s.block.bl i)).emit e =
      { s.emit e with block := (s.setBl (blAfter s.block.bl i)).block } := s.emit_withBlock e _
  have hissue := State.issue_of_get (s.setBl (blAfter s.block.bl i)) _ e he
  by_cases hl : s.block.pos + 1 < (expansion s.cfg s.block.bl i).length
  · rw [State.setBl_pos, if_pos hl, hemit] at hissue
    simp only [hissue] at hexec
    obtain ⟨u, hu, hpr, hub, -⟩ := turns_of_emit h hexec (.inl hem) rfl rfl
    refine ⟨u, hu, hpr, ?_⟩
    rw [if_pos hl, hub]
    exact ⟨h.run, rfl⟩
  · rw [State.setBl_pos, if_neg hl, hemit] at hissue
    simp only [hissue] at hexec hd
    obtain ⟨u, hu, hpr, hub, hud⟩ := turns_of_emit h hexec (.inl hem) rfl rfl
    refine ⟨u, hu, hpr, ?_⟩
    rw [if_neg hl, hub, hud]
    exact ⟨rfl, fun hi => hd hi rfl⟩

/-- From any position of its expansion an operation other than PRINT issues the rest and becomes idle. -/
theorem turns_to_idle {i : Instr} (hp : i.isPrint = false) {s : State} (h : Running i s)
    (hw : i.wf s.cfg.transport = true) (h0 : s.block.pos = 0 ∨ s.block.bl = blAfter s.block.bl i) :
    ∃ u, Turns i s u ∧ u.ready ∧ Progress i ((expansion s.cfg s.block.bl i).drop s.block.pos) s u ∧
      (i = .init → u.initDone = true) := by
  induction hk : (expansion s.cfg s.block.bl i).length - s.block.pos generalizing s with
  | zero =>
    have hend : (expansion s.cfg s.block.bl i).length ≤ s.block.pos := by omega
    obtain ⟨d, hexec, hd⟩ := exec_of_operation i s (decode_op_isOperation h.word) hp hw h0
    simp only [State.issue_of_end (s.setBl (blAfter s.block.bl i)) _ (List.getElem?_eq_none hend)] at hexec hd
    refine ⟨_, ⟨_, 0, hexec, rfl⟩, ⟨h.quiet, rfl⟩, ⟨rfl, rfl, rfl, rfl, rfl, ?_, h.quiet⟩, fun hi => hd hi rfl⟩
    simp [List.drop_eq_nil_of_le hend]
  | succ k ih =>
    have hlt : s.block.pos < (expansion s.cfg s.block.bl i).length := by omega
    have he := List.getElem?_eq_getElem hlt
    obtain ⟨u, hu, hpr, hend⟩ := turn_of_expansion h hp hw h0 he
    rw [List.drop_eq_getElem_cons hlt]
    split at hend
    · obtain ⟨hr, hpos⟩ := hend
      have hexp : expansion u.cfg u.block.bl i = expansion s.cfg s.block.bl i := by
        rw [hpr.cfg, hpr.bl, expansion_blAfter]
      have hrun := h.progress hpr hr
      obtain ⟨v, hv, hready, hpv, hdone⟩ := ih hrun (by rw [hpr.cfg]; exact hw)
        (.inr (by rw [hpr.bl, blAfter_idem])) (by rw [hexp, hpos]; omega)
      rw [hexp, hpos] at hpv
      exact ⟨v, hu.trans hrun hv, hready, hpr.trans hpv, hdone⟩
    · obtain ⟨hr, hdone⟩ := hend
      refine ⟨u, hu, ⟨hpr.quiet, hr⟩, ?_, hdone⟩
      rw [List.drop_eq_nil_of_le (by omega)]
      exact hpr

/-! ### Acceptance -/

/-- A ready block that accepts a word runs its operation from the first event on (R26, R76). -/
theorem running_of_accept {s : State} {i : Instr} {w : OpWord} {rest : List HostAct} (hb : s.cfg.inBounds = true)
    (hq : s.ready) (ho : onlyOffers rest) (hd : decode (.op w) = .ok i) :
    Running i (State.accept { s with script := rest } w i) :=
  ⟨hb, hq.1, rfl, hd, ho⟩

theorem steps_of_accept {s u : State} {i : Instr} {w : OpWord} {rest : List HostAct} (hb : s.cfg.inBounds = true)
    (hq : s.ready) (hs : s.script = .offer w :: rest) (hd : decode (.op w) = .ok i)
    (h : Turns i (State.accept { s with script := rest } w i) u) : ∃ n, steps n s = .next u := by
  obtain ⟨t, n, ht, hn⟩ := h
  refine ⟨1 + n, ?_⟩
  rw [steps_add 1 _ _ _ (steps_one _ _ ((step_of_offer s i w rest hb hq hs hd).trans ht)), hn]

/-- Settles O51: acceptance starts the expansion, and `turns_to_idle` runs it out. -/
theorem operationRunsToIdle : Obligations.OperationRunsToIdle := by
  intro s i w rest hb hw hp henc hq hs ho
  have hd := decode_of_encode_op henc
  obtain ⟨t, hturns, hready, hpr, hdone⟩ := turns_to_idle hp (running_of_accept hb hq ho hd) hw (.inl rfl)
  obtain ⟨n, hn⟩ := steps_of_accept hb hq hs hd hturns
  exact ⟨n, t, hn, hready, hpr.script, hpr.trace, hpr.bl, hpr.text, hpr.cfg, hdone⟩

/-! ### PRINT -/

/-- PRINT's read of a character, completed (R170). -/
theorem turn_of_printRead {ta : TextAddr} {s : State} (h : Running (.print ta) s) (h0 : s.block.pos = 0) :
    ∃ u, Turns (.print ta) s u ∧
      Progress (.print ta) [.textRead s.block.tp (s.readText s.block.tp)] s u ∧
      if s.readText s.block.tp = 0 then u.block.run = false
      else u.block.run = true ∧ u.block.pos = 1 ∧ u.block.tp = s.block.tp ∧ u.block.ch = s.readText s.block.tp := by
  have hexec : exec (.print ta) s = .next s.printRead := by simp only [exec, execPrint, if_pos h0]
  by_cases hv : s.readText s.block.tp = 0
  · have hread : s.printRead =
        ((s.emit (.textRead s.block.tp (s.readText s.block.tp))).setCh (s.readText s.block.tp)).idle := if_pos hv
    obtain ⟨u, hu, hpr, hub, -⟩ :=
      turns_of_emit (bl := s.block.bl) h (hexec.trans (congrArg _ hread)) (.inr ⟨_, _, rfl⟩) rfl rfl
    refine ⟨u, hu, hpr, ?_⟩
    rw [if_pos hv, hub]
  · have hread : s.printRead =
        ((s.emit (.textRead s.block.tp (s.readText s.block.tp))).setCh (s.readText s.block.tp)).setPos 1 := if_neg hv
    obtain ⟨u, hu, hpr, hub, -⟩ :=
      turns_of_emit (bl := s.block.bl) h (hexec.trans (congrArg _ hread)) (.inr ⟨_, _, rfl⟩) rfl rfl
    refine ⟨u, hu, hpr, ?_⟩
    rw [if_neg hv, hub]
    exact ⟨h.run, rfl, rfl, rfl⟩

/-- One event of `data(CH)`, completed; the last one brings PRINT to the next address (R170, R174). -/
theorem turn_of_printData {ta : TextAddr} {s : State} {k : Nat} {e : Event} (h : Running (.print ta) s)
    (hk : s.block.pos = k + 1) (he : (data s.cfg s.block.bl s.block.ch)[k]? = some e) :
    ∃ u, Turns (.print ta) s u ∧ Progress (.print ta) [e] s u ∧ u.block.run = true ∧
      if k + 1 < (data s.cfg s.block.bl s.block.ch).length then
        u.block.pos = k + 2 ∧ u.block.tp = s.block.tp ∧ u.block.ch = s.block.ch
      else u.block.pos = 0 ∧ u.block.tp = nextTextAddr s.block.tp := by
  have hexec : exec (.print ta) s = .next s.printData := by
    simp only [exec, execPrint, if_neg (show s.block.pos ≠ 0 by omega)]
  have hem := emitted_of_data (List.mem_of_getElem? he)
  have hdata : s.printData =
      if k + 1 < (data s.cfg s.block.bl s.block.ch).length then (s.emit e).setPos (k + 2)
      else (s.emit e).nextCharacter := by
    simp [State.printData, hk, he]
  by_cases hl : k + 1 < (data s.cfg s.block.bl s.block.ch).length
  · rw [hdata, if_pos hl] at hexec
    obtain ⟨u, hu, hpr, hub, -⟩ := turns_of_emit h hexec (.inl hem) (by simp) (by simp [blAfter])
    refine ⟨u, hu, hpr, ?_⟩
    rw [if_pos hl, hub, s.emit_block]
    exact ⟨h.run, rfl, rfl, rfl⟩
  · rw [hdata, if_neg hl] at hexec
    obtain ⟨u, hu, hpr, hub, -⟩ := turns_of_emit h hexec (.inl hem) (by simp) (by simp [blAfter])
    refine ⟨u, hu, hpr, ?_⟩
    rw [if_neg hl, hub]
    simp [h.run]

/-- From any event of `data(CH)` PRINT issues the rest of them and goes on to the next address. -/
theorem turns_of_printData {ta : TextAddr} {s : State} {k : Nat} (h : Running (.print ta) s)
    (hk : s.block.pos = k + 1) (hlt : k < (data s.cfg s.block.bl s.block.ch).length) :
    ∃ u, Turns (.print ta) s u ∧ Progress (.print ta) ((data s.cfg s.block.bl s.block.ch).drop k) s u ∧
      u.block.run = true ∧ u.block.pos = 0 ∧ u.block.tp = nextTextAddr s.block.tp := by
  induction hm : (data s.cfg s.block.bl s.block.ch).length - k generalizing s k with
  | zero => omega
  | succ m ih =>
    obtain ⟨u, hu, hpr, hr, hend⟩ := turn_of_printData h hk (List.getElem?_eq_getElem hlt)
    rw [List.drop_eq_getElem_cons hlt]
    split at hend
    · rename_i hl
      obtain ⟨hpos, htp, hch⟩ := hend
      have hdata : data u.cfg u.block.bl u.block.ch = data s.cfg s.block.bl s.block.ch := by
        rw [hpr.cfg, hpr.bl, hch]; rfl
      have hrun := h.progress hpr hr
      obtain ⟨v, hv, hpv, hrv, hposv, htpv⟩ := ih hrun hpos (by rw [hdata]; exact hl) (by rw [hdata]; omega)
      rw [hdata] at hpv
      exact ⟨v, hu.trans hrun hv, hpr.trans hpv, hrv, hposv, by rw [htpv, htp]⟩
    · rw [List.drop_eq_nil_of_le (by omega)]
      exact ⟨u, hu, hpr, hr, hend⟩

/-- PRINT reads one character that is not 0x00, sends it, and is about to read the next (R170, R174). -/
theorem turns_of_character {ta : TextAddr} {s : State} (h : Running (.print ta) s) (h0 : s.block.pos = 0)
    (hch : s.readText s.block.tp ≠ 0) :
    ∃ u, Turns (.print ta) s u ∧
      Progress (.print ta) (.textRead s.block.tp (s.readText s.block.tp) ::
        data s.cfg s.block.bl (s.readText s.block.tp)) s u ∧
      u.block.run = true ∧ u.block.pos = 0 ∧ u.block.tp = nextTextAddr s.block.tp := by
  obtain ⟨t, ht, hpt, hend⟩ := turn_of_printRead h h0
  rw [if_neg hch] at hend
  obtain ⟨hrt, hpos, htp, hcht⟩ := hend
  have hrun := h.progress hpt hrt
  have hdata : data t.cfg t.block.bl t.block.ch = data s.cfg s.block.bl (s.readText s.block.tp) := by
    rw [hpt.cfg, hpt.bl, hcht]; rfl
  obtain ⟨u, hu, hpu, hru, hposu, htpu⟩ := turns_of_printData hrun hpos (data_ne_nil ..)
  rw [hdata, List.drop_zero] at hpu
  exact ⟨u, ht.trans hrun hu, hpt.trans hpu, hru, hposu, by rw [htpu, htp]⟩

/-- What TEXT reads as is a matter of its cells alone. -/
theorem State.readText_congr {s t : State} (h : t.text = s.text) (a : TextAddr) : t.readText a = s.readText a := by
  simp only [State.readText, h]

/-- Two states whose TEXT reads the same hold the same strings. -/
theorem State.holdsChars_congr {s t : State} (h : ∀ a, t.readText a = s.readText a) {a : TextAddr} {chs : List Byte}
    (hs : s.holdsChars a chs) : t.holdsChars a chs := by
  induction chs generalizing a with
  | nil => trivial
  | cons ch chs ih =>
    obtain ⟨hread, hne, hrest⟩ := hs
    exact ⟨(h a).trans hread, hne, ih hrest⟩

theorem textAddrAfter_zero (a : TextAddr) : textAddrAfter a 0 = a := by simp [textAddrAfter]
theorem textAddrAfter_succ (a : TextAddr) (k : Nat) : textAddrAfter a (k + 1) = textAddrAfter (nextTextAddr a) k := by
  simp only [textAddrAfter, nextTextAddr, Nat.add_comm k 1, BitVec.ofNat_add, ← BitVec.add_assoc]
  rfl

/-- PRINT sends the string at `TP`, reads its terminator and becomes idle (R170, R171, R174). -/
theorem turns_of_string {ta : TextAddr} {s : State} {chs : List Byte} (h : Running (.print ta) s)
    (h0 : s.block.pos = 0) (hc : s.holdsChars s.block.tp chs) (hz : s.readText (textAddrAfter s.block.tp chs.length) = 0) :
    ∃ u, Turns (.print ta) s u ∧ u.ready ∧
      Progress (.print ta) (printEvents s.cfg s.block.bl s.block.tp chs) s u := by
  induction chs generalizing s with
  | nil =>
    rw [List.length_nil, textAddrAfter_zero] at hz
    obtain ⟨u, hu, hpr, hr⟩ := turn_of_printRead h h0
    rw [if_pos hz] at hr
    rw [hz] at hpr
    exact ⟨u, hu, ⟨hpr.quiet, hr⟩, hpr⟩
  | cons ch chs ih =>
    obtain ⟨hread, hne, hrest⟩ := hc
    rw [List.length_cons, textAddrAfter_succ] at hz
    obtain ⟨t, ht, hpt, hrt, hpos, htp⟩ := turns_of_character h h0 (hread ▸ hne)
    have hrun := h.progress hpt hrt
    have htext := State.readText_congr hpt.text
    obtain ⟨u, hu, hready, hpu⟩ := ih hrun hpos (by rw [htp]; exact State.holdsChars_congr htext hrest)
      (by rw [htp, htext]; exact hz)
    rw [hpt.cfg, hpt.bl, htp] at hpu
    rw [hread] at hpt
    exact ⟨u, ht.trans hrun hu, hready, hpt.trans hpu⟩

/-- Settles O52: acceptance loads `TP`, and `turns_of_string` prints from there. -/
theorem printRunsToItsTerminator : Obligations.PrintRunsToItsTerminator := by
  intro s ta w chs rest hb henc hq hs ho hc hz
  have hd := decode_of_encode_op henc
  have hc' : (State.accept { s with script := rest } w (.print ta)).holdsChars ta chs :=
    State.holdsChars_congr (s := s) (t := State.accept { s with script := rest } w (.print ta)) (fun _ => rfl) hc
  obtain ⟨t, hturns, hready, hpr⟩ := turns_of_string (running_of_accept hb hq ho hd) rfl hc' hz
  obtain ⟨n, hn⟩ := steps_of_accept hb hq hs hd hturns
  exact ⟨n, t, hn, hready, hpr.script, hpr.trace, hpr.bl, hpr.text⟩

/-! ### History -/

/-- A byte 0x00 somewhere from an address on ends a string there. -/
theorem exists_string_of_terminator (s : State) {a : TextAddr} {k : Nat} (h : s.readText (textAddrAfter a k) = 0) :
    ∃ chs, s.holdsChars a chs ∧ s.readText (textAddrAfter a chs.length) = 0 := by
  induction k generalizing a with
  | zero => exact ⟨[], trivial, h⟩
  | succ k ih =>
    by_cases h0 : s.readText a = 0
    · exact ⟨[], trivial, by rw [List.length_nil, textAddrAfter_zero]; exact h0⟩
    · obtain ⟨chs, hc, hz⟩ := ih (by rw [← textAddrAfter_succ]; exact h)
      exact ⟨s.readText a :: chs, ⟨rfl, h0, hc⟩, by rw [List.length_cons, textAddrAfter_succ]; exact hz⟩

theorem eq_print_of_isPrint {i : Instr} (h : i.isPrint = true) : ∃ ta, i = .print ta := by
  cases i
  case print ta => exact ⟨ta, rfl⟩
  all_goals cases h

/-- Settles O54: both runs add the expansion (O51), or the events of one string (O52), which do not depend on what ran
before. -/
theorem operationsForgetHistory : Obligations.OperationsForgetHistory := by
  intro s u i w hb hw henc hqs hqu hcfg hbl hss hsu htext
  cases hp : i.isPrint with
  | false =>
    obtain ⟨n, t, hn, ht, hts, htr, htb, -⟩ := operationRunsToIdle s i w [] hb hw hp henc hqs hss nofun
    obtain ⟨m, v, hm, hv, hvs, hvr, hvb, -⟩ :=
      operationRunsToIdle u i w [] (hcfg ▸ hb) (hcfg ▸ hw) hp henc hqu hsu nofun
    rw [hcfg, hbl] at hvr
    exact ⟨n, m, t, v, _, hn, hm, ht, hv, hts, hvs, htr, hvr, by rw [htb, hvb, hbl], fun _ => rfl⟩
  | true =>
    obtain ⟨ta, rfl⟩ := eq_print_of_isPrint hp
    obtain ⟨hread, k, hk⟩ := htext ta rfl
    obtain ⟨chs, hc, hz⟩ := exists_string_of_terminator s hk
    obtain ⟨n, t, hn, ht, hts, htr, htb, -⟩ := printRunsToItsTerminator s ta w chs [] hb henc hqs hss nofun hc hz
    obtain ⟨m, v, hm, hv, hvs, hvr, hvb, -⟩ := printRunsToItsTerminator u ta w chs [] (hcfg ▸ hb) henc hqu hsu nofun
      (State.holdsChars_congr hread hc) ((hread _).trans hz)
    rw [hcfg, hbl] at hvr
    exact ⟨n, m, t, v, _, hn, hm, ht, hv, hts, hvs, htr, hvr, by rw [htb, hvb, hbl], nofun⟩

end Sys2Proof.Machine

/-! # What a turn of an operation writes, said once, and the invariants every step keeps -/

namespace Sys2Proof.Machine

/-! ### A turn of an operation -/

/-- What a turn of operation `i` may leave in the block's latches and the ghost flag, `BL` apart (R26, R216). -/
structure Latched (i : Instr) (s : State) (b : Block) (d : Bool) : Prop where
  opl : b.opl = s.block.opl
  printLatches : i.isPrint = false → b.tp = s.block.tp ∧ b.ch = s.block.ch
  initDone : i ≠ .init → d = s.initDone
  position : b.run = true → i.wf s.cfg.transport = true ∧
    if i.isPrint then b.pos ≤ (data s.cfg b.bl b.ch).length else b.pos < (expansion s.cfg b.bl i).length

/-- A turn of operation `i`: it issues nothing, or one event of the transport's shape, or reads TEXT. `BL` changes only with
BACKLIGHT's own write (R21, R150). -/
inductive OpTurn (i : Instr) (s : State) : State → Prop
  | silent (b : Block) (d : Bool) : Latched i s b d → b.bl = s.block.bl → OpTurn i s { s with block := b, initDone := d }
  | issues (e : Event) (b : Block) (d : Bool) : Latched i s b d → Emitted s.cfg b.bl e →
      (b.bl = s.block.bl ∨ i = .backlight b.bl ∧ ∃ v, e = .i2cWrite s.cfg.i2cAddr v) →
      OpTurn i s { s.emit e with block := b, initDone := d }
  | reads (a : TextAddr) (v : Byte) (b : Block) (d : Bool) : Latched i s b d → b.bl = s.block.bl →
      OpTurn i s { s with block := b, initDone := d, trace := s.trace ++ [.textRead a v] }

/-- BACKLIGHT's first event is its write. -/
theorem backlightEvents_first {c : Config} {bl : Bool} {e : Event} (h : (backlightEvents c bl)[0]? = some e) :
    e = .i2cWrite c.i2cAddr (bitAt 3 bl) := by
  simpa [backlightEvents] using h.symm

theorem backlightEvents_ne_nil (c : Config) (bl : Bool) : 0 < (backlightEvents c bl).length := by simp [backlightEvents]

/-- A turn that writes `BL` as its operation does and issues from a list of its expansion's length. -/
theorem OpTurn.of_issue {i : Instr} {s : State} {b d : Bool} {evs : List Event} (hp : i.isPrint = false)
    (hw : i.wf s.cfg.transport = true)
    (hb : b = s.block.bl ∨ i = .backlight b ∧ s.block.pos = 0 ∧ evs = backlightEvents s.cfg b)
    (hd : i ≠ .init → d = s.initDone) (hlen : evs.length = (expansion s.cfg b i).length)
    (hev : ∀ e ∈ evs, Emitted s.cfg b e) : OpTurn i s { (s.setBl b).issue evs with initDone := d } := by
  have hemit : ∀ e, (s.setBl b).emit e = { s.emit e with block := (s.setBl b).block } := fun e => s.emit_withBlock e _
  have hwrite : ∀ e, evs[s.block.pos]? = some e →
      b = s.block.bl ∨ i = .backlight b ∧ ∃ v, e = .i2cWrite s.cfg.i2cAddr v := by
    intro e he
    refine hb.imp_right fun ⟨hi, h0, hevs⟩ => ⟨hi, _, backlightEvents_first (bl := b) ?_⟩
    rw [← hevs, ← h0]
    exact he
  rcases (s.setBl b).issue_cases evs with ⟨hend, h⟩ | ⟨e, hm, hlt, he, h⟩ | ⟨e, hm, -, he, h⟩
  · have hbl : b = s.block.bl := hb.resolve_right fun ⟨_, h0, hevs⟩ => by
      rw [hevs, State.setBl_pos, h0] at hend
      exact absurd (backlightEvents_ne_nil s.cfg b) (by omega)
    rw [h]
    exact .silent (s.setBl b).idle.block d ⟨rfl, fun _ => ⟨rfl, rfl⟩, hd, nofun⟩ hbl
  · rw [h, hemit]
    refine .issues e ((s.setBl b).setPos (s.block.pos + 1)).block d
      ⟨rfl, fun _ => ⟨rfl, rfl⟩, hd, fun _ => ⟨hw, ?_⟩⟩ (hev e hm) (hwrite e he)
    rw [hp]
    exact hlen ▸ hlt
  · rw [h, hemit]
    exact .issues e (s.setBl b).idle.block d ⟨rfl, fun _ => ⟨rfl, rfl⟩, hd, nofun⟩ (hev e hm) (hwrite e he)

theorem OpTurn.of_printRead (ta : TextAddr) (s : State) : OpTurn (.print ta) s s.printRead := by
  by_cases hv : s.readText s.block.tp = 0
  · rw [show s.printRead = _ from if_pos hv]
    exact .reads s.block.tp (s.readText s.block.tp) (s.setCh (s.readText s.block.tp)).idle.block s.initDone
      ⟨rfl, nofun, fun _ => rfl, nofun⟩ rfl
  · rw [show s.printRead = _ from if_neg hv]
    exact .reads s.block.tp (s.readText s.block.tp) ((s.setCh (s.readText s.block.tp)).setPos 1).block s.initDone
      ⟨rfl, nofun, fun _ => rfl, fun _ => ⟨rfl, data_ne_nil ..⟩⟩ rfl

theorem OpTurn.of_printData (ta : TextAddr) (s : State) : OpTurn (.print ta) s s.printData := by
  have hnext : ∀ d, d = s.initDone → Latched (.print ta) s s.nextCharacter.block d := fun d hd =>
    ⟨rfl, nofun, fun _ => hd, fun _ => ⟨rfl, Nat.zero_le _⟩⟩
  have hpos (h : s.block.pos < (data s.cfg s.block.bl s.block.ch).length) :
      Latched (.print ta) s (s.setPos (s.block.pos + 1)).block s.initDone :=
    ⟨rfl, nofun, fun _ => rfl, fun _ => ⟨rfl, h⟩⟩
  simp only [State.printData]
  split
  · exact .silent s.nextCharacter.block s.initDone (hnext _ rfl) rfl
  · rename_i e he
    have hem := emitted_of_data (List.mem_of_getElem? he)
    split
    · rename_i hl
      rw [show (s.emit e).setPos (s.block.pos + 1) =
        { s.emit e with block := (s.setPos (s.block.pos + 1)).block, initDone := s.initDone } by simp [State.setPos]]
      exact .issues e _ _ (hpos hl) hem (.inl rfl)
    · rw [show (s.emit e).nextCharacter =
        { s.emit e with block := s.nextCharacter.block, initDone := s.initDone } by
          simp [State.nextCharacter, State.setTp, State.setPos]]
      exact .issues e _ _ (hnext _ rfl) hem (.inl rfl)

/-- Everything a turn of an operation can do. -/
theorem exec_op_turn {i : Instr} {s t : State} (hi : i.isOperation = true) (h : exec i s = .next t) : OpTurn i s t := by
  rcases exec_op_cases hi h with ⟨hp, hpr⟩ | ⟨hp, hw, b, d, evs, rfl, hb, hd, hlen, hev⟩
  · obtain ⟨ta, rfl⟩ := eq_print_of_isPrint hp
    rcases hpr with ⟨-, rfl⟩ | ⟨-, rfl⟩
    · exact .of_printRead ta s
    · exact .of_printData ta s
  · exact .of_issue hp hw hb hd hlen hev

theorem OpTurn.cfg {i : Instr} {s t : State} (h : OpTurn i s t) : t.cfg = s.cfg := by
  cases h with
  | silent | reads => rfl
  | issues e => exact s.emit_cfg e

theorem OpTurn.text {i : Instr} {s t : State} (h : OpTurn i s t) : t.text = s.text := by
  cases h with
  | silent | reads => rfl
  | issues e => exact s.emit_text e

theorem OpTurn.script {i : Instr} {s t : State} (h : OpTurn i s t) : t.script = s.script := by
  cases h with
  | silent | reads => rfl
  | issues e => exact s.emit_script e

theorem OpTurn.xp {i : Instr} {s t : State} (h : OpTurn i s t) : t.xp = s.xp := by
  cases h with
  | silent | reads => rfl
  | issues e => exact s.emit_xp e

theorem OpTurn.latched {i : Instr} {s t : State} (h : OpTurn i s t) : Latched i s t.block t.initDone := by
  cases h with
  | silent _ _ hl | reads _ _ _ _ hl | issues _ _ _ hl => exact hl

/-- Only BACKLIGHT writes `BL` (R21). -/
theorem OpTurn.bl {i : Instr} {s t : State} (h : OpTurn i s t) :
    t.block.bl = s.block.bl ∨ i = .backlight t.block.bl := by
  cases h with
  | silent _ _ _ hb | reads _ _ _ _ _ hb => exact .inl hb
  | issues _ _ _ _ _ hb => exact hb.imp_right And.left

/-- The latches left fit the word the block holds. -/
theorem OpTurn.block_wf {i : Instr} {s t : State} (h : OpTurn i s t) (hd : decode (.op s.block.opl) = .ok i) :
    t.block.wf t.cfg := by
  intro hr
  rw [h.latched.opl, hd, h.cfg]
  exact h.latched.position hr

/-! ### A step, by who moves -/

/-- What a step that goes on does. -/
inductive StepOutcome (s : State) : State → Prop
  /-- The controller acts on its transfer. -/
  | controller (x : Transfer) : s.lcdBus = some x → StepOutcome s { s with lcdBus := none, lcd := s.lcd.act x }
  /-- The expander latches its byte. -/
  | expander (v : Byte) : s.lcdBus = none → s.xpBus = some v → v.getLsbD 1 = false →
      StepOutcome s (State.latchByte { s with xpBus := none } v)
  /-- The host acts alone, or nobody does: at most TEXT and the script change. -/
  | host (text : List Host.Cell) (script : List HostAct) : s.quiet → (Memory.wf s.text → Memory.wf text) →
      StepOutcome s { s with text := text, script := script }
  /-- The block runs the operation it holds, perhaps one it accepts in this step. -/
  | operation (i : Instr) (b : Block) (script : List HostAct) (t : State) : s.quiet → b.bl = s.block.bl →
      decode (.op b.opl) = .ok i → OpTurn i { s with block := b, script := script } t → StepOutcome s t
  /-- The reset input. -/
  | reset (rest : List HostAct) : s.quiet → s.script = .reset :: rest →
      StepOutcome s (State.applyReset { s with script := rest })

theorem stepOutcome {s t : State} (h : step s = .next t) : StepOutcome s t := by
  obtain ⟨-, h⟩ := step_cases h
  rcases h with ⟨x, hx, rfl⟩ | ⟨v, hl, hx, -, h1, rfl⟩ | ⟨hq, -, ⟨-, rfl⟩ | ⟨n, rest, -, rfl⟩⟩ |
    ⟨hq, -, i, script, hd, hi, he, -⟩ | ⟨hq, w, rest, i, -, hd, hi, he⟩ | ⟨hq, a, v, rest, -, rfl⟩ | ⟨hq, rest, -, rfl⟩ |
    ⟨hq, rest, hs, rfl⟩
  · exact .controller x hx
  · exact .expander v hl hx h1
  · exact .host t.text t.script hq id
  · exact .host s.text _ hq id
  · exact .operation i s.block script t hq rfl hd (exec_op_turn hi he)
  · exact .operation i (s.accept w i).block rest t hq.1 rfl hd (exec_op_turn hi he)
  · exact .host _ rest hq (State.writeText_keeps_wf s a v)
  · exact .host s.text rest hq id
  · exact .reset rest hq hs

/-! ### The controller keeps its form -/

theorem Lcd.unknown_wf : Lcd.unknown.wf := ⟨⟨.nil, nofun⟩, nofun, fun h => absurd rfl h, Nat.zero_le 3⟩

theorem Lcd.unknown_wf_of_wakes {k : Nat} (h : k ≤ 3) : Lcd.wf { Lcd.unknown with wakes := k } :=
  ⟨⟨.nil, nofun⟩, nofun, fun h => absurd rfl h, h⟩

theorem Lcd.wf.forget {l : Lcd} (h : l.wf) : l.forget.wf := by
  obtain ⟨-, -, -, hw⟩ := h
  exact Lcd.unknown_wf_of_wakes hw

theorem Lcd.oneMoreWake_le (l : Lcd) : l.oneMoreWake ≤ 3 := Nat.min_le_left ..

theorem Lcd.wakesAfter_le (l : Lcd) (f : Frame) : l.wakesAfter f ≤ 3 := by
  simp only [Lcd.wakesAfter]
  split
  · exact l.oneMoreWake_le
  · exact Nat.zero_le 3

/-- After a character the counter is in a row or any value (R55, U1). -/
theorem Lcd.counterAfter_inRow {l : Lcd} {a b : DdramAddr} (h : l.counterAfter a = .is b) : inRow b = true := by
  simp only [Lcd.counterAfter] at h
  split at h
  · split at h
    · rename_i hr
      cases h
      exact hr
    · cases h
  · cases h

/-- A character changes the cells, the counter and the offset only. -/
theorem Lcd.wf.store {l : Lcd} (h : l.wf) (ch : Byte) : (l.store ch).wf := by
  obtain ⟨hm, -, hh, hw⟩ := h
  have hcells := l.store_keeps_ddramWf ch hm
  revert hcells
  simp only [Lcd.store]
  split
  · split
    · exact fun hcells => ⟨hcells, fun _ => Lcd.counterAfter_inRow, hh, hw⟩
    · exact fun hcells => ⟨hcells, nofun, hh, hw⟩
  · exact fun hcells => ⟨hcells, nofun, hh, hw⟩

/-- Set-DDRAM-Address leaves the counter in a row or any value (R56, U1). -/
theorem Lcd.wf.setAddress {l : Lcd} (h : l.wf) (a : DdramAddr) : (l.setAddress a).wf := by
  obtain ⟨hm, -, hh, hw⟩ := h
  refine ⟨hm, fun b hb => ?_, hh, hw⟩
  simp only [Lcd.setAddress] at hb
  split at hb
  · rename_i hr
    cases hb
    exact hr
  · cases hb

theorem lcdEffect_wf {l : Lcd} (h : l.wf) (i : Instr) : (lcdEffect l i).wf := by
  have inMode {f : Lcd} (hf : f.wf) : (if l.iface = .fourBit then f else l.forget).wf := by
    split
    · exact hf
    · exact h.forget
  cases i
  case lcdClear =>
    obtain ⟨-, -, hh, hw⟩ := h
    exact inMode ⟨⟨.nil, nofun⟩, fun a ha => by cases ha; rfl, hh, hw⟩
  case lcdSetDdramAddress a => exact inMode (h.setAddress a)
  case lcdData ch => exact inMode (h.store ch)
  case lcdEntryMode | lcdDisplayControl | lcdShiftDisplay | lcdFunctionSet => exact inMode h
  case nibWake => exact Lcd.unknown_wf_of_wakes l.oneMoreWake_le
  case nibMode4 => exact ⟨⟨.nil, nofun⟩, nofun, fun h => absurd rfl h, Nat.zero_le 3⟩
  all_goals exact h

/-- Whatever a transfer is, acting on it keeps the view's form. -/
theorem Lcd.wf.act {l : Lcd} (h : l.wf) (x : Transfer) : (l.act x).wf := by
  simp only [Lcd.act]
  split
  · exact lcdEffect_wf h _
  · cases x with
    | byte rs b => exact h.forget
    | nibble rs n => exact Lcd.unknown_wf

/-- The controller's view has its form, and what waits there fits its mode. -/
def State.ControllerFits (s : State) : Prop := s.lcd.wf ∧ ∀ x, s.lcdBus = some x → transferFits s.lcd x

theorem State.controllerFits_of_empty {s : State} (hl : s.lcd.wf) (hq : s.lcdBus = none) : s.ControllerFits :=
  ⟨hl, by simp [hq]⟩

/-- A frame that arrives where nothing waits is held, or waits as a transfer of the mode it arrived in (R53, R54). -/
theorem State.takeFrame_controllerFits {s : State} (hl : s.lcd.wf) (hq : s.lcdBus = none) (f : Frame) :
    (s.takeFrame f).ControllerFits := by
  obtain ⟨hm, ha, hh, hw⟩ := hl
  simp only [State.takeFrame]
  split
  · exact controllerFits_of_empty Lcd.unknown_wf hq
  · split
    · rename_i hi
      exact ⟨⟨hm, ha, hh, hw⟩, fun x hx => by cases hx; exact hi⟩
    · rename_i hi
      split
      · exact controllerFits_of_empty ⟨hm, ha, fun _ => hi, s.lcd.wakesAfter_le f⟩ hq
      · split
        · exact ⟨⟨hm, ha, fun h => absurd rfl h, s.lcd.wakesAfter_le f⟩, fun x hx => by cases hx; exact ⟨hi, rfl⟩⟩
        · exact controllerFits_of_empty (Lcd.unknown_wf_of_wakes (s.lcd.wakesAfter_le f)) hq

theorem State.latch_controllerFits {s : State} (hl : s.lcd.wf) (hq : s.lcdBus = none) (o : Observed) :
    (s.latch o).ControllerFits := by
  simp only [State.latch]
  split
  · exact controllerFits_of_empty Lcd.unknown_wf hq
  · split
    · exact State.takeFrame_controllerFits (s := { s with drops := s.drops.tail }) hl hq _
    · exact controllerFits_of_empty Lcd.unknown_wf hq
    · exact controllerFits_of_empty Lcd.unknown_wf hq

theorem State.latchIf_controllerFits {s : State} (hl : s.lcd.wf) (hq : s.lcdBus = none) (o : Option Observed) :
    (s.latchIf o).ControllerFits := by
  cases o with
  | none => exact controllerFits_of_empty hl hq
  | some o => exact State.latch_controllerFits hl hq o

theorem State.emit_controllerFits {s : State} (hl : s.lcd.wf) (hq : s.lcdBus = none) (e : Event) :
    (s.emit e).ControllerFits := by
  by_cases hp : ∃ p v, e = .pin p v
  · obtain ⟨p, v, rfl⟩ := hp
    rw [s.emit_pin_eq]
    exact State.latchIf_controllerFits (s := s) hl hq _
  · obtain ⟨-, hlcd, hbus, -⟩ := s.emit_pins_of_not_pin (e := e) fun p v h => hp ⟨p, v, h⟩
    exact controllerFits_of_empty (by rw [hlcd]; exact hl) (by rw [hbus]; exact hq)

/-! ### The invariant -/

/-- Settles O56: at reset nothing waits, nothing is known and the block is idle. -/
theorem invariantHoldsAtReset : Obligations.InvariantHoldsAtReset := fun _ hc =>
  { cfg := hc
    text := ⟨.nil, nofun⟩
    block := nofun
    lcd := Lcd.unknown_wf
    lcdBus := nofun
    xpBus := nofun
    rwPin := nofun
    rwBit := nofun }

/-- The block never raises RW (R101). -/
theorem PinImage.set_rw_ne {im : PinImage} (h : im.rw ≠ .is true) {p : Pin} {v : Bool} (hp : p = .rw → v = false) :
    (im.set p v).rw ≠ .is true := by
  cases p
  case rw =>
    rw [hp rfl]
    nofun
  all_goals exact h

theorem State.emit_rw_ne {s : State} {bl : Bool} {e : Event} (h : s.pins.rw ≠ .is true) (he : Emitted s.cfg bl e) :
    (s.emit e).pins.rw ≠ .is true := by
  cases e with
  | pin p v =>
    rw [s.emit_pin_eq]
    exact PinImage.set_rw_ne h he.2
  | i2cWrite a v => rw [(s.emit_pins_of_not_pin (e := .i2cWrite a v) nofun).1]; exact h
  | delay t => exact h
  | textRead a v => exact h

/-- Where nothing waited, what waits for the expander after an event is a byte the block writes (R30, R107, R151). -/
theorem State.emit_xpBus_fits {s : State} {e : Event} {bl : Bool} (hq : s.xpBus = none) (he : Emitted s.cfg bl e)
    {v : Byte} (hv : (s.emit e).xpBus = some v) :
    s.cfg.transport = .expander ∧ v.getLsbD 1 = false ∧ v.getLsbD 3 = bl := by
  by_cases hw : ∃ a u, e = .i2cWrite a u
  · obtain ⟨a, u, rfl⟩ := hw
    obtain ⟨ht, rfl, h1, h3⟩ := he
    rw [s.emit_i2cWrite] at hv
    cases hv
    exact ⟨ht, h1, h3⟩
  · rw [s.emit_xpBus_of_not_i2cWrite fun a u h => hw ⟨a, u, h⟩, hq] at hv
    cases hv

/-- A turn of an operation keeps the invariant, whatever latches it starts from. -/
theorem Inv.opTurn {i : Instr} {s t : State} {b : Block} {script : List HostAct} (h : Inv s) (hq : s.quiet)
    (hd : decode (.op b.opl) = .ok i) (ht : OpTurn i { s with block := b, script := script } t) : Inv t where
  cfg := by rw [ht.cfg]; exact h.cfg
  text := by rw [ht.text]; exact h.text
  block := ht.block_wf hd
  lcd := by
    cases ht with
    | silent | reads => exact h.lcd
    | issues e => exact (State.emit_controllerFits (s := { s with block := b, script := script }) h.lcd hq.1 e).1
  lcdBus := by
    cases ht with
    | silent | reads => exact h.lcdBus
    | issues e => exact (State.emit_controllerFits (s := { s with block := b, script := script }) h.lcd hq.1 e).2
  xpBus := by
    intro v hv
    simp only [byteFits, ht.cfg]
    cases ht with
    | silent | reads => rw [hq.2] at hv; cases hv
    | issues e b' d _ he => exact State.emit_xpBus_fits (s := { s with block := b, script := script }) hq.2 he hv
  rwPin := by
    cases ht with
    | silent | reads => exact h.rwPin
    | issues e b' d _ he => exact State.emit_rw_ne (s := { s with block := b, script := script }) h.rwPin he
  rwBit := by rw [ht.xp]; exact h.rwBit

/-- The expander's byte, and the frame it may show the controller, keep the invariant. -/
theorem Inv.latchByte {s : State} (h : Inv s) (hq : s.lcdBus = none) {v : Byte} (h1 : v.getLsbD 1 = false) :
    Inv (State.latchByte { s with xpBus := none } v) := by
  obtain ⟨hlcd, hbus⟩ :=
    State.latchIf_controllerFits (s := { s with xpBus := none, xp := .is v }) h.lcd hq (s.xp.observe v)
  exact
    { cfg := by rw [State.latchByte_cfg]; exact h.cfg
      text := by rw [State.latchByte_text]; exact h.text
      block := by rw [State.latchByte_block, State.latchByte_cfg]; exact h.block
      lcd := hlcd
      lcdBus := hbus
      xpBus := by rw [State.latchByte_xpBus]; nofun
      rwPin := by rw [State.latchByte_pins]; exact h.rwPin
      rwBit := by
        rw [State.latchByte_xp]
        intro u hu
        cases hu
        exact h1 }

/-- Settles O57: by who moves (`StepOutcome`). -/
theorem stepKeepsTheInvariant : Obligations.StepKeepsTheInvariant := by
  intro s t h hstep
  cases stepOutcome hstep with
  | controller x => exact ⟨h.cfg, h.text, h.block, h.lcd.act x, nofun, h.xpBus, h.rwPin, h.rwBit⟩
  | expander v hl _ h1 => exact h.latchByte hl h1
  | host text script hq hw =>
    exact ⟨h.cfg, hw h.text, h.block, h.lcd, h.lcdBus, h.xpBus, h.rwPin, h.rwBit⟩
  | operation i b script _ hq _ hd ht => exact h.opTurn hq hd ht
  | reset rest hq =>
    refine ⟨h.cfg, h.text, nofun, Lcd.unknown_wf, fun x hx => ?_, fun v hv => ?_, h.rwPin, h.rwBit⟩
    · rw [State.applyReset_lcdBus, hq.1] at hx
      cases hx
    · rw [State.applyReset_xpBus, hq.2] at hv
      cases hv

/-! ### The lines follow the trace -/

/-- Settles O59: of the empty trace nothing is known. -/
theorem linesFollowTheTraceAtReset : Obligations.LinesFollowTheTraceAtReset := fun _ =>
  { pins := fun p _ h => by cases p <;> cases h
    xp := nofun
    bus := nofun
    lamp := nofun }

theorem linesOfTrace_append {s t : State} {e : Event} (hc : t.cfg = s.cfg) (h : t.trace = s.trace ++ [e]) :
    t.linesOfTrace = s.linesOfTrace.after s.cfg e := by
  simp only [State.linesOfTrace, h, hc, Lines.run_append, Lines.run]

/-- What touches neither the lines, their images, the bus nor `BL` keeps them together. -/
theorem LinesFollow.congr {s t : State} (h : LinesFollow s) (hl : t.linesOfTrace = s.linesOfTrace)
    (hpins : t.pins = s.pins) (hxp : t.xp = s.xp) (hbus : t.xpBus = s.xpBus) (hbl : t.block.bl = s.block.bl) :
    LinesFollow t where
  pins := by rw [hl, hpins]; exact h.pins
  xp := by rw [hl, hbus, hxp]; exact h.xp
  bus := by rw [hl, hbus]; exact h.bus
  lamp := by rw [hl, hbl]; exact h.lamp

/-- A level the images know after a pin event is on the pins: the one just driven, or one known before. -/
theorem PinImage.get_set_of_follows {im im' : PinImage} (h : ∀ q v, im.get q = .is v → im'.get q = .is v) (p q : Pin)
    (v u : Bool) (hu : (im.set p v).get q = .is u) : (im'.set p v).get q = .is u := by
  by_cases hqp : q = p
  · subst hqp
    rw [PinImage.get_set_same] at hu ⊢
    exact hu
  · rw [PinImage.get_set_other _ _ _ _ hqp] at hu ⊢
    exact h q u hu

/-- An event reaches the lines and their images the same way, and a write carries the `BL` that is left (R108, R151). -/
theorem LinesFollow.issues {s : State} {e : Event} {b : Block} {d : Bool} (h : LinesFollow s) (hq : s.xpBus = none)
    (he : Emitted s.cfg b.bl e) (hbl : b.bl = s.block.bl ∨ ∃ v, e = .i2cWrite s.cfg.i2cAddr v) :
    LinesFollow { s.emit e with block := b, initDone := d } := by
  have hl := linesOfTrace_append (t := { s.emit e with block := b, initDone := d }) (s.emit_cfg e) (s.emit_trace e)
  cases e with
  | pin p v =>
    have hbl : b.bl = s.block.bl := hbl.resolve_right nofun
    rw [s.emit_pin_eq] at hl ⊢
    refine ⟨fun q u hu => ?_, fun u _ hu => ?_, fun u hu => ?_, fun u hu => ?_⟩
    · rw [hl] at hu
      exact PinImage.get_set_of_follows h.pins p q v u hu
    · rw [hl] at hu
      exact (State.latchIf_xp ..).trans (h.xp u hq hu)
    · rw [show s.xpBus = some u from (State.latchIf_xpBus ..).symm.trans hu] at hq
      cases hq
    · rw [hl] at hu
      exact hbl ▸ h.lamp u hu
  | i2cWrite a v =>
    obtain ⟨-, rfl, -, h3⟩ := he
    rw [s.emit_i2cWrite] at hl ⊢
    simp only [Lines.after, if_true] at hl
    refine ⟨fun p u hu => ?_, nofun, fun u hu => ?_, fun u hu => ?_⟩
    · rw [hl] at hu
      exact h.pins p u hu
    · rw [hl]
      cases hu
      rfl
    · rw [hl] at hu
      cases hu
      exact h3
  | delay t => exact h.congr hl rfl rfl rfl (hbl.resolve_right nofun)
  | textRead a v => exact he.elim

/-- Whoever moves, a turn of an operation keeps the lines as the trace leaves them. -/
theorem LinesFollow.opTurn {i : Instr} {s t : State} (h : LinesFollow s) (hq : s.quiet) (ht : OpTurn i s t) :
    LinesFollow t := by
  cases ht with
  | silent b d _ hbl => exact h.congr rfl rfl rfl rfl hbl
  | reads a v b d _ hbl =>
    have hl := linesOfTrace_append (s := s) (t := s.emit (.textRead a v)) rfl rfl
    exact h.congr hl rfl rfl rfl hbl
  | issues e b d _ he hbl => exact h.issues hq.2 he (hbl.imp_right And.right)

/-- Settles O60: by who moves (`StepOutcome`). -/
theorem stepKeepsTheLinesFollowingTheTrace : Obligations.StepKeepsTheLinesFollowingTheTrace := by
  intro s t h hstep
  cases stepOutcome hstep with
  | controller x => exact h.congr rfl rfl rfl rfl rfl
  | expander v _ hx _ =>
    have hl : (State.latchByte { s with xpBus := none } v).linesOfTrace = s.linesOfTrace := by
      simp only [State.linesOfTrace, State.latchByte_cfg, State.latchByte_trace]
    refine ⟨?_, fun u _ hu => ?_, ?_, ?_⟩
    · rw [hl, State.latchByte_pins]
      exact h.pins
    · rw [hl, h.bus v hx] at hu
      rw [State.latchByte_xp]
      exact hu
    · rw [State.latchByte_xpBus]
      nofun
    · rw [hl, State.latchByte_block]
      exact h.lamp
  | host text script hq => exact h.congr rfl rfl rfl rfl rfl
  | operation i b script _ hq hbl _ ht =>
    exact LinesFollow.opTurn (s := { s with block := b, script := script }) (h.congr rfl rfl rfl rfl hbl) hq ht
  | reset rest hq =>
    refine ⟨fun p _ hv => by (cases p <;> cases hv), nofun, fun v hv => ?_, nofun⟩
    rw [State.applyReset_xpBus, hq.2] at hv
    cases hv

/-! ### What a step says of `BL`, and what a turn leaves alone -/

/-- Settles O36. -/
theorem onlyBacklightAndResetWriteBl : Obligations.OnlyBacklightAndResetWriteBl := by
  intro s t hstep
  cases stepOutcome hstep with
  | controller | host => exact .inl rfl
  | expander v => exact .inl (congrArg Block.bl (State.latchByte_block ..))
  | operation i b script _ _ hbl hd ht =>
    rcases ht.bl with hb | hi
    · exact .inl (hb.trans hbl)
    · refine .inr (.inr ⟨t.block.bl, ?_, rfl⟩)
      rw [ht.latched.opl, ← hi]
      exact hd
  | reset rest _ hs => exact .inr (.inl ⟨⟨rest, hs⟩, rfl⟩)

/-- Settles O35: an event a step adds is one an operation's turn issues, of the shape `Emitted` with the `BL` left. -/
theorem everyWriteCarriesTheBacklightAndRwZero : Obligations.EveryWriteCarriesTheBacklightAndRwZero := by
  intro s t e hstep htr
  cases stepOutcome hstep with
  | controller | host | reset => simp at htr
  | expander v => simp at htr
  | operation i b script _ _ _ _ ht =>
    cases ht with
    | silent => simp at htr
    | reads a v =>
      obtain rfl : Event.textRead a v = e := by simpa using htr
      exact ⟨nofun, nofun⟩
    | issues e' b' d _ he =>
      obtain rfl : e' = e := by simpa using htr
      refine ⟨?_, ?_⟩
      · rintro a v rfl
        obtain ⟨-, ha, h1, h3⟩ := he
        exact ⟨h3, h1, ha⟩
      · rintro v rfl
        exact he.2 rfl

/-- An event stores nothing in DDRAM by itself. -/
theorem State.emit_storesNothing (s : State) (e : Event) : s.lcd.StoresNothing (s.emit e).lcd := by
  by_cases hp : ∃ p v, e = .pin p v
  · obtain ⟨p, v, rfl⟩ := hp
    rw [s.emit_pin_eq]
    cases s.pins.observe p v with
    | none => exact .inl rfl
    | some o => exact s.latch_storesNothing o
  · obtain ⟨-, hlcd, -⟩ := s.emit_pins_of_not_pin (e := e) fun p v h => hp ⟨p, v, h⟩
    exact .inl (congrArg Lcd.ddram hlcd)

theorem OpTurn.storesNothing {i : Instr} {s t : State} (h : OpTurn i s t) : s.lcd.StoresNothing t.lcd := by
  cases h with
  | silent | reads => exact .inl rfl
  | issues e => exact s.emit_storesNothing e

/-- Under EXPANDER a turn drives no pin, so it shows the controller nothing (R107). -/
theorem OpTurn.pins_of_expander {i : Instr} {s t : State} (h : OpTurn i s t) (ht : s.cfg.transport = .expander) :
    t.pins = s.pins ∧ s.sameController t := by
  cases h with
  | silent | reads => exact ⟨rfl, rfl, rfl, rfl⟩
  | issues e b d _ he =>
    refine s.emit_pins_of_not_pin ?_
    rintro p v rfl
    rw [he.1] at ht
    cases ht

/-- Under PARALLEL a turn writes nothing to the expander (R107). -/
theorem OpTurn.xpBus_of_parallel {i : Instr} {s t : State} (h : OpTurn i s t) (ht : s.cfg.transport = .parallel) :
    t.xpBus = s.xpBus := by
  cases h with
  | silent | reads => rfl
  | issues e b d _ he =>
    refine s.emit_xpBus_of_not_i2cWrite ?_
    rintro a v rfl
    rw [he.1] at ht
    cases ht

/-- Settles O30: `OpTurn` says what a turn writes. -/
theorem operationLeavesTheRestAlone : Obligations.OperationLeavesTheRestAlone := by
  intro i s t hi hexec
  have h := exec_op_turn hi hexec
  exact ⟨h.cfg, h.latched.opl, h.script, h.xp, State.readText_congr h.text, h.latched.printLatches,
    fun hb => h.bl.resolve_right (hb _), h.latched.initDone, h.pins_of_expander, h.xpBus_of_parallel,
    h.storesNothing.readDdram⟩

end Sys2Proof.Machine

/-! # Reset, acceptance, single turns, and the block's open-loop rule -/

namespace Sys2Proof.Machine

/-! ### Reset -/

theorem PinImage.get_unknown (p : Pin) : PinImage.unknown.get p = .anyValue := by cases p <;> rfl

/-- Settles O8: the values `State.resetWith` gives, read field by field. -/
theorem resetLeavesTheTableOfR33 : Obligations.ResetLeavesTheTableOfR33 := fun _ =>
  ⟨rfl, rfl, PinImage.get_unknown, rfl, rfl, rfl, rfl, rfl, rfl, rfl, rfl, rfl, fun _ => rfl, rfl⟩

/-- With nothing on the buses the step is the host's. -/
theorem step_of_quiet {s : State} (hb : s.cfg.inBounds = true) (hq : s.quiet) : step s = s.hostTurn := by
  simp only [step, hb, if_true, State.turn, hq.1, hq.2]

/-- A block that has nothing to do and is offered nothing waits (R210). -/
theorem step_of_idle {s : State} (hb : s.cfg.inBounds = true) (hq : s.ready) (hs : s.script = []) : step s = .next s := by
  rw [step_of_quiet hb hq.1]
  simp only [State.hostTurn, hs, State.blockTurn, hq.2, Bool.false_eq_true, if_false]

/-- The reset input as the host's next act (R210, R211). -/
theorem step_of_reset {s : State} {rest : List HostAct} (hb : s.cfg.inBounds = true) (hq : s.quiet)
    (hs : s.script = .reset :: rest) : step s = .next (State.applyReset { s with script := rest }) := by
  rw [step_of_quiet hb hq]
  simp only [State.hostTurn, hs]

/-- Settles O9. -/
theorem resetInputAbandonsTheOperation : Obligations.ResetInputAbandonsTheOperation := by
  intro s rest hb hq hs
  exact ⟨_, step_of_reset hb hq hs, rfl, rfl, hq, rfl, rfl, rfl, rfl, fun _ => rfl, rfl, rfl,
    fun hrest => step_of_idle hb ⟨hq, rfl⟩ hrest⟩

/-! ### Who runs what -/

/-- A busy block in a turn the host lets pass runs the word it holds (log 13). -/
theorem step_of_letRun {s : State} {i : Instr} {n : Nat} {rest : List HostAct} (hb : s.cfg.inBounds = true)
    (hq : s.quiet) (hr : s.block.run = true) (hs : s.script = .letRun (n + 1) :: rest)
    (hd : decode (.op s.block.opl) = .ok i) : step s = exec i { s with script := .letRun n :: rest } := by
  rw [step_of_quiet hb hq]
  simp only [State.hostTurn, hs, State.blockTurn, hr, if_true, hd]

/-- A busy block runs the word it holds with nothing to do for the host, or a word held off (R76). -/
theorem step_of_held {s : State} {i : Instr} (hb : s.cfg.inBounds = true) (hq : s.quiet) (hr : s.block.run = true)
    (hd : decode (.op s.block.opl) = .ok i) (hs : s.script = [] ∨ ∃ w rest, s.script = .offer w :: rest) :
    step s = exec i s := by
  rw [step_of_quiet hb hq]
  rcases hs with hs | ⟨w, rest, hs⟩
  · simp only [State.hostTurn, hs, State.blockTurn, hr, if_true, hd]
  · simp only [State.hostTurn, hs, State.blockTurn, hr, if_true, hd]

/-- Settles O11: each place an instruction waits has its own step lemma. -/
theorem stepRunsTheDecodedInstruction : Obligations.StepRunsTheDecodedInstruction := by
  intro s i hb
  refine ⟨fun x hx hd => ?_, fun v hl hx hd => ?_, fun w rest hq hs hd => step_of_offer s i w rest hb hq hs hd,
    fun hq hr hd => ⟨step_of_held hb hq hr hd, fun n rest hs => step_of_letRun hb hq hr hs hd⟩⟩
  · simp only [step, hb, if_true, State.turn, hx, State.controllerTurn, hd]
  · simp only [step, hb, if_true, State.turn, hl, hx, State.expanderTurn, hd]

/-! ### BACKLIGHT and the expander -/

/-- BACKLIGHT's two events, its settle not being 0 (R9, R150). -/
theorem backlightEvents_eq {c : Config} (h : 1 ≤ c.tXp) (v : Bool) :
    backlightEvents c v = [.i2cWrite c.i2cAddr (if v then 0x08 else 0x00), .delay c.tXp] := by
  have hbyte : bitAt 3 v = if v then 0x08 else 0x00 := by revert v; decide
  rw [backlightEvents, delay_of_pos h, hbyte]
  rfl

/-! BACKLIGHT's turn, by transport and position (R74, R150). -/

theorem exec_backlight_of_parallel {s : State} (ht : s.cfg.transport = .parallel) (v : Bool) :
    exec (.backlight v) s = .refused .backlightUnderParallel := by
  simp only [exec, execBacklight, ht]

theorem exec_backlight_first {s : State} (ht : s.cfg.transport = .expander) (h0 : s.block.pos = 0) (v : Bool) :
    exec (.backlight v) s = .next ((s.setBl v).issue (backlightEvents s.cfg v)) := by
  simp only [exec, execBacklight, ht, h0, if_true, State.setBl_bl, State.setBl_cfg]

theorem exec_backlight_later {s : State} (ht : s.cfg.transport = .expander) (h0 : s.block.pos ≠ 0) (v : Bool) :
    exec (.backlight v) s = .next (s.issue (backlightEvents s.cfg s.block.bl)) := by
  simp only [exec, execBacklight, ht, h0, if_false]

/-- Settles O17: `issue` at the two positions of `backlightEvents_eq`. -/
theorem backlightSetsItsBitAndWritesItAtOnce : Obligations.BacklightSetsItsBitAndWritesItAtOnce := by
  intro s v ht hx
  refine ⟨fun h0 => ?_, fun h1 => ?_⟩
  · rw [exec_backlight_first ht h0, ← State.setBl_cfg s v, backlightEvents_eq (c := (s.setBl v).cfg) hx,
      State.issue_of_get _ _ _ (by rw [State.setBl_pos, h0]; rfl), State.emit_i2cWrite, State.setBl_pos, h0]
    rfl
  · rw [exec_backlight_later ht (by omega), backlightEvents_eq hx, State.issue_of_get _ _ _ (by rw [h1]; rfl), h1]
    rfl

/-- The expander byte in numbers (R82). -/
theorem expanderByte_toNat (n : Nibble) (b e r : Bool) :
    (expanderByte n b e r).toNat =
      16 * n.toNat + (if b then 8 else 0) + (if e then 4 else 0) + (if r then 1 else 0) := by
  revert n b e r; decide

/-! A byte with EN = 1, or over a latch with EN = 0, shows the controller nothing; EN falling shows it the old byte's frame,
or `maybe(unknown frame)` when the old byte is not known (R52, R108). -/

theorem XpImage.observe_of_en {x : XpImage} {v : Byte} (h : v.getLsbD 2 = true) : x.observe v = none := by
  cases x <;> simp [XpImage.observe, h, -BitVec.getLsbD_eq_getElem]

theorem XpImage.observe_of_low {u v : Byte} (h : u.getLsbD 2 = false) : XpImage.observe (.is u) v = none := by
  simp [XpImage.observe, h, -BitVec.getLsbD_eq_getElem]

theorem XpImage.observe_of_falling {u v : Byte} (hu : u.getLsbD 2 = true) (hv : v.getLsbD 2 = false) :
    XpImage.observe (.is u) v = some (.frame ⟨highNibble u, u.getLsbD 0, u.getLsbD 1⟩) := by
  simp [XpImage.observe, hu, hv, -BitVec.getLsbD_eq_getElem]

theorem XpImage.observe_of_maybe_falling {v : Byte} (hv : v.getLsbD 2 = false) :
    XpImage.observe .anyValue v = some .maybeUnknown := by
  simp [XpImage.observe, hv, -BitVec.getLsbD_eq_getElem]

/-- Settles O27: XP.BYTE latches the byte and what `XpImage.observe` says falls to the controller. -/
theorem expanderLatchesTheByteAndFramesFallWithEn : Obligations.ExpanderLatchesTheByteAndFramesFallWithEn := by
  intro s n b e r ht
  have hexec : exec (.xpByte n b e r) s = .next (s.latchByte (expanderByte n b e r)) := by
    simp only [exec, execXpByte, ht]
  have hen := expanderByte_en n b e r
  refine ⟨expanderByte n b e r, expanderByte_toNat n b e r, fun he => ?_, fun u hu h2 => ?_, fun u hu h2 he => ?_,
    fun hx he => ?_⟩
  · rw [hexec, State.latchByte, XpImage.observe_of_en (hen.trans he)]
    rfl
  · rw [hexec, State.latchByte, hu, XpImage.observe_of_low h2]
    rfl
  · rw [hexec, State.latchByte, hu, XpImage.observe_of_falling h2 (hen.trans he)]
    rfl
  · rw [hexec, State.latchByte, hx, XpImage.observe_of_maybe_falling (hen.trans he)]
    rfl

/-! ### The block does not look outside -/

/-- Two states whose block, configuration, TEXT, script, ghost flag, trace and expander bus are the same. -/
structure SameInside (s t : State) : Prop extends Same s t where
  xpBus : t.xpBus = s.xpBus

theorem SameInside.emit {s t : State} (h : SameInside s t) (e : Event) : SameInside (s.emit e) (t.emit e) where
  cfg := by simp only [State.emit_cfg, h.cfg]
  block := by simp only [State.emit_block, h.block]
  text := by simp only [State.emit_text, h.text]
  script := by simp only [State.emit_script, h.script]
  initDone := by simp only [State.emit_initDone, h.initDone]
  trace := by simp only [State.emit_trace, h.trace]
  xpBus := by
    cases e with
    | pin p v => simp only [State.emit_pin, State.drivePin_xpBus, h.xpBus]
    | i2cWrite a v =>
      simp only [State.emit, h.cfg]
      split
      · rfl
      · exact h.xpBus
    | delay | textRead => exact h.xpBus

/-- Writing the same latches into both keeps them the same inside. -/
theorem SameInside.withBlock {s t : State} (h : SameInside s t) {b b' : Block} (hb : b' = b) {d d' : Bool} (hd : d' = d) :
    SameInside { s with block := b, initDone := d } { t with block := b', initDone := d' } :=
  ⟨⟨h.cfg, hb, h.text, h.script, hd, h.trace⟩, h.xpBus⟩

theorem SameInside.setPos {s t : State} (h : SameInside s t) (p : Nat) : SameInside (s.setPos p) (t.setPos p) :=
  h.withBlock (by rw [h.block]) h.initDone

theorem SameInside.idle {s t : State} (h : SameInside s t) : SameInside s.idle t.idle :=
  h.withBlock (by rw [h.block]) h.initDone

theorem SameInside.setBl {s t : State} (h : SameInside s t) (v : Bool) : SameInside (s.setBl v) (t.setBl v) :=
  h.withBlock (by rw [h.block]) h.initDone

theorem SameInside.setCh {s t : State} (h : SameInside s t) (c : Byte) : SameInside (s.setCh c) (t.setCh c) :=
  h.withBlock (by rw [h.block]) h.initDone

theorem SameInside.nextCharacter {s t : State} (h : SameInside s t) : SameInside s.nextCharacter t.nextCharacter :=
  h.withBlock (by simp only [State.setTp, h.block]) h.initDone

theorem SameInside.issue {s t : State} (h : SameInside s t) (evs : List Event) : SameInside (s.issue evs) (t.issue evs) := by
  simp only [State.issue, h.block]
  split
  · exact h.idle
  · split
    · exact (h.emit _).setPos _
    · exact (h.emit _).idle

theorem SameInside.printRead {s t : State} (h : SameInside s t) : SameInside s.printRead t.printRead := by
  simp only [State.printRead, h.block, State.readText_congr h.text]
  split
  · exact ((h.emit _).setCh _).idle
  · exact ((h.emit _).setCh _).setPos _

theorem SameInside.printData {s t : State} (h : SameInside s t) : SameInside s.printData t.printData := by
  simp only [State.printData, h.block, h.cfg]
  split
  · exact h.nextCharacter
  · split
    · exact (h.emit _).setPos _
    · exact (h.emit _).nextCharacter

/-- An operation's turn depends on the inside alone. -/
theorem SameInside.exec {i : Instr} {s t u : State} (h : SameInside s t) (hi : i.isOperation = true)
    (hexec : exec i s = .next u) : ∃ v, exec i t = .next v ∧ SameInside u v := by
  cases i <;> simp only [Instr.isOperation, Bool.false_eq_true] at hi
  case init =>
    cases hexec
    refine ⟨_, rfl, ?_⟩
    rw [h.block, h.cfg]
    have hissue := h.issue (initEvents s.cfg s.block.bl)
    exact hissue.withBlock hissue.block (by rw [hissue.initDone, hissue.block])
  case clear | goto | dispctl | shift =>
    cases hexec
    exact ⟨_, rfl, by rw [h.block, h.cfg]; exact h.issue _⟩
  case print =>
    cases hexec
    refine ⟨_, rfl, ?_⟩
    rw [h.block]
    split
    · exact h.printRead
    · exact h.printData
  case backlight v =>
    cases ht : s.cfg.transport with
    | parallel => rw [exec_backlight_of_parallel ht] at hexec; cases hexec
    | expander =>
      have ht' : t.cfg.transport = .expander := by rw [h.cfg]; exact ht
      by_cases h0 : s.block.pos = 0
      · rw [exec_backlight_first ht h0] at hexec
        cases hexec
        rw [exec_backlight_first ht' (by rw [h.block]; exact h0), h.cfg]
        exact ⟨_, rfl, (h.setBl v).issue _⟩
      · rw [exec_backlight_later ht h0] at hexec
        cases hexec
        rw [exec_backlight_later ht' (by rw [h.block]; exact h0), h.cfg, h.block]
        exact ⟨_, rfl, h.issue _⟩

/-- Settles O39: two states that differ outside the block alone are the same inside, and stay so. -/
theorem blockIsOpenLoop : Obligations.BlockIsOpenLoop := by
  intro i s t pins xp lcd drops hi hexec
  have h : SameInside s { s with pins := pins, xp := xp, lcd := lcd, drops := drops } := ⟨⟨rfl, rfl, rfl, rfl, rfl, rfl⟩, rfl⟩
  obtain ⟨t', ht', hs⟩ := h.exec hi hexec
  exact ⟨t', ht', hs.block, hs.text, hs.script, hs.xpBus, hs.trace⟩

/-! ### Latches an operation does not read -/

/-- The state with other values of `TP` and `CH`. -/
def State.withPrintLatches (s : State) (tp : TextAddr) (ch : Byte) : State :=
  { s with block := { s.block with tp := tp, ch := ch } }

theorem State.withPrintLatches_cfg (s : State) (tp : TextAddr) (ch : Byte) : (s.withPrintLatches tp ch).cfg = s.cfg := rfl
theorem State.withPrintLatches_bl (s : State) (tp : TextAddr) (ch : Byte) :
    (s.withPrintLatches tp ch).block.bl = s.block.bl := rfl
theorem State.withPrintLatches_pos (s : State) (tp : TextAddr) (ch : Byte) :
    (s.withPrintLatches tp ch).block.pos = s.block.pos := rfl

theorem State.emit_withPrintLatches (s : State) (e : Event) (tp : TextAddr) (ch : Byte) :
    (s.withPrintLatches tp ch).emit e = (s.emit e).withPrintLatches tp ch := by
  rw [State.withPrintLatches, State.emit_withBlock, State.withPrintLatches, State.emit_block]

theorem State.issue_withPrintLatches (s : State) (evs : List Event) (tp : TextAddr) (ch : Byte) :
    (s.withPrintLatches tp ch).issue evs = (s.issue evs).withPrintLatches tp ch := by
  cases he : evs[s.block.pos]? with
  | none => rw [s.issue_of_end evs he, (s.withPrintLatches tp ch).issue_of_end evs he]; rfl
  | some e =>
    rw [s.issue_of_get evs e he, (s.withPrintLatches tp ch).issue_of_get evs e he, s.emit_withPrintLatches,
      s.withPrintLatches_pos]
    by_cases hl : s.block.pos + 1 < evs.length
    · rw [if_pos hl, if_pos hl]; rfl
    · rw [if_neg hl, if_neg hl]; rfl

/-- An outcome with other values of `TP` and `CH` in its state. -/
def outcomeWithPrintLatches (tp : TextAddr) (ch : Byte) : Host.Outcome State Fault Refusal → Host.Outcome State Fault Refusal
  | .next t => .next (t.withPrintLatches tp ch)
  | .fault r => .fault r
  | .refused r => .refused r

/-- An operation other than PRINT neither reads nor writes `TP` and `CH` (R26). -/
theorem exec_withPrintLatches {i : Instr} (hi : i.isOperation = true) (hp : ∀ ta, i ≠ .print ta) (s : State)
    (tp : TextAddr) (ch : Byte) : exec i (s.withPrintLatches tp ch) = outcomeWithPrintLatches tp ch (exec i s) := by
  cases i <;> simp only [Instr.isOperation, Bool.false_eq_true] at hi
  case print ta => exact absurd rfl (hp ta)
  case init =>
    simp only [exec, execInit, State.withPrintLatches_cfg, State.withPrintLatches_bl, State.issue_withPrintLatches]
    generalize s.issue (initEvents s.cfg s.block.bl) = t
    rfl
  case clear | goto | dispctl | shift => exact congrArg _ (s.issue_withPrintLatches _ tp ch)
  case backlight v =>
    cases ht : s.cfg.transport with
    | parallel => rw [exec_backlight_of_parallel ht, exec_backlight_of_parallel (s := s.withPrintLatches tp ch) ht]; rfl
    | expander =>
      by_cases h0 : s.block.pos = 0
      · rw [exec_backlight_first ht h0, exec_backlight_first (s := s.withPrintLatches tp ch) ht h0]
        exact congrArg _ ((s.setBl v).issue_withPrintLatches _ tp ch)
      · rw [exec_backlight_later ht h0, exec_backlight_later (s := s.withPrintLatches tp ch) ht h0]
        exact congrArg _ (s.issue_withPrintLatches _ tp ch)

/-- PRINT loads `TP` at acceptance and `CH` at its first read, whatever they held before (R26, R170). -/
theorem exec_print_of_withCh {ta : TextAddr} {s : State} (h0 : s.block.pos = 0) (ch : Byte) :
    exec (.print ta) (s.setCh ch) = exec (.print ta) s := by
  simp only [exec, execPrint, State.setCh_pos, h0, if_true, State.printRead]
  rfl

/-- The state with other values in all of the transient latches (R26). -/
def State.withLatches (s : State) (opl : OpWord) (pos : Nat) (tp : TextAddr) (ch : Byte) : State :=
  { s with block := { s.block with opl := opl, pos := pos, tp := tp, ch := ch } }

/-- Acceptance writes every latch but `CH`, and `TP` for PRINT alone. -/
theorem State.accept_withLatches (s : State) (w opl : OpWord) (pos : Nat) (tp : TextAddr) (ch : Byte) {i : Instr}
    (hp : ∀ ta, i ≠ .print ta) : (s.withLatches opl pos tp ch).accept w i = (s.accept w i).withPrintLatches tp ch := by
  cases i
  case print ta => exact absurd rfl (hp ta)
  all_goals rfl

theorem State.acceptTurn_withLatches_of_print {w : OpWord} {ta : TextAddr} (hd : decode (.op w) = .ok (.print ta))
    (s : State) (opl : OpWord) (pos : Nat) (tp : TextAddr) (ch : Byte) :
    (s.withLatches opl pos tp ch).acceptTurn w = s.acceptTurn w := by
  simp only [State.acceptTurn, hd]
  exact exec_print_of_withCh (s := s.accept w (.print ta)) rfl ch

theorem State.acceptTurn_withLatches_of_not_print {w : OpWord} (hn : ∀ ta, decode (.op w) ≠ .ok (.print ta))
    (s : State) (opl : OpWord) (pos : Nat) (tp : TextAddr) (ch : Byte) :
    (s.withLatches opl pos tp ch).acceptTurn w = outcomeWithPrintLatches tp ch (s.acceptTurn w) := by
  cases hd : decode (.op w) with
  | error e =>
    simp only [State.acceptTurn, hd]
    rfl
  | ok i =>
    have hp : ∀ ta, i ≠ .print ta := fun ta h => hn ta (h ▸ hd)
    simp only [State.acceptTurn, hd, State.accept_withLatches s w opl pos tp ch hp]
    exact exec_withPrintLatches (decode_op_isOperation hd) hp _ tp ch

/-- A ready block's step with a word offered, within the configuration's bounds or not. -/
theorem step_of_offered {s : State} {w : OpWord} {rest : List HostAct} (hq : s.ready) (hs : s.script = .offer w :: rest) :
    step s = if s.cfg.inBounds then State.acceptTurn { s with script := rest } w else .refused .configOutOfBounds := by
  simp only [step, State.turn, hq.1.1, hq.1.2, State.hostTurn, hs, hq.2, Bool.false_eq_true, if_false]

/-- A step that accepts, other latches before it. -/
theorem step_withLatches {s : State} {w : OpWord} {rest : List HostAct} (hq : s.ready) (hs : s.script = .offer w :: rest)
    (opl : OpWord) (pos : Nat) (tp : TextAddr) (ch : Byte) :
    ((∃ ta, decode (.op w) = .ok (.print ta)) → step (s.withLatches opl pos tp ch) = step s) ∧
    ((∀ ta, decode (.op w) ≠ .ok (.print ta)) →
      step (s.withLatches opl pos tp ch) = outcomeWithPrintLatches tp ch (step s)) := by
  have hstep' : step (s.withLatches opl pos tp ch) = if s.cfg.inBounds then
      (State.withLatches { s with script := rest } opl pos tp ch).acceptTurn w else .refused .configOutOfBounds :=
    step_of_offered (s := s.withLatches opl pos tp ch) hq hs
  rw [hstep', step_of_offered hq hs]
  split
  · exact ⟨fun ⟨_, hd⟩ => State.acceptTurn_withLatches_of_print hd _ opl pos tp ch,
      fun hn => State.acceptTurn_withLatches_of_not_print hn _ opl pos tp ch⟩
  · exact ⟨fun _ => rfl, fun _ => rfl⟩

/-- Settles O10: by `step_withLatches` the accepting step is the same, or the same but for `TP` and `CH`. -/
theorem idleLatchesAreReadByNothing : Obligations.IdleLatchesAreReadByNothing := by
  intro s w opl pos tp ch rest hq hs
  obtain ⟨hprint, hother⟩ := step_withLatches hq hs opl pos tp ch
  refine ⟨fun t ht => ⟨fun hp => (hprint hp).trans ht, fun hn => ?_⟩, fun r hr => ?_⟩
  · rw [ht] at hother
    exact hother hn
  · by_cases hp : ∃ ta, decode (.op w) = .ok (.print ta)
    · exact (hprint hp).trans hr
    · rw [hr] at hother
      exact hother fun ta hd => hp ⟨ta, hd⟩

end Sys2Proof.Machine

/-! # Memory: TEXT, the word a busy block holds, and what the controller makes of transfers and frames -/

namespace Sys2Proof.Machine

/-! ### TEXT -/

theorem State.readText_writeText_same {s : State} (h : Memory.Rising s.text) (a : TextAddr) (v : Byte) :
    (s.writeText a v).readText a = v := by
  simp only [State.readText, State.writeText]
  split
  · rename_i hv
    rw [Memory.find_remove_same _ _ h, hv]
    rfl
  · rw [Memory.find_put_same]
    rfl

theorem State.readText_writeText_other (s : State) {a b : TextAddr} (h : b ≠ a) (v : Byte) :
    (s.writeText a v).readText b = s.readText b := by
  have hn : b.toNat ≠ a.toNat := fun hab => h (BitVec.eq_of_toNat_eq hab)
  simp only [State.readText, State.writeText]
  split
  · rw [Memory.find_remove_other _ _ _ hn]
  · rw [Memory.find_put_other _ _ _ _ hn]

/-- A byte of TEXT the host writes as its next act (R64). -/
theorem step_of_write {s : State} {a : TextAddr} {v : Byte} {rest : List HostAct} (hb : s.cfg.inBounds = true)
    (hq : s.quiet) (hs : s.script = .write a v :: rest) :
    step s = .next (State.writeText { s with script := rest } a v) := by
  rw [step_of_quiet hb hq]
  simp only [State.hostTurn, hs]

/-- Settles O40: by read after write, and the step is that write (`step_of_write`). -/
theorem textReadsBackWhatTheHostWrote : Obligations.TextReadsBackWhatTheHostWrote := by
  intro s a b v ⟨hrising, _⟩
  exact ⟨s.readText_writeText_same hrising a v, fun hba => s.readText_writeText_other hba v, fun rest hb hq hs =>
    ⟨_, step_of_write hb hq hs, State.readText_writeText_same (s := { s with script := rest }) hrising a v,
      fun hba => State.readText_writeText_other { s with script := rest } hba v, rfl⟩⟩

/-- A step leaves TEXT alone, but for the byte the host writes. -/
theorem step_text_cases {s t : State} (h : step s = .next t) :
    t.text = s.text ∨ ∃ a v rest, s.script = .write a v :: rest ∧ t.text = (s.writeText a v).text := by
  obtain ⟨-, h⟩ := step_cases h
  rcases h with ⟨x, -, rfl⟩ | ⟨v, -, -, -, -, rfl⟩ | ⟨-, -, ⟨-, rfl⟩ | ⟨n, rest, -, rfl⟩⟩ |
    ⟨-, -, i, script, -, hi, he, -⟩ | ⟨-, w, rest, i, -, -, hi, he⟩ | ⟨-, a, v, rest, hs, rfl⟩ | ⟨-, rest, -, rfl⟩ |
    ⟨-, rest, -, rfl⟩
  · exact .inl rfl
  · exact .inl (State.latchByte_text ..)
  · exact .inl rfl
  · exact .inl rfl
  · exact .inl (exec_op_turn hi he).text
  · exact .inl (exec_op_turn hi he).text
  · exact .inr ⟨a, v, rest, hs, rfl⟩
  · exact .inl rfl
  · exact .inl rfl

/-- Settles O37: TEXT changes with a host's write only, which leaves every other address alone. -/
theorem onlyTheHostWritesText : Obligations.OnlyTheHostWritesText := by
  intro s t a h
  rcases step_text_cases h with ht | ⟨b, v, rest, hs, ht⟩
  · exact .inl (State.readText_congr ht a)
  · by_cases hab : a = b
    · subst hab
      exact .inr ⟨v, rest, hs⟩
    · exact .inl ((State.readText_congr ht a).trans (s.readText_writeText_other hab v))

/-! ### PRINT's read, and the word a busy block holds -/

theorem exec_print_of_pos_zero {s : State} (h0 : s.block.pos = 0) (ta : TextAddr) :
    exec (.print ta) s = .next s.printRead := by
  simp only [exec, execPrint, if_pos h0]

/-- Settles O18: PRINT's turn at position 0 is `State.printRead`, by the character read. -/
theorem printReadsTheNextCharacter : Obligations.PrintReadsTheNextCharacter := by
  intro s ta h0
  rw [exec_print_of_pos_zero h0]
  refine ⟨fun hch => ?_, fun hch => ?_⟩
  · rw [show s.printRead = _ from if_neg hch]
    rfl
  · rw [show s.printRead = _ from if_pos hch, hch]
    rfl

/-- Settles O13: with a word at the script's head and the block busy, only the collaborators or the running operation move,
and neither writes the script or `OPL`. -/
theorem offeredWordIsHeldWhileBusy : Obligations.OfferedWordIsHeldWhileBusy := by
  intro s t w rest hr hs h
  rw [← hs]
  obtain ⟨-, h⟩ := step_cases h
  rcases h with ⟨x, -, rfl⟩ | ⟨v, -, -, -, -, rfl⟩ | ⟨-, hidle, -⟩ |
    ⟨-, -, i, script, -, hi, he, ⟨rfl, -⟩ | ⟨n, rest', hs', -⟩⟩ | ⟨⟨-, hidle⟩, -⟩ | ⟨-, a, v, rest', hs', -⟩ |
    ⟨-, rest', hs', -⟩ | ⟨-, rest', hs', -⟩
  · exact ⟨rfl, rfl⟩
  · exact ⟨State.latchByte_script .., congrArg Block.opl (State.latchByte_block ..)⟩
  · simp [hr] at hidle
  · have hturn := exec_op_turn hi he
    exact ⟨hturn.script, hturn.latched.opl⟩
  · simp [hs] at hs'
  · simp [hr] at hidle
  all_goals simp [hs] at hs'

/-! ### Commands in 4-bit mode -/

theorem State.inFourBit_of_fourBit {s : State} (h : s.lcd.iface = .fourBit) (f : Lcd → Lcd) :
    s.inFourBit f = { s with lcd := f s.lcd } := if_pos h

theorem State.inFourBit_of_undefined8 {s : State} (h : s.lcd.iface = .undefined8) (f : Lcd → Lcd) :
    s.inFourBit f = { s with lcd := s.lcd.forget } := if_neg (by simp [h])

/-- Settles O20: in 4-bit mode Clear is `Lcd.clear` on the view. -/
theorem clearHomesTheCounter : Obligations.ClearHomesTheCounter := fun _ h =>
  congrArg _ (State.inFourBit_of_fourBit h Lcd.clear)

theorem Lcd.setAddress_of_inRow (l : Lcd) {a : DdramAddr} (h : inRow a = true) :
    l.setAddress a = { l with ac := .is a } := by
  simp only [Lcd.setAddress, if_pos h]

theorem Lcd.setAddress_of_not_inRow (l : Lcd) {a : DdramAddr} (h : ¬ inRow a = true) :
    l.setAddress a = { l with ac := .anyValue } := by
  simp only [Lcd.setAddress, if_neg h]

/-- Settles O21: by whether the address is in a row (`inRow_iff`). -/
theorem setAddressLoadsTheCounter : Obligations.SetAddressLoadsTheCounter := by
  intro s a h
  have hexec : exec (.lcdSetDdramAddress a) s = .next { s with lcd := s.lcd.setAddress a } :=
    congrArg _ (State.inFourBit_of_fourBit h _)
  refine ⟨fun ha => ?_, fun ha => ?_⟩
  · rw [hexec, Lcd.setAddress_of_inRow _ ((inRow_iff a).mpr ha)]
  · rw [hexec, Lcd.setAddress_of_not_inRow _ (by rw [inRow_iff]; omega)]

theorem Lcd.moveWindow_of_is {l : Lcd} {k : Int} (h : l.shift = .is k) (right : Bool) :
    l.moveWindow right = { l with shift := .is (if right then k + 1 else k - 1) } := by
  simp only [Lcd.moveWindow, h]

theorem Lcd.moveWindow_of_anyValue {l : Lcd} (h : l.shift = .anyValue) (right : Bool) : l.moveWindow right = l := by
  simp only [Lcd.moveWindow, h]
  rw [← h]

/-- What a position shows depends on its column and the offset by their difference alone, so the neighbour one step on in the
direction of the move shows it afterwards (log 29). -/
theorem Lcd.shownAddress_moveWindow (l : Lcd) (right : Bool) (row : Fin panelRows) {c d : Fin visibleColumns}
    (hcd : (d.val : Int) = if right then (c.val : Int) + 1 else (c.val : Int) - 1) :
    (l.moveWindow right).shownAddress row d = l.shownAddress row c := by
  cases hl : l.shift with
  | anyValue => rw [Lcd.moveWindow_of_anyValue hl, l.shownAddress_of_anyValue row d hl, l.shownAddress_of_anyValue row c hl]
  | is k =>
    have hdiff : (d.val : Int) - (if right then k + 1 else k - 1) = c.val - k := by
      cases right
      · simp only [Bool.false_eq_true, if_false] at hcd ⊢
        omega
      · simp only [if_true] at hcd ⊢
        omega
    rw [Lcd.moveWindow_of_is hl, Lcd.shownAddress_of_shift _ _ row d rfl, hdiff, l.shownAddress_of_shift k row c hl]

theorem exec_lcdShiftDisplay_of_fourBit {s : State} (h : s.lcd.iface = .fourBit) (right : Bool) :
    exec (.lcdShiftDisplay right) s = .next { s with lcd := s.lcd.moveWindow right } :=
  congrArg _ (State.inFourBit_of_fourBit h _)

/-- Settles O22: each command in 4-bit mode is its own function of the view, and Shift's is `Lcd.moveWindow`. -/
theorem otherCommandsSetWhatTheyName : Obligations.OtherCommandsSetWhatTheyName := by
  intro s h
  refine ⟨congrArg _ (State.inFourBit_of_fourBit h _), congrArg _ (State.inFourBit_of_fourBit h _),
    fun d c b => congrArg _ (State.inFourBit_of_fourBit h _), fun r k hk => ?_, fun r hk => ?_,
    fun t row c d hcd => ⟨fun ht => ?_, fun ht => ?_⟩⟩
  · rw [exec_lcdShiftDisplay_of_fourBit h, Lcd.moveWindow_of_is hk]
  · rw [exec_lcdShiftDisplay_of_fourBit h, Lcd.moveWindow_of_anyValue hk]
  · rw [exec_lcdShiftDisplay_of_fourBit h] at ht
    cases ht
    exact s.lcd.shownAddress_moveWindow true row (by simp only [if_true]; omega)
  · rw [exec_lcdShiftDisplay_of_fourBit h] at ht
    cases ht
    exact s.lcd.shownAddress_moveWindow false row (by simp only [Bool.false_eq_true, if_false]; omega)

/-! ### Characters -/

theorem exec_lcdData_of_fourBit {s : State} (h : s.lcd.iface = .fourBit) (ch : Byte) :
    exec (.lcdData ch) s = .next { s with lcd := s.lcd.store ch } :=
  congrArg _ (State.inFourBit_of_fourBit h _)

theorem Lcd.store_of_inRow {l : Lcd} {a : DdramAddr} (h : l.ac = .is a) (ha : inRow a = true) (ch : Byte) :
    l.store ch = { l with
      ddram := Memory.put l.ddram a.toNat ch, ac := l.counterAfter a, shift := l.shiftAfter } := by
  simp only [Lcd.store, h, if_pos ha]

/-- With the counter in no row, or not known, where the character goes is not known (U1). -/
theorem Lcd.store_of_not_inRow {l : Lcd} (h : ∀ a, l.ac = .is a → ¬ inRow a = true) (ch : Byte) :
    l.store ch = { l with ddram := [], ac := .anyValue, shift := l.shiftAfter } := by
  cases hac : l.ac with
  | anyValue => simp only [Lcd.store, hac]
  | is a => simp only [Lcd.store, hac, if_neg (h a hac)]

theorem Lcd.shiftAfter_of_entry {l : Lcd} (h : l.entry = .is .incrementNoShift) : l.shiftAfter = l.shift := by
  simp only [Lcd.shiftAfter, h]

theorem Lcd.shiftAfter_of_anyValue {l : Lcd} (h : l.entry = .anyValue) : l.shiftAfter = .anyValue := by
  simp only [Lcd.shiftAfter, h]

theorem Lcd.counterAfter_of_anyValue {l : Lcd} (h : l.entry = .anyValue) (a : DdramAddr) :
    l.counterAfter a = .anyValue := by
  simp only [Lcd.counterAfter, h]

theorem Lcd.counterAfter_of_entry {l : Lcd} (h : l.entry = .is .incrementNoShift) (a : DdramAddr) :
    l.counterAfter a = if inRow (a + 1) then .is (a + 1) else .anyValue := by
  simp only [Lcd.counterAfter, h]

/-- The next address leaves the row at 0x27 and at 0x67 only (U1). -/
theorem inRow_next_iff {a : DdramAddr} (ha : inRow a = true) :
    inRow (a + 1) = true ↔ a.toNat ≠ 39 ∧ a.toNat ≠ 103 := by
  revert a; decide

theorem ddramAddr_next_toNat {a : DdramAddr} (ha : inRow a = true) : (a + 1).toNat = a.toNat + 1 := by
  revert a; decide

theorem Lcd.readDdram_of_put_same {l m : Lcd} {a : DdramAddr} {ch : Byte} (h : m.ddram = Memory.put l.ddram a.toNat ch) :
    m.readDdram a = .is ch := by
  simp only [Lcd.readDdram, h, Memory.find_put_same]

theorem Lcd.readDdram_of_put_other {l m : Lcd} {a b : DdramAddr} {ch : Byte} (h : m.ddram = Memory.put l.ddram a.toNat ch)
    (hb : b ≠ a) : m.readDdram b = l.readDdram b := by
  simp only [Lcd.readDdram, h, Memory.find_put_other _ _ _ _ fun hab => hb (BitVec.eq_of_toNat_eq hab)]

/-- Settles O23: the character is stored with `Memory.put`, and what follows for counter and offset depends on the entry
mode. -/
theorem characterIsStoredAtTheCounter : Obligations.CharacterIsStoredAtTheCounter := by
  intro s a ch h hac ha
  have hrow : inRow a = true := (inRow_iff a).mpr ha
  have hnext := inRow_next_iff hrow
  have hexec := exec_lcdData_of_fourBit h ch
  rw [Lcd.store_of_inRow hac hrow] at hexec
  refine ⟨_, hexec, Lcd.readDdram_of_put_same rfl, fun b hb => Lcd.readDdram_of_put_other rfl hb, fun he => ⟨fun hin => ?_,
    fun hend => ?_, Lcd.shiftAfter_of_entry he⟩,
    fun he => ⟨Lcd.counterAfter_of_anyValue he a, Lcd.shiftAfter_of_anyValue he⟩, rfl⟩
  · exact ⟨a + 1, (Lcd.counterAfter_of_entry he a).trans (if_pos (hnext.mpr hin)), ddramAddr_next_toNat hrow⟩
  · exact (Lcd.counterAfter_of_entry he a).trans (if_neg (by rw [hnext]; omega))

/-- Settles O24: with no row known for the counter, `Lcd.store_of_not_inRow`. -/
theorem characterAtAnUnknownCounter : Obligations.CharacterAtAnUnknownCounter := by
  intro s ch h hac
  have hrow : ∀ a, s.lcd.ac = .is a → ¬ inRow a = true := by
    intro a ha
    rw [inRow_iff]
    rcases hac with hac | ⟨b, hb, hout⟩
    · rw [hac] at ha
      cases ha
    · obtain rfl : b = a := Known.is.inj (hb.symm.trans ha)
      omega
  have hexec := exec_lcdData_of_fourBit h ch
  rw [Lcd.store_of_not_inRow hrow] at hexec
  exact ⟨_, hexec, rfl, fun _ => rfl, Lcd.shiftAfter_of_entry, Lcd.shiftAfter_of_anyValue, rfl⟩

/-! ### Transfers without an effect -/

/-- A frame with RW = 1 leaves nothing known (log 25). -/
theorem State.takeFrame_read (s : State) (n : Nibble) (rs : Bool) :
    s.takeFrame ⟨n, rs, true⟩ = { s with lcd := Lcd.unknown } := by
  simp only [State.takeFrame, if_true]

/-- Outside 4-bit mode the instruction of a byte leaves nothing known but the count of wake nibbles (U6). -/
theorem exec_byte_of_undefined8 {s : State} {i : Instr} {rs : Bool} {b : Byte} (h : s.lcd.iface = .undefined8)
    (henc : encode i = .lcd (.byte rs b)) :
    exec i s = .next { s with lcd := { Lcd.unknown with wakes := s.lcd.wakes } } := by
  cases i <;> cases henc
  all_goals exact congrArg _ (State.inFourBit_of_undefined8 h _)

theorem Lcd.act_of_ok {x : Transfer} {i : Instr} (hd : decode (.lcd x) = .ok i) (l : Lcd) : l.act x = lcdEffect l i := by
  simp only [Lcd.act, hd]

theorem Lcd.act_of_error {x : Transfer} {e : DecodeError} (hd : decode (.lcd x) = .error e) (l : Lcd) :
    l.act x = l.undefinedTransfer x := by
  simp only [Lcd.act, hd]

/-- A nibble other than 0x3 and 0x2 with RS = 0 is none of INIT's (R83). -/
theorem decodeNibble_of_other {rs : Bool} {n : Nibble} (h : ¬(rs = false ∧ (n = 3 ∨ n = 2))) :
    decodeNibble rs n = .error .otherNibble := by
  revert rs n; decide

/-- A byte outside the command classes of R77. -/
theorem decodeCommand_of_other {b : Byte} (h : b.toNat < 128 ∧ b ≠ 0x01 ∧ b ≠ 0x06 ∧ b ≠ 0x18 ∧ b ≠ 0x1C ∧ b ≠ 0x28 ∧
    ¬(8 ≤ b.toNat ∧ b.toNat ≤ 15)) : decodeCommand b = .error .otherCommand := by
  revert b; decide

/-- Settles O25: what decodes to no instruction is an undefined transfer, and a byte outside 4-bit mode, or a frame with
RW = 1, is forgotten as well. -/
theorem transfersWithoutAnEffectLeaveNothingKnown : Obligations.TransfersWithoutAnEffectLeaveNothingKnown := by
  intro s
  refine ⟨fun h hd n rs => ?_, fun h i rs b henc => exec_byte_of_undefined8 h henc, fun hb n rs hx hn => ?_,
    fun hb b hx hc => ?_, fun hd n rs => ?_⟩
  · rw [s.latch_frame _ hd]
    exact State.takeFrame_outside { s with drops := s.drops.tail } n rs h
  · rw [step_of_lcdBus s _ hb hx, Lcd.act_of_error (x := .nibble rs n) (decodeNibble_of_other hn)]
    rfl
  · rw [step_of_lcdBus s _ hb hx, Lcd.act_of_error (x := .byte false b) (decodeCommand_of_other hc)]
    rfl
  · rw [s.latch_frame _ hd, State.takeFrame_read]

/-! ### Frames in 4-bit mode, and the nibbles of INIT -/

theorem Lcd.wakesAfter_eq (l : Lcd) (n : Nibble) (rs : Bool) :
    l.wakesAfter ⟨n, rs, false⟩ = if n = 3 ∧ rs = false then min 3 (l.wakes + 1) else 0 := by
  simp only [Lcd.wakesAfter, Frame.isWake, Lcd.oneMoreWake, Bool.and_eq_true, decide_eq_true_eq, Bool.not_eq_true']

/-- The joined byte in numbers, high half first (R54). -/
theorem joinNibbles_toNat (m n : Nibble) : (joinNibbles m n).toNat = 16 * m.toNat + n.toNat := by
  revert m n; decide

/-- Two halves that differ in RS leave nothing known but the count of wake nibbles (log 25). -/
theorem State.takeFrame_mixed (s : State) (m n : Nibble) (rs : Bool) (h : s.lcd.iface = .fourBit)
    (ho : s.lcd.half = some (m, !rs)) :
    s.takeFrame ⟨n, rs, false⟩ = { s with lcd := { Lcd.unknown with wakes := s.lcd.wakesAfter ⟨n, rs, false⟩ } } := by
  simp [State.takeFrame, h, ho, Lcd.forget]

/-- Settles O28: a frame that arrives is taken by phase (`takeFrame_even`, `takeFrame_odd`, `takeFrame_mixed`). -/
theorem twoFramesMakeAByte : Obligations.TwoFramesMakeAByte := by
  intro s n rs h hd
  simp only [s.latch_frame _ hd, ← s.lcd.wakesAfter_eq n rs]
  refine ⟨fun he => State.takeFrame_even { s with drops := s.drops.tail } n rs h he, fun m b ho hb => ?_,
    fun m ho => State.takeFrame_mixed { s with drops := s.drops.tail } m n rs h ho⟩
  obtain rfl : joinNibbles m n = b := BitVec.eq_of_toNat_eq ((joinNibbles_toNat m n).trans hb.symm)
  exact State.takeFrame_odd { s with drops := s.drops.tail } m n rs h ho

theorem execNibMode4_of_three {s : State} (h : s.lcd.wakes = 3) :
    exec .nibMode4 s = .next { s with lcd := { Lcd.unknown with iface := .fourBit } } := by
  simp only [exec, execNibMode4, if_pos h]

theorem execNibMode4_of_not_three {s : State} (h : s.lcd.wakes ≠ 3) :
    exec .nibMode4 s = .next { s with lcd := Lcd.unknown } := by
  simp only [exec, execNibMode4, if_neg h]
  rfl

/-- Settles O26: a wake nibble counts by definition, and the nibble 0x2 asks for a count of three. -/
theorem threeWakesAndATwoGiveFourBitMode : Obligations.ThreeWakesAndATwoGiveFourBitMode := fun _ =>
  ⟨rfl, execNibMode4_of_three, execNibMode4_of_not_three⟩

end Sys2Proof.Machine

/-! # What INIT makes of the controller: events delivered to it, frame by frame -/

namespace Sys2Proof.Machine

/-! ### The controller's view once everything on its way has completed -/

/-- The controller's view once it has acted on the transfer waiting for it. -/
def State.settledLcd (s : State) : Lcd :=
  match s.lcdBus with
  | none => s.lcd
  | some x => s.lcd.act x

/-- What an observation that is not lost makes of a controller with nothing waiting: the frame is taken, and the transfer
it completes, if any, acted on. -/
def Lcd.see (l : Lcd) (o : Observed) : Lcd := (State.latch { State.reset with lcd := l } o).settledLcd

/-- The images of R108 with the byte on its way to the expander already latched. -/
def State.lines (s : State) : Lines where
  pins := s.pins
  xp := match s.xpBus with
    | none => s.xp
    | some v => .is v

/-- The controller's view once it has acted on its transfer and the expander has latched the byte on its way. -/
def State.view (s : State) : Lcd :=
  match s.xpBus with
  | none => s.settledLcd
  | some v => (s.xp.observe v).toList.foldl Lcd.see s.settledLcd

theorem State.settledLcd_of_empty {s : State} (h : s.lcdBus = none) : s.settledLcd = s.lcd := by
  simp only [State.settledLcd, h]

theorem State.view_of_empty {s : State} (h : s.xpBus = none) : s.view = s.settledLcd := by
  simp only [State.view, h]

theorem State.view_of_quiet {s : State} (h : s.quiet) : s.view = s.lcd :=
  (State.view_of_empty h.2).trans (State.settledLcd_of_empty h.1)

theorem State.lines_of_empty {s : State} (h : s.xpBus = none) : s.lines = ⟨s.pins, s.xp⟩ := by
  simp only [State.lines, h]

/-- A frame looks at the controller's view alone. -/
theorem State.takeFrame_settledLcd {s t : State} (hs : s.lcdBus = none) (ht : t.lcdBus = none) (hl : t.lcd = s.lcd)
    (f : Frame) : (t.takeFrame f).settledLcd = (s.takeFrame f).settledLcd := by
  simp only [State.takeFrame, hl]
  (repeat' split) <;> simp only [State.settledLcd, hs, ht]

/-- What the controller sees of an observation does not depend on the rest of the machine. -/
theorem State.latch_settledLcd {s : State} (hd : s.drops = []) (hq : s.lcdBus = none) (o : Observed) :
    (s.latch o).settledLcd = s.lcd.see o := by
  simp only [Lcd.see, State.latch, hd]
  cases o with
  | frame f => exact State.takeFrame_settledLcd (by rfl) (by exact hq) (by rfl) f
  | unknownFrame | maybeUnknown => exact State.settledLcd_of_empty hq

theorem State.latchIf_settledLcd {s : State} (hd : s.drops = []) (hq : s.lcdBus = none) (o : Option Observed) :
    (s.latchIf o).settledLcd = o.toList.foldl Lcd.see s.lcd := by
  cases o with
  | none => exact State.settledLcd_of_empty hq
  | some o => exact State.latch_settledLcd hd hq o

theorem State.latchIf_drops {s : State} (hd : s.drops = []) (o : Option Observed) : (s.latchIf o).drops = [] := by
  cases o with
  | none => exact hd
  | some o => cases o <;> simp [State.latchIf, State.latch, hd]

/-! ### An event delivered -/

theorem State.emit_lines {s : State} (hx : s.xpBus = none) (e : Event) :
    (s.emit e).lines = s.lines.after s.cfg e := by
  cases e with
  | pin p v => simp [s.emit_pin, State.lines, Lines.after, hx]
  | i2cWrite a v =>
    simp only [State.emit, Lines.after]
    split
    · rfl
    · rfl
  | delay | textRead => rfl

theorem State.emit_view {s : State} (hq : s.quiet) (hd : s.drops = []) (e : Event) :
    (s.emit e).view = (s.lines.observe s.cfg e).toList.foldl Lcd.see s.view := by
  rw [State.view_of_quiet hq, State.lines_of_empty hq.2]
  cases e with
  | pin p v =>
    rw [s.emit_pin_eq]
    exact (State.view_of_empty ((State.latchIf_xpBus ..).trans hq.2)).trans (State.latchIf_settledLcd hd hq.1 _)
  | i2cWrite a v =>
    simp only [State.emit, Lines.observe]
    split
    · simp only [State.view, State.settledLcd, hq.1]
    · exact State.view_of_quiet hq
  | delay | textRead => exact State.view_of_quiet hq

theorem State.emit_drops {s : State} (hd : s.drops = []) (e : Event) : (s.emit e).drops = [] := by
  cases e with
  | pin p v => rw [s.emit_pin_eq]; exact State.latchIf_drops hd _
  | i2cWrite a v => simp only [State.emit]; split <;> exact hd
  | delay | textRead => exact hd

/-! ### A run without loss and without reset -/

/-- From `s` to `t` the events `es` have been issued and none of their frames lost: the lines are as the events leave them,
and the controller has seen their frames, both once what is still on its way has completed (R60, R108). -/
structure Delivered (es : List Event) (s t : State) : Prop where
  cfg : t.cfg = s.cfg
  trace : t.trace = s.trace ++ es
  drops : t.drops = []
  lines : t.lines = s.lines.run s.cfg es
  view : t.view = (framesFrom s.cfg s.lines es).foldl Lcd.see s.view

theorem Delivered.trans {es fs : List Event} {s t u : State} (h : Delivered es s t) (k : Delivered fs t u) :
    Delivered (es ++ fs) s u where
  cfg := k.cfg.trans h.cfg
  trace := by rw [k.trace, h.trace, List.append_assoc]
  drops := k.drops
  lines := by rw [k.lines, h.lines, h.cfg, Lines.run_append]
  view := by rw [k.view, h.view, h.lines, h.cfg, framesFrom_append, List.foldl_append]

/-- Nothing is issued, and what is on its way is the same or has come one stage further. -/
theorem Delivered.of_silent {s t : State} (hcfg : t.cfg = s.cfg) (htrace : t.trace = s.trace) (hdrops : t.drops = [])
    (hlines : t.lines = s.lines) (hview : t.view = s.view) : Delivered [] s t :=
  ⟨hcfg, by rw [htrace, List.append_nil], hdrops, hlines, hview⟩

theorem Delivered.of_emit {s : State} (hq : s.quiet) (hd : s.drops = []) (e : Event) : Delivered [e] s (s.emit e) where
  cfg := s.emit_cfg e
  trace := s.emit_trace e
  drops := State.emit_drops hd e
  lines := State.emit_lines hq.2 e
  view := by simpa [framesFrom] using State.emit_view hq hd e

/-- The expander latches the byte on its way, and the controller what that shows it. -/
theorem Delivered.of_latchByte {s : State} {v : Byte} (hq : s.lcdBus = none) (hx : s.xpBus = some v) (hd : s.drops = []) :
    Delivered [] s (State.latchByte { s with xpBus := none } v) := by
  refine .of_silent (State.latchByte_cfg ..) (State.latchByte_trace ..) 
    (State.latchIf_drops (s := { s with xpBus := none, xp := .is v }) hd _) ?_ ?_
  · rw [State.lines_of_empty (State.latchByte_xpBus ..), State.latchByte_pins, State.latchByte_xp]
    simp only [State.lines, hx]
  · rw [State.view_of_empty (State.latchByte_xpBus ..)]
    simp only [State.view, hx, State.settledLcd_of_empty hq]
    exact State.latchIf_settledLcd (s := { s with xpBus := none, xp := .is v }) hd hq _

/-- A turn of an operation delivers the event it issues, if any. -/
theorem OpTurn.delivered {i : Instr} {s t : State} (h : OpTurn i s t) (hq : s.quiet) (hd : s.drops = []) :
    ∃ es, Delivered es s t := by
  cases h with
  | silent b d => exact ⟨[], .of_silent rfl rfl hd rfl rfl⟩
  | issues e b d =>
    obtain ⟨hcfg, htrace, hdrops, hlines, hview⟩ := Delivered.of_emit hq hd e
    exact ⟨[e], hcfg, htrace, hdrops, hlines, hview⟩
  | reads a v b d =>
    obtain ⟨hcfg, htrace, hdrops, hlines, hview⟩ := Delivered.of_emit hq hd (.textRead a v)
    exact ⟨[.textRead a v], hcfg, htrace, hdrops, hlines, hview⟩

/-- A host that only offers words goes on to do so (R76). -/
theorem onlyOffers_of_step {s t : State} (ho : onlyOffers s.script) (h : step s = .next t) : onlyOffers t.script := by
  have hhead {a : HostAct} {rest : List HostAct} (hs : s.script = a :: rest) : ∃ w, a = .offer w := ho a (by simp [hs])
  have hrest {a : HostAct} {rest : List HostAct} (hs : s.script = a :: rest) : onlyOffers rest := fun b hb =>
    ho b (by simp [hs, hb])
  obtain ⟨-, h⟩ := step_cases h
  rcases h with ⟨x, -, rfl⟩ | ⟨v, -, -, -, -, rfl⟩ | ⟨-, -, ⟨-, rfl⟩ | ⟨n, rest, hs, -⟩⟩ |
    ⟨-, -, i, script, -, hi, he, ⟨rfl, -⟩ | ⟨n, rest, hs, -⟩⟩ | ⟨-, w, rest, i, hs, -, hi, he⟩ | ⟨-, a, v, rest, hs, rfl⟩ |
    ⟨-, rest, hs, rfl⟩ | ⟨-, rest, hs, rfl⟩
  · exact ho
  · rw [State.latchByte_script]
    exact ho
  · exact ho
  · exact absurd (hhead hs) nofun
  · rw [(exec_op_turn hi he).script]
    exact ho
  · exact absurd (hhead hs) nofun
  · rw [(exec_op_turn hi he).script]
    exact hrest hs
  · exact hrest hs
  · exact hrest hs
  · exact hrest hs

theorem step_delivers {s t : State} (hd : s.drops = []) (ho : onlyOffers s.script) (h : step s = .next t) :
    ∃ es, Delivered es s t := by
  cases stepOutcome h with
  | controller x hx =>
    refine ⟨[], .of_silent rfl rfl hd rfl ?_⟩
    simp only [State.view, State.settledLcd, hx]
  | expander v hq hx => exact ⟨[], .of_latchByte hq hx hd⟩
  | host => exact ⟨[], .of_silent rfl rfl hd rfl rfl⟩
  | operation i b script _ hq _ _ ht =>
    obtain ⟨es, hcfg, htrace, hdrops, hlines, hview⟩ := ht.delivered hq hd
    exact ⟨es, hcfg, htrace, hdrops, hlines, hview⟩
  | reset rest _ hs =>
    obtain ⟨w, hw⟩ := ho .reset (by simp [hs])
    cases hw

/-- With no frame lost and no reset, the controller sees the frames of what is issued, in order. -/
theorem steps_deliver {n : Nat} {s t : State} (hd : s.drops = []) (ho : onlyOffers s.script) (h : steps n s = .next t) :
    ∃ es, Delivered es s t := by
  induction n generalizing s with
  | zero =>
    cases h
    exact ⟨[], .of_silent rfl rfl hd rfl rfl⟩
  | succ n ih =>
    cases hu : step s with
    | next u =>
      obtain ⟨es, hes⟩ := step_delivers hd ho hu
      simp only [steps, hu] at h
      obtain ⟨fs, hfs⟩ := ih hes.drops (onlyOffers_of_step ho hu) h
      exact ⟨es ++ fs, hes.trans hfs⟩
    | fault r => simp [steps, hu] at h
    | refused r => simp [steps, hu] at h

/-- Between two states with nothing on its way, the controller has seen the frames of the events between them. -/
theorem lcd_of_steps {n : Nat} {s t : State} {es : List Event} (hd : s.drops = []) (ho : onlyOffers s.script)
    (h : steps n s = .next t) (hs : s.quiet) (ht : t.quiet) (htrace : t.trace = s.trace ++ es) :
    t.lcd = (framesFrom s.cfg s.lines es).foldl Lcd.see s.lcd := by
  obtain ⟨fs, hfs⟩ := steps_deliver hd ho h
  obtain rfl : fs = es := List.append_cancel_left (hfs.trace.symm.trans htrace)
  rw [← State.view_of_quiet ht, ← State.view_of_quiet hs]
  exact hfs.view

/-! ### What the controller makes of a frame, and of a byte -/

/-! A frame the block shows, with RW = 0, is seen by mode and phase (R53, R54). -/

theorem Lcd.see_outside {l : Lcd} (h : l.iface = .undefined8) (n : Nibble) (rs : Bool) :
    l.see (.frame ⟨n, rs, false⟩) = l.act (.nibble rs n) := by
  rw [Lcd.see, State.latch_frame _ _ (by nofun), State.takeFrame_outside _ _ _ (by exact h)]
  rfl

theorem Lcd.see_even {l : Lcd} (h : l.iface = .fourBit) (he : l.half = none) (n : Nibble) (rs : Bool) :
    l.see (.frame ⟨n, rs, false⟩) = { l with wakes := l.wakesAfter ⟨n, rs, false⟩, half := some (n, rs) } := by
  rw [Lcd.see, State.latch_frame _ _ (by nofun), State.takeFrame_even _ _ _ (by exact h) (by exact he)]
  rfl

theorem Lcd.see_odd {l : Lcd} {m : Nibble} {rs : Bool} (h : l.iface = .fourBit) (ho : l.half = some (m, rs)) (n : Nibble) :
    l.see (.frame ⟨n, rs, false⟩) =
      Lcd.act { l with wakes := l.wakesAfter ⟨n, rs, false⟩, half := none } (.byte rs (joinNibbles m n)) := by
  rw [Lcd.see, State.latch_frame _ _ (by nofun), State.takeFrame_odd _ m _ _ (by exact h) (by exact ho)]
  rfl

theorem Lcd.see_mixed {l : Lcd} {m : Nibble} {rs : Bool} (h : l.iface = .fourBit) (ho : l.half = some (m, !rs))
    (n : Nibble) :
    l.see (.frame ⟨n, rs, false⟩) = { Lcd.unknown with wakes := l.wakesAfter ⟨n, rs, false⟩ } := by
  rw [Lcd.see, State.latch_frame _ _ (by nofun), State.takeFrame_mixed _ m _ _ (by exact h) (by exact ho)]
  rfl

/-! ### Three wake nibbles from any view -/

/-- A command byte leaves the count of wake nibbles and the phase as they are, or ends 4-bit mode (logs 6 and 25). -/
theorem Lcd.act_command (l : Lcd) (b : Byte) (h : l.iface = .fourBit) :
    (l.act (.byte false b)).wakes = l.wakes ∧
      ((l.act (.byte false b)).iface = .undefined8 ∨
        (l.act (.byte false b)).iface = .fourBit ∧ (l.act (.byte false b)).half = l.half) := by
  have hset : ∀ i, decodeCommand b = .ok i → (lcdEffect l i).wakes = l.wakes ∧
      (lcdEffect l i).iface = .fourBit ∧ (lcdEffect l i).half = l.half := by
    intro i hi
    simp only [decodeCommand] at hi
    repeat' split at hi
    all_goals cases hi
    all_goals
      simp only [lcdEffect, h, if_true]
      exact ⟨rfl, h, rfl⟩
  cases hd : decodeCommand b with
  | ok i =>
    have hact : l.act (.byte false b) = lcdEffect l i := Lcd.act_of_ok (x := .byte false b) hd l
    obtain ⟨hw, hm⟩ := hset i hd
    exact hact ▸ ⟨hw, .inr hm⟩
  | error e =>
    have hact : l.act (.byte false b) = l.forget := Lcd.act_of_error (x := .byte false b) hd l
    exact hact ▸ ⟨rfl, .inl rfl⟩

/-- The byte two wake nibbles make is no command of R77. -/
theorem Lcd.act_wakePair (l : Lcd) : l.act (.byte false (joinNibbles 3 3)) = l.forget := rfl

/-- `k` wake nibbles have been shown last. A controller that was in 4-bit mode may be there still, the nibbles pairing into
bytes, but not after the third (log 6). -/
structure Lcd.Woken (k : Nat) (l : Lcd) : Prop where
  atLeast : k ≤ l.wakes
  atMost : l.wakes ≤ 3
  mode : l.iface = .undefined8 ∨
    l.iface = .fourBit ∧ (k ≤ 1 ∧ l.half = none ∨ k ≤ 2 ∧ l.half = some (3, false))

/-- A wake nibble outside 4-bit mode is one more of them. -/
theorem Lcd.woken_outside {k : Nat} {l : Lcd} (hk : k ≤ 3) (hw : k ≤ l.wakes + 1) (h : l.iface = .undefined8) :
    (l.see (.frame ⟨3, false, false⟩)).Woken k := by
  rw [Lcd.see_outside h]
  exact ⟨Nat.le_min.mpr ⟨hk, hw⟩, l.oneMoreWake_le, .inl rfl⟩

/-- So is one that is held as a high half. -/
theorem Lcd.woken_even {k : Nat} {l : Lcd} (hk : k ≤ 2) (hw : k ≤ l.wakes + 1) (h : l.iface = .fourBit)
    (he : l.half = none) : (l.see (.frame ⟨3, false, false⟩)).Woken k := by
  rw [Lcd.see_even h he]
  exact ⟨Nat.le_min.mpr ⟨by omega, hw⟩, l.oneMoreWake_le, .inr ⟨h, .inr ⟨hk, rfl⟩⟩⟩

/-- The first wake nibble, whatever the controller's mode and phase. -/
theorem Lcd.woken_first (l : Lcd) : (l.see (.frame ⟨3, false, false⟩)).Woken 1 := by
  have hw : 1 ≤ l.oneMoreWake := Nat.le_min.mpr ⟨by omega, by omega⟩
  cases h : l.iface with
  | undefined8 => exact Lcd.woken_outside (by omega) (by omega) h
  | fourBit =>
    obtain he | ⟨m, ho⟩ | ⟨m, ho⟩ : l.half = none ∨ (∃ m, l.half = some (m, false)) ∨ ∃ m, l.half = some (m, true) := by
      rcases l.half with _ | ⟨m, _ | _⟩ <;> simp
    · exact Lcd.woken_even (by omega) (by omega) h he
    · rw [Lcd.see_odd h ho]
      obtain ⟨hc, hm⟩ := Lcd.act_command { l with wakes := l.oneMoreWake, half := none } (joinNibbles m 3) h
      exact ⟨hc ▸ hw, hc ▸ l.oneMoreWake_le, hm.imp_right fun ⟨hf, he⟩ => ⟨hf, .inl ⟨by omega, he⟩⟩⟩
    · rw [Lcd.see_mixed h ho]
      exact ⟨hw, l.oneMoreWake_le, .inl rfl⟩

/-- Each further one. -/
theorem Lcd.Woken.next {k : Nat} {l : Lcd} (h : l.Woken k) (hk : k ≤ 2) :
    (l.see (.frame ⟨3, false, false⟩)).Woken (k + 1) := by
  obtain ⟨hge, -, hm | ⟨hf, ⟨h1, he⟩ | ⟨-, ho⟩⟩⟩ := h
  · exact Lcd.woken_outside (by omega) (by omega) hm
  · exact Lcd.woken_even (by omega) (by omega) hf he
  · rw [Lcd.see_odd hf ho, Lcd.act_wakePair]
    exact ⟨Nat.le_min.mpr ⟨by omega, by omega⟩, l.oneMoreWake_le, .inl rfl⟩

/-- After three the nibble 0x2 gives 4-bit mode (R53, R133). -/
theorem Lcd.Woken.mode4 {l : Lcd} (h : l.Woken 3) :
    l.see (.frame ⟨2, false, false⟩) = { Lcd.unknown with iface := .fourBit } := by
  have hw : l.wakes = 3 := Nat.le_antisymm h.atMost h.atLeast
  have hm : l.iface = .undefined8 := h.mode.resolve_right (by omega)
  have hact : l.act (.nibble false 2) =
      { Lcd.unknown with iface := if l.wakes = 3 then .fourBit else .undefined8 } := rfl
  rw [Lcd.see_outside hm, hact, if_pos hw]

/-! ### INIT -/

/-- INIT's twelve frames under either transport (R138). -/
theorem framesFrom_initEvents (c : Config) (bl : Bool) (l : Lines) :
    framesFrom c l (initEvents c bl) =
      [3, 3, 3, 2, 2, 8, 0, 8, 0, 1, 0, 6].map fun n : Nibble => .frame ⟨n, false, false⟩ := by
  simp only [initEvents, cmd, send, framesFrom_append, framesFrom_txn, framesFrom_delay]
  rfl

/-- The four commands INIT ends with set every register of a controller just brought to 4-bit mode (R134 to R137, R213). -/
theorem Lcd.see_initCommands :
    ([2, 8, 0, 8, 0, 1, 0, 6].map fun n : Nibble => Observed.frame ⟨n, false, false⟩).foldl Lcd.see
      { Lcd.unknown with iface := .fourBit } = Lcd.afterInit := rfl

/-- INIT's frames bring the controller from any view to the one of R213. -/
theorem Lcd.see_init (l : Lcd) :
    ([3, 3, 3, 2, 2, 8, 0, 8, 0, 1, 0, 6].map fun n : Nibble => Observed.frame ⟨n, false, false⟩).foldl Lcd.see l =
      Lcd.afterInit := by
  have hwoken := (l.woken_first.next (by omega)).next (by omega)
  have h4 := hwoken.mode4
  rw [← Lcd.see_initCommands, ← h4]
  rfl

/-- Settles O55: INIT runs to idle (O51), and the controller has then seen its frames (`lcd_of_steps`), which leave one
view whatever there was before. -/
theorem initMakesTheControllerKnown : Obligations.InitMakesTheControllerKnown := by
  intro s hb hq hd hs
  have ho : onlyOffers s.script := fun a ha => ⟨0x10000000, by simpa [hs] using ha⟩
  obtain ⟨n, t, hn, ht, -, htrace, -, -, -, hdone⟩ :=
    operationRunsToIdle s .init 0x10000000 [] hb rfl rfl rfl hq hs nofun
  refine ⟨n, t, hn, ht, hdone rfl, ?_⟩
  rw [lcd_of_steps hd ho hn hq.1 ht.1 htrace, expansion, framesFrom_initEvents]
  exact s.lcd.see_init

end Sys2Proof.Machine

/-! # Encoding: the round trip, the table's rows, and where the machine refuses a word -/

namespace Sys2Proof.Machine

/-! ### Decode after encode -/

/-- Settles O2: an operation's word is read field by field (`decode_of_encode_op`); the bytes and nibbles of the other
agents are few enough to be checked one by one. -/
theorem decodeOfEncodeIsTheInstruction : Obligations.DecodeOfEncodeIsTheInstruction := by
  intro i
  cases i
  case lcdClear | lcdEntryMode | lcdFunctionSet | lcdData | nibWake | nibMode4 => rfl
  case lcdDisplayControl d c b => revert d c b; decide
  case lcdShiftDisplay r => revert r; decide
  case lcdSetDdramAddress a => revert a; decide
  case xpByte n b e r => revert n b e r; decide
  all_goals exact decode_of_encode_op rfl

/-! ### Encode after decode: the fields the decoder cuts out are put together again -/

/-- A field and the bit below it are the field that is one bit longer. -/
theorem extractLsb'_append_bit1 {w k n : Nat} (x : BitVec w) :
    x.extractLsb' (k + 1) n ++ bit1 (x.getLsbD k) = x.extractLsb' k (n + 1) := by
  have hbit : bit1 (x.getLsbD k) = x.extractLsb' k 1 := by
    ext j hj
    obtain rfl : j = 0 := by omega
    simp [bit1]
  rw [hbit, BitVec.extractLsb'_append_extractLsb'_eq_extractLsb' rfl]

/-- A word from its upper field and its three low bits (DISPCTL's operand field, the Display-Control byte). -/
theorem append_low3 {w : Nat} {x : BitVec (w + 1 + 1 + 1)} {top : BitVec w} (h : x.extractLsb' 3 w = top) :
    top ++ bit1 (x.getLsbD 2) ++ bit1 (x.getLsbD 1) ++ bit1 (x.getLsbD 0) = x := by
  rw [← h, extractLsb'_append_bit1, extractLsb'_append_bit1, extractLsb'_append_bit1, BitVec.extractLsb'_eq_self]

/-- A word from its upper field and its lowest bit (the operand fields of SHIFT and BACKLIGHT). -/
theorem append_low1 {w : Nat} {x : BitVec (w + 1)} {top : BitVec w} (h : x.extractLsb' 1 w = top) :
    top ++ bit1 (x.getLsbD 0) = x := by
  rw [← h, extractLsb'_append_bit1, BitVec.extractLsb'_eq_self]

theorem encode_of_decodeOperands {w : OpWord} {i : Instr} (h : decodeOperands w = .ok i) :
    encode i = .op (opWord (opcField w) (argField w)) := by
  simp only [decodeOperands] at h
  repeat' split at h
  all_goals cases h
  all_goals simp only [encode, *]
  · rw [gotoArg_fields]
  · rename_i harg
    rw [append_low3 harg]
  all_goals
    rename_i harg
    rw [append_low1 harg]

theorem encode_of_decodeOp {w : OpWord} {i : Instr} (h : decodeOp w = .ok i) : encode i = .op w := by
  simp only [decodeOp] at h
  split at h
  · rename_i hrsv
    rw [encode_of_decodeOperands h, opWord_fields w hrsv]
  · cases h

theorem shiftDisplay_fields {b : Byte} (h : b.extractLsb' 3 5 = 3 ∧ b.extractLsb' 0 2 = 0) :
    (3 : BitVec 5) ++ bit1 (b.getLsbD 2) ++ (0 : BitVec 2) = b := by
  rw [← h.1, ← h.2, extractLsb'_append_bit1, BitVec.extractLsb'_append_extractLsb'_eq_extractLsb' (by rfl),
    BitVec.extractLsb'_eq_self]

theorem setDdramAddress_fields {b : Byte} (h : b.getLsbD 7 = true) : (1 : BitVec 1) ++ b.extractLsb' 0 7 = b := by
  have h7 : (1 : BitVec 1) = b.extractLsb' 7 1 := by revert b; decide
  rw [h7, BitVec.extractLsb'_append_extractLsb'_eq_extractLsb' (by rfl), BitVec.extractLsb'_eq_self]

/-- One case for each class of R77, in the decoder's order. -/
theorem encode_of_decodeCommand {b : Byte} {i : Instr} (h : decodeCommand b = .ok i) :
    encode i = .lcd (.byte false b) := by
  simp only [decodeCommand] at h
  repeat' split at h
  all_goals cases h
  all_goals rename_i hb
  · rw [hb, encode]
  · rw [hb, encode]
  · rw [encode, append_low3 hb]
  · rw [encode, shiftDisplay_fields hb]
  · rw [hb, encode]
  · rw [encode, setDdramAddress_fields hb]

theorem encode_of_decodeNibble {rs : Bool} {n : Nibble} {i : Instr} (h : decodeNibble rs n = .ok i) :
    encode i = .lcd (.nibble rs n) := by
  simp only [decodeNibble] at h
  repeat' split at h
  all_goals cases h
  all_goals
    rename_i hn
    rw [hn.1, hn.2, encode]

theorem encode_of_decodeExpander {v : Byte} {i : Instr} (h : decodeExpander v = .ok i) : encode i = .xp v := by
  simp only [decodeExpander] at h
  split at h <;> cases h
  rename_i hrw
  have h1 : (0 : BitVec 1) = bit1 (v.getLsbD 1) := by rw [Bool.eq_false_iff.mpr hrw]; rfl
  rw [encode, h1, extractLsb'_append_bit1, extractLsb'_append_bit1, extractLsb'_append_bit1, extractLsb'_append_bit1]
  exact congrArg Code.xp BitVec.extractLsb'_eq_self

/-- Settles O3: each of the decoder's parts only accepts what the encoder writes. -/
theorem encodeOfDecodeIsTheCode : Obligations.EncodeOfDecodeIsTheCode := by
  intro c i h
  match c with
  | .op w => exact encode_of_decodeOp h
  | .lcd (.byte true b) => cases h; rfl
  | .lcd (.byte false b) => exact encode_of_decodeCommand h
  | .lcd (.nibble rs n) => exact encode_of_decodeNibble h
  | .xp v => exact encode_of_decodeExpander h

/-! ### The table's rows (R89) -/

theorem selects_iff {r : TableRow} {c : Code} :
    r.selects c = true ↔ c.format = r.format ∧ c.bits &&& r.mask = r.pattern := by
  simp [TableRow.selects]

/-- Two rows overlap: they have one format, and their patterns agree on the bits both of them fix. -/
abbrev RowsOverlap (r₁ r₂ : TableRow) : Prop :=
  r₁.format = r₂.format ∧ r₁.pattern &&& r₂.mask = r₂.pattern &&& r₁.mask

theorem rowsOverlap_of_selects {r₁ r₂ : TableRow} {c : Code} (h₁ : r₁.selects c = true)
    (h₂ : r₂.selects c = true) : RowsOverlap r₁ r₂ := by
  obtain ⟨hf₁, hb₁⟩ := selects_iff.mp h₁
  obtain ⟨hf₂, hb₂⟩ := selects_iff.mp h₂
  refine ⟨hf₁.symm.trans hf₂, ?_⟩
  rw [← hb₁, ← hb₂, BitVec.and_assoc, BitVec.and_assoc, BitVec.and_comm r₁.mask]

theorem tableRows_disjoint : ∀ r₁ ∈ tableRows, ∀ r₂ ∈ tableRows, RowsOverlap r₁ r₂ → r₁ = r₂ := by decide

/-- Every instruction's coded form lies in its own row (the family `Laws.InTable`). -/
theorem inTable (i : Instr) : Laws.InTable.Statement i := by
  cases i
  case init => exact Laws.InTable.init
  case clear => exact Laws.InTable.clear
  case goto row col => exact Laws.InTable.goto row col
  case dispctl d c b => exact Laws.InTable.dispctl d c b
  case print ta => exact Laws.InTable.print ta
  case shift dir => exact Laws.InTable.shift dir
  case backlight s => exact Laws.InTable.backlight s
  case lcdClear => exact Laws.InTable.lcdClear
  case lcdEntryMode => exact Laws.InTable.lcdEntryMode
  case lcdDisplayControl d c b => exact Laws.InTable.lcdDisplayControl d c b
  case lcdShiftDisplay r => exact Laws.InTable.lcdShiftDisplay r
  case lcdFunctionSet => exact Laws.InTable.lcdFunctionSet
  case lcdSetDdramAddress a => exact Laws.InTable.lcdSetDdramAddress a
  case lcdData ch => exact Laws.InTable.lcdData ch
  case nibWake => exact Laws.InTable.nibWake
  case nibMode4 => exact Laws.InTable.nibMode4
  case xpByte n b e r => exact Laws.InTable.xpByte n b e r

/-- A field that a row's mask covers whole has the pattern's value. -/
theorem extractLsb'_of_and {w k n : Nat} {x mask pattern : BitVec w} {v : BitVec n} (h : x &&& mask = pattern)
    (hm : mask.extractLsb' k n = BitVec.allOnes n := by decide) (hp : pattern.extractLsb' k n = v := by decide) :
    x.extractLsb' k n = v := by
  rw [← hp, ← h, BitVec.extractLsb'_and, hm, BitVec.and_allOnes]

/-- A field of `ARG` is the field of the word at the same place (R70). -/
theorem argField_extractLsb' (w : OpWord) {k n : Nat} (h : k + n ≤ 16) :
    (argField w).extractLsb' k n = w.extractLsb' k n := by
  ext j hj
  have hlt : k + j < 16 := by omega
  simp [argField, hlt]

/-- The seven rows of operation words each fix `OPC`, `RSV` and the reserved bits of `ARG`, which is all the decoder asks. -/
theorem decode_of_row_op {r : TableRow} (hr : r ∈ tableRows) (hf : .opw32 = r.format) {w : OpWord}
    (hb : w &&& r.mask = r.pattern) : ∃ i, decode (.op w) = .ok i := by
  have hrow : ∀ r ∈ tableRows, .opw32 = r.format →
      r.mask.extractLsb' 16 12 = BitVec.allOnes 12 ∧ r.pattern.extractLsb' 16 12 = 0 := by decide
  obtain ⟨hm, hp⟩ := hrow r hr hf
  have hrsv : rsvField w = 0 := extractLsb'_of_and hb hm hp
  simp only [tableRows, List.mem_cons, List.not_mem_nil, or_false] at hr
  simp only [decode, decodeOp, hrsv, if_true, decodeOperands]
  rcases hr with rfl | rfl | rfl | rfl | rfl | rfl | rfl | rfl | rfl | rfl | rfl | rfl | rfl | rfl | rfl | rfl | rfl
  · have hopc : opcField w = 1 := extractLsb'_of_and hb
    have harg : argField w = 0 := extractLsb'_of_and hb
    simp [hopc, harg]
  · have hopc : opcField w = 2 := extractLsb'_of_and hb
    have harg : argField w = 0 := extractLsb'_of_and hb
    simp [hopc, harg]
  · have hopc : opcField w = 3 := extractLsb'_of_and hb
    simp [hopc]
  · have hopc : opcField w = 4 := extractLsb'_of_and hb
    have harg : w.extractLsb' 3 13 = 0 := extractLsb'_of_and hb
    simp [hopc, argField_extractLsb', harg]
  · have hopc : opcField w = 5 := extractLsb'_of_and hb
    simp [hopc]
  · have hopc : opcField w = 6 := extractLsb'_of_and hb
    have harg : w.extractLsb' 1 15 = 0 := extractLsb'_of_and hb
    simp [hopc, argField_extractLsb', harg]
  · have hopc : opcField w = 7 := extractLsb'_of_and hb
    have harg : w.extractLsb' 1 15 = 0 := extractLsb'_of_and hb
    simp [hopc, argField_extractLsb', harg]
  all_goals cases hf

theorem exists_ok_of_isOk {ε α : Type} {x : Except ε α} (h : x.isOk = true) : ∃ i, x = .ok i := by
  cases x with
  | ok i => exact ⟨i, rfl⟩
  | error e => cases h

/-- The six rows of command bytes, each checked on the bytes it matches. -/
theorem decodeCommand_isOk_of_row : ∀ r ∈ tableRows, .lcd8 false = r.format →
    ∀ b : Byte, b.setWidth 32 &&& r.mask = r.pattern → (decodeCommand b).isOk = true := by decide

/-- The two rows of bare nibbles, each checked on the nibble it matches. -/
theorem decodeNibble_isOk_of_row : ∀ r ∈ tableRows, ∀ rs, .nib4 rs = r.format →
    ∀ n : Nibble, n.setWidth 32 &&& r.mask = r.pattern → (decodeNibble rs n).isOk = true := by decide

/-- The one row of expander bytes fixes RW, bit 1, to 0 (R82). -/
theorem decode_of_row_xp {r : TableRow} (hr : r ∈ tableRows) (hf : .xp8 = r.format) {v : Byte}
    (hb : v.setWidth 32 &&& r.mask = r.pattern) : ∃ i, decode (.xp v) = .ok i := by
  have hrow : ∀ r ∈ tableRows, .xp8 = r.format → r.mask = 2 ∧ r.pattern = 0 := by decide
  obtain ⟨hm, hp⟩ := hrow r hr hf
  rw [hm, hp] at hb
  have hrw : v.getLsbD 1 = false := by simpa using congrArg (BitVec.getLsbD · 1) hb
  exact ⟨_, by simp only [decode, decodeExpander, hrw]; rfl⟩

/-- What a row selects decodes, at whichever agent it arrives. -/
theorem decode_of_row {r : TableRow} (hr : r ∈ tableRows) {c : Code} (h : r.selects c = true) :
    ∃ i, decode c = .ok i := by
  obtain ⟨hf, hb⟩ := selects_iff.mp h
  match c with
  | .op w => exact decode_of_row_op hr hf hb
  | .lcd (.byte true b) => exact ⟨.lcdData b, rfl⟩
  | .lcd (.byte false b) => exact exists_ok_of_isOk (decodeCommand_isOk_of_row r hr hf b hb)
  | .lcd (.nibble rs n) => exact exists_ok_of_isOk (decodeNibble_isOk_of_row r hr rs hf n hb)
  | .xp v => exact decode_of_row_xp hr hf hb

/-- Settles O4: rows that select one code overlap, which no two rows do; an accepted code is an encoding (O3) and lies in its
instruction's row. -/
theorem decoderAcceptsWhatOneTableRowSelects : Obligations.DecoderAcceptsWhatOneTableRowSelects := by
  intro c
  refine ⟨fun r₁ hr₁ r₂ hr₂ h₁ h₂ => tableRows_disjoint r₁ hr₁ r₂ hr₂ (rowsOverlap_of_selects h₁ h₂), ?_, ?_⟩
  · rintro ⟨i, hi⟩
    obtain ⟨r, hr, -, hs⟩ := inTable i
    rw [encodeOfDecodeIsTheCode c i hi] at hs
    exact ⟨r, hr, hs⟩
  · rintro ⟨r, hr, h⟩
    exact decode_of_row hr h

/-- Settles O1: seventeen literal codes, each evaluated. -/
theorem writtenOutCodesDecode : Obligations.WrittenOutCodesDecode := by
  unfold Obligations.WrittenOutCodesDecode
  decide

/-! ### Reserved words are refused (R73, R182) -/

/-- The reserved words of R73: by `OPC`, by `RSV`, and by the reserved bits of each opcode's `ARG` (R72). -/
def ReservedWord (w : OpWord) : Prop :=
  opcField w = 0 ∨ 8 ≤ (opcField w).toNat ∨ rsvField w ≠ 0 ∨
    ((opcField w = 1 ∨ opcField w = 2) ∧ argField w ≠ 0) ∨ (opcField w = 4 ∧ w.extractLsb' 3 13 ≠ 0) ∨
    ((opcField w = 6 ∨ opcField w = 7) ∧ w.extractLsb' 1 15 ≠ 0)

/-- No operation is encoded as a reserved word. -/
theorem not_reservedWord_of_encode {i : Instr} {w : OpWord} (h : encode i = .op w) : ¬ ReservedWord w := by
  unfold ReservedWord
  cases i <;> cases h
  case dispctl d c b => revert d c b; decide
  case shift dir => revert dir; decide
  case backlight s => revert s; decide
  all_goals simp

/-- A reserved word decodes to nothing: whatever decodes is an encoding (O3). -/
theorem decode_of_reservedWord {w : OpWord} (h : ReservedWord w) : ∃ e, decode (.op w) = .error e := by
  cases hd : decode (.op w) with
  | ok i => exact absurd h (not_reservedWord_of_encode (encodeOfDecodeIsTheCode _ i hd))
  | error e => exact ⟨e, rfl⟩

/-- A ready block refuses a word that is no instruction. -/
theorem step_of_offer_error {s : State} {w : OpWord} {rest : List HostAct} {e : DecodeError} (hb : s.cfg.inBounds = true)
    (hq : s.ready) (hs : s.script = .offer w :: rest) (hd : decode (.op w) = .error e) :
    step s = .refused (.reservedWord e) := by
  simp only [step_of_offered hq hs, hb, if_true, State.acceptTurn, hd]

/-- Settles O5: a reserved word decodes to no instruction, and a ready block refuses a word that decodes to none. -/
theorem reservedWordIsRefused : Obligations.ReservedWordIsRefused := by
  intro s w rest hb hq hs hw
  obtain ⟨e, hd⟩ := decode_of_reservedWord hw
  exact ⟨e, step_of_offer_error hb hq hs hd⟩

/-- Settles O6: the two meanings that look at the transport. -/
theorem whatParallelLacksIsRefused : Obligations.WhatParallelLacksIsRefused := by
  intro s ht
  exact ⟨exec_backlight_of_parallel ht, fun n b e r => by simp only [exec, execXpByte, ht]⟩

/-! ### Where the machine stops (R180) -/

/-- An instruction that exists under the transport goes on. -/
theorem exec_next_of_wf {i : Instr} {s : State} (hw : i.wf s.cfg.transport = true) : ∃ t, exec i s = .next t := by
  cases i
  case backlight v =>
    have ht : s.cfg.transport = .expander := of_decide_eq_true hw
    simp only [exec, execBacklight, ht]
    exact ⟨_, rfl⟩
  case xpByte n b e r =>
    have ht : s.cfg.transport = .expander := of_decide_eq_true hw
    simp only [exec, execXpByte, ht]
    exact ⟨_, rfl⟩
  all_goals exact ⟨_, rfl⟩

/-- BACKLIGHT under PARALLEL is the one operation that does not exist under its transport (R74). -/
theorem eq_backlight_of_not_wf {i : Instr} {tr : Transport} (hi : i.isOperation = true) (hw : ¬ i.wf tr = true) :
    tr = .parallel ∧ ∃ v, i = .backlight v := by
  cases i <;> simp only [Instr.isOperation, Bool.false_eq_true] at hi
  case backlight v => cases tr <;> simp_all [Instr.wf]
  all_goals exact absurd rfl hw

/-- An idle block waits, and a busy one holds an operation that goes on. -/
theorem State.blockTurn_next {s : State} (h : s.block.wf s.cfg) : ∃ t, s.blockTurn = .next t := by
  simp only [State.blockTurn]
  split
  · rename_i hr
    have hwf := h hr
    split at hwf
    · exact hwf.elim
    · rename_i i hd
      simp only [hd]
      exact exec_next_of_wf hwf.1
  · exact ⟨s, rfl⟩

/-- A word offered to a ready block: it is run, or it is reserved, or it is BACKLIGHT under PARALLEL. -/
theorem step_of_offer_cases {s : State} {w : OpWord} {rest : List HostAct} (hb : s.cfg.inBounds = true) (hq : s.ready)
    (hs : s.script = .offer w :: rest) :
    (∃ t, step s = .next t) ∨ (∃ e, decode (.op w) = .error e ∧ step s = .refused (.reservedWord e)) ∨
      (s.cfg.transport = .parallel ∧ (∃ v, decode (.op w) = .ok (.backlight v)) ∧
        step s = .refused .backlightUnderParallel) := by
  cases hd : decode (.op w) with
  | error e => exact .inr (.inl ⟨e, rfl, step_of_offer_error hb hq hs hd⟩)
  | ok i =>
    rw [step_of_offer s i w rest hb hq hs hd]
    by_cases hw : i.wf s.cfg.transport = true
    · exact .inl (exec_next_of_wf hw)
    · obtain ⟨ht, v, rfl⟩ := eq_backlight_of_not_wf (decode_op_isOperation hd) hw
      exact .inr (.inr ⟨ht, ⟨v, rfl⟩, exec_backlight_of_parallel (s := ({ s with script := rest } : State).accept w _) ht v⟩)

/-- Settles O58: the controller and the expander always go on, the invariant giving the byte that waits its form; so does
every act of the host but an offer to a ready block (`step_of_offer_cases`). -/
theorem machineStopsOnlyAtAReservedWord : Obligations.MachineStopsOnlyAtAReservedWord := by
  intro s h
  cases hl : s.lcdBus with
  | some x => exact .inl ⟨_, step_of_lcdBus s x h.cfg hl⟩
  | none =>
  cases hx : s.xpBus with
  | some v =>
    obtain ⟨ht, h1, -⟩ := h.xpBus v hx
    exact .inl ⟨_, step_of_xpBus s v h.cfg hl hx ht h1⟩
  | none =>
  have hq : s.quiet := ⟨hl, hx⟩
  have hstep := step_of_quiet h.cfg hq
  simp only [State.hostTurn] at hstep
  split at hstep
  · rw [hstep]
    exact .inl (State.blockTurn_next h.block)
  · rename_i w rest hs
    split at hstep
    · rw [hstep]
      exact .inl (State.blockTurn_next h.block)
    · rename_i hr
      have hready : s.ready := ⟨hq, Bool.eq_false_iff.mpr hr⟩
      exact (step_of_offer_cases h.cfg hready hs).imp_right fun hstop => ⟨hready, w, rest, hs, hstop⟩
  · exact .inl ⟨_, hstep⟩
  · exact .inl ⟨_, hstep⟩
  · rw [hstep]
    exact .inl (State.blockTurn_next h.block)
  · exact .inl ⟨_, hstep⟩

/-- Settles O12: by `step_of_idle`. -/
theorem idleBlockWaits : Obligations.IdleBlockWaits := fun _ hb hq hs => step_of_idle hb hq hs

/-! ### Turns of the command operations and INIT -/

/-- The Display-Control byte in numbers (R78). -/
theorem displayControlByte_toNat (d c b : Bool) :
    (displayControlByte d c b).toNat = 8 + (if d then 4 else 0) + (if c then 2 else 0) + (if b then 1 else 0) := by
  revert d c b; decide

/-- Settles O14: each of these operations issues from the expansion of its one command byte. -/
theorem commandOperationsIssueTheirNextEvent : Obligations.CommandOperationsIssueTheirNextEvent := by
  intro s i b t hi e he
  have hexec : exec i s = .next (s.issue (cmd s.cfg s.block.bl b t)) := by
    rcases hi with ⟨rfl, rfl, rfl⟩ | ⟨d, c, bk, rfl, rfl, hb⟩ | ⟨rfl, rfl, rfl⟩ | ⟨rfl, rfl, rfl⟩ | ⟨col, rfl, rfl, rfl⟩ |
      ⟨col, rfl, rfl, rfl⟩
    · rfl
    · obtain rfl : b = displayControlByte d c bk := BitVec.eq_of_toNat_eq (hb.trans (displayControlByte_toNat d c bk).symm)
      rfl
    all_goals rfl
  rw [hexec, State.issue_of_get _ _ _ he]

/-- Settles O16: the ghost flag follows `RUN`, which falls with the last event. -/
theorem initIssuesItsNextEvent : Obligations.InitIssuesItsNextEvent := by
  intro s e hr he
  simp only [exec, execInit, State.issue_of_get _ _ _ he]
  split
  · have hrun : ((s.emit e).setPos (s.block.pos + 1)).block.run = true := by simp [hr]
    rw [hrun, Bool.not_true, Bool.or_false]
  · rw [State.idle_run, Bool.not_false, Bool.or_true]

end Sys2Proof.Machine

/-! # The transport: a transfer's events, the lines it leaves, and the frames it shows -/

namespace Sys2Proof.Machine

/-! ### A transfer's events and the lines after it -/

theorem txn_of_parallel {c : Config} (ht : c.transport = .parallel) (bl rs : Bool) (n : Nibble) :
    txn c bl n rs = txnPar c n rs := by simp only [txn, ht]

theorem txn_of_expander {c : Config} (ht : c.transport = .expander) (bl rs : Bool) (n : Nibble) :
    txn c bl n rs = txnExp c bl n rs := by simp only [txn, ht]

/-- A parallel transfer drives every output, so what the pins held before is gone (R102). -/
theorem Lines.run_txnPar_pins (c : Config) (l : Lines) (n : Nibble) (rs : Bool) :
    (l.run c (txnPar c n rs)).pins = ⟨.is rs, .is false, .is false, .is (n.getLsbD 0), .is (n.getLsbD 1),
      .is (n.getLsbD 2), .is (n.getLsbD 3)⟩ := by
  simp only [txnPar, Lines.run_append, Lines.run_delay]
  rfl

/-- An expander transfer ends with its EN = 0 byte in the latch (R104). -/
theorem Lines.run_txnExp_xp (c : Config) (l : Lines) (bl : Bool) (n : Nibble) (rs : Bool) :
    (l.run c (txnExp c bl n rs)).xp = .is (expanderByte n bl false rs) := by
  simp only [txnExp, Lines.run_append, Lines.run_delay, Lines.run, Lines.after, if_true]

/-- EN is bit 2 of the expander byte, and the rest is the byte with EN = 0 (R82). -/
theorem expanderByte_en_high (n : Nibble) (bl rs : Bool) :
    expanderByte n bl true rs = expanderByte n bl false rs ||| 0x04 := by
  revert n bl rs; decide

/-- Settles O41: both settles are there, as `T_EN` is not 0. -/
theorem parallelTransferIsTenEvents : Obligations.ParallelTransferIsTenEvents := by
  intro c bl rs n l ht hen
  rw [txn_of_parallel ht]
  refine ⟨?_, l.run_txnPar_pins c n rs⟩
  rw [txnPar, delay_of_pos hen]
  rfl

/-- Settles O42: the base is the byte with EN = 0. -/
theorem expanderTransferIsThreeEvents : Obligations.ExpanderTransferIsThreeEvents := by
  intro c bl rs n l ht hx
  rw [txn_of_expander ht]
  refine ⟨expanderByte n bl false rs, expanderByte_toNat n bl false rs, ?_, l.run_txnExp_xp c bl n rs⟩
  rw [txnExp, delay_of_pos hx, expanderByte_en_high]
  rfl

/-! ### BACKLIGHT's frames -/

/-- BACKLIGHT's byte has EN = 0, so what it shows depends on the latch alone. -/
theorem framesFrom_backlightEvents (c : Config) (v : Bool) (l : Lines) :
    framesFrom c l (backlightEvents c v) = (l.xp.observe (bitAt 3 v)).toList := by
  simp only [backlightEvents, framesFrom_append, framesFrom_delay, framesFrom, Lines.observe, if_true, List.append_nil]

/-- EN does not fall when the latch has EN = 0 (R108). -/
theorem framesFrom_backlightEvents_of_en_low {l : Lines} {u : Byte} (hx : l.xp = .is u) (hu : u.getLsbD 2 = false)
    (c : Config) (v : Bool) : framesFrom c l (backlightEvents c v) = [] := by
  rw [framesFrom_backlightEvents, hx]
  simp only [XpImage.observe, hu, Bool.false_eq_true, false_and, if_false, Option.toList_none]

/-- Settles O43: BACKLIGHT's byte has EN = 0, and so has the byte a transfer leaves. -/
theorem backlightShowsNoFrame : Obligations.BacklightShowsNoFrame := by
  intro c bl rs v n l ht
  refine ⟨fun u hx hu => framesFrom_backlightEvents_of_en_low hx hu c v, ?_, fun hx => ?_⟩
  · rw [txn_of_expander ht]
    exact ⟨_, l.run_txnExp_xp c bl n rs, expanderByte_en ..⟩
  · rw [framesFrom_backlightEvents, hx]
    simp only [XpImage.observe, bitAt3_bit2, Bool.false_eq_true, if_false, Option.toList_some]

/-! ### The frames of bytes, operations and strings -/

theorem framesFrom_send (c : Config) (bl rs : Bool) (b : Byte) (l : Lines) :
    framesFrom c l (send c bl b rs) = Observed.ofByte b rs := by
  rw [send, framesFrom_append, framesFrom_txn, framesFrom_txn]
  rfl

theorem framesFrom_cmd (c : Config) (bl : Bool) (b : Byte) (t : Nat) (l : Lines) :
    framesFrom c l (cmd c bl b t) = Observed.ofByte b false := by
  rw [cmd, framesFrom_append, framesFrom_send, framesFrom_delay, List.append_nil]

theorem framesFrom_data (c : Config) (bl : Bool) (ch : Byte) (l : Lines) :
    framesFrom c l (data c bl ch) = Observed.ofByte ch true := by
  rw [data, framesFrom_append, framesFrom_send, framesFrom_delay, List.append_nil]

/-- GOTO shows its byte, and nothing where it has none (R160, R161). -/
theorem framesFrom_gotoEvents (c : Config) (bl : Bool) (row col : Byte) (l : Lines) :
    framesFrom c l (gotoEvents c bl row col) = (gotoByte row col).toList.flatMap (Observed.ofByte · false) := by
  simp only [gotoEvents]
  cases gotoByte row col with
  | none => rfl
  | some b => simp [framesFrom_cmd]

/-- PRINT shows each character's byte; a text read shows nothing (R170). -/
theorem framesFrom_printEvents (c : Config) (bl : Bool) (a : TextAddr) (chs : List Byte) (l : Lines) :
    framesFrom c l (printEvents c bl a chs) = chs.flatMap (Observed.ofByte · true) := by
  induction chs generalizing a l with
  | nil => rfl
  | cons ch chs ih =>
    calc framesFrom c l (printEvents c bl a (ch :: chs))
      _ = framesFrom c l (data c bl ch ++ printEvents c bl (nextTextAddr a) chs) := rfl
      _ = Observed.ofByte ch true ++ chs.flatMap (Observed.ofByte · true) := by
        rw [framesFrom_append, framesFrom_data, ih]

/-- An operation's frames depend on its operands alone (R109). -/
theorem framesFrom_expansion_eq (c c' : Config) (bl bl' : Bool) (l l' : Lines) {i : Instr} (hi : ∀ v, i ≠ .backlight v) :
    framesFrom c l (expansion c bl i) = framesFrom c' l' (expansion c' bl' i) := by
  cases i <;> simp only [expansion]
  case init => rw [framesFrom_initEvents, framesFrom_initEvents]
  case clear => simp only [clearEvents, framesFrom_cmd]
  case goto => rw [framesFrom_gotoEvents, framesFrom_gotoEvents]
  case dispctl => simp only [dispctlEvents, framesFrom_cmd]
  case shift => simp only [shiftEvents, framesFrom_cmd]
  case backlight v => exact absurd rfl (hi v)
  all_goals rfl

/-- Settles O46: no frame mentions the configuration, `BL` or the lines before. -/
theorem transportsShowTheSameFrames : Obligations.TransportsShowTheSameFrames := by
  intro c c' bl bl' l l'
  refine ⟨fun n rs => framesFrom_txn c bl rs n l, fun i hi => framesFrom_expansion_eq c c' bl bl' l l' hi,
    fun a chs => by rw [framesFrom_printEvents, framesFrom_printEvents], fun n rs v ht => ?_⟩
  rw [txn_of_expander ht]
  exact framesFrom_backlightEvents_of_en_low (l.run_txnExp_xp c bl n rs) (expanderByte_en ..) c v

/-! ### The transport's events along a run, and frames the controller cannot use -/

/-- An event a step adds is one the block can issue. -/
theorem issuable_of_step {s t : State} {e : Event} (h : step s = .next t) (htr : t.trace = s.trace ++ [e]) :
    Issuable s.cfg e := by
  rcases step_cfg_trace_cases h with ⟨-, hsame⟩ | ⟨u, hcfg, hu, b, d, rfl | ⟨e', he, rfl⟩⟩ | ⟨-, -, hnil⟩
  · simp [hsame] at htr
  · simp [hu] at htr
  · obtain rfl : e' = e := by simpa [State.emit_trace, hu] using htr
    exact hcfg ▸ he
  · simp [hnil] at htr

theorem Issuable.transport_of_pin {c : Config} {p : Pin} {v : Bool} (h : Issuable c (.pin p v)) :
    c.transport = .parallel := by
  rcases h with ⟨_, ht, -⟩ | ⟨_, _, h⟩
  · exact ht
  · cases h

theorem Issuable.transport_of_i2cWrite {c : Config} {a : I2cAddr} {v : Byte} (h : Issuable c (.i2cWrite a v)) :
    c.transport = .expander := by
  rcases h with ⟨_, ht, -⟩ | ⟨_, _, h⟩
  · exact ht
  · cases h

/-- Settles O34: the events of one transport name it. -/
theorem transportsNeverMix : Obligations.TransportsNeverMix := by
  intro s t e h htr
  have he := issuable_of_step h htr
  refine ⟨fun ht a v hw => ?_, fun ht p v hp => ?_⟩
  · cases ht.symm.trans (hw ▸ he).transport_of_i2cWrite
  · cases ht.symm.trans (hp ▸ he).transport_of_pin

/-- Settles O29: a lost frame whatever it is; the other two when the next choice loses none. -/
theorem lostFrameLeavesTheControllerUnknown : Obligations.LostFrameLeavesTheControllerUnknown := by
  intro s
  refine ⟨fun o ds hd => ?_, fun hd o ho => ?_⟩
  · simp only [State.latch, hd]
  · simp only [State.latch]
    split
    · rename_i hlost
      simp [hlost] at hd
    · rcases ho with rfl | rfl <;> rfl

end Sys2Proof.Machine

/-! # The command encoder: how many events a byte takes, the byte the controller puts together, and PRINT's data turns -/

namespace Sys2Proof.Machine

/-! ### How many events -/

theorem txn_length_of_parallel {c : Config} (ht : c.transport = .parallel) (hen : 1 ≤ c.tEn) (bl rs : Bool) (n : Nibble) :
    (txn c bl n rs).length = 10 := by
  rw [txn_of_parallel ht, txnPar, delay_of_pos hen]
  rfl

theorem txn_length_of_expander {c : Config} (ht : c.transport = .expander) (hx : 1 ≤ c.tXp) (bl rs : Bool) (n : Nibble) :
    (txn c bl n rs).length = 3 := by
  rw [txn_of_expander ht, txnExp, delay_of_pos hx]
  rfl

/-- A byte takes two transfers of one length (R120). -/
theorem send_length {c : Config} {bl rs : Bool} {k : Nat} (h : ∀ n, (txn c bl n rs).length = k) (b : Byte) :
    (send c bl b rs).length = 2 * k := by
  rw [send, List.length_append, h, h, Nat.two_mul]

/-- A class delay that is not 0 is one event (R13, R123). -/
theorem cmd_of_pos {t : Nat} (h : 0 < t) (c : Config) (bl : Bool) (b : Byte) :
    cmd c bl b t = send c bl b false ++ [.delay t] := by rw [cmd, delay_of_pos h]

theorem data_of_pos {c : Config} (h : 0 < c.tCmd) (bl : Bool) (ch : Byte) :
    data c bl ch = send c bl ch true ++ [.delay c.tCmd] := by rw [data, delay_of_pos h]

/-- A transfer's count settles the others, whichever transport makes it (R126). -/
theorem eventCounts_of_txn {c : Config} {bl : Bool} {k t : Nat} (hcmd : 0 < c.tCmd) (ht : 0 < t)
    (h : ∀ rs n, (txn c bl n rs).length = k) (rs : Bool) (n : Nibble) (b : Byte) :
    (txn c bl n rs).length = k ∧ (send c bl b rs).length = 2 * k ∧ (cmd c bl b t).length = 2 * k + 1 ∧
      (data c bl b).length = 2 * k + 1 := by
  refine ⟨h rs n, send_length (h rs) b, ?_, ?_⟩
  · rw [cmd_of_pos ht, List.length_append, send_length (h false), List.length_singleton]
  · rw [data_of_pos hcmd, List.length_append, send_length (h true), List.length_singleton]

/-- Settles O49: no delay of a configuration in bounds is 0, so each is an event. -/
theorem eventCounts : Obligations.EventCounts := by
  intro c bl rs n b t hc ht
  obtain ⟨hcmd, hen, hx⟩ : 0 < c.tCmd ∧ 1 ≤ c.tEn ∧ 1 ≤ c.tXp := by
    simp only [Config.inBounds, Bool.and_eq_true, decide_eq_true_eq] at hc
    omega
  exact ⟨fun hp => eventCounts_of_txn hcmd ht (fun rs n => txn_length_of_parallel hp hen bl rs n) rs n b,
    fun he => eventCounts_of_txn hcmd ht (fun rs n => txn_length_of_expander he hx bl rs n) rs n b,
    cmd_of_pos ht c bl b, data_of_pos hcmd bl b⟩

/-! ### The byte the controller puts together -/

theorem joinNibbles_high_low (b : Byte) : joinNibbles (highNibble b) (lowNibble b) = b := by
  revert b; decide

/-- With no loss to come a frame is taken and the environment's choices stay (R220). -/
theorem State.latch_frame_of_no_loss {s : State} (hd : s.drops = []) (f : Frame) :
    s.latch (.frame f) = s.takeFrame f := by
  have htail : { s with drops := s.drops.tail } = s := by
    cases s
    cases hd
    rfl
  rw [s.latch_frame f (by simp [hd]), htail]

/-- A byte's two frames bring a controller at even phase back to even phase, with that byte in whole; of its view only the
count of wake nibbles has moved (R53, R54). -/
theorem State.latch_ofByte {s : State} (h : s.lcd.iface = .fourBit) (he : s.lcd.half = none) (hd : s.drops = [])
    (b : Byte) (rs : Bool) :
    ∃ k, (s.latch (.written (highNibble b) rs)).latch (.written (lowNibble b) rs) =
      { s with lcd := { s.lcd with wakes := k }, lcdBus := some (.byte rs b) } := by
  rw [Observed.written, Observed.written, State.latch_frame_of_no_loss hd, s.takeFrame_even _ _ h he,
    State.latch_frame_of_no_loss (by exact hd), State.takeFrame_odd _ (highNibble b) _ _ (by exact h) rfl,
    joinNibbles_high_low]
  exact ⟨_, by rw [← he]⟩

/-- Settles O44: `framesFrom_send` and `framesFrom_printEvents` give the frames, `latch_ofByte` the byte. -/
theorem byteIsFramedHighNibbleFirst : Obligations.ByteIsFramedHighNibbleFirst := by
  intro c bl rs b l
  refine ⟨framesFrom_send c bl rs b l, fun s h he hd => ?_, fun ta => framesFrom_printEvents c bl ta [0x41, 0x42] l⟩
  obtain ⟨k, hk⟩ := State.latch_ofByte h he hd b rs
  obtain rfl : _ = k := congrArg (·.lcd.wakes) hk
  exact hk

/-! ### PRINT's data turns -/

theorem nextTextAddr_toNat (a : TextAddr) : (nextTextAddr a).toNat = (a.toNat + 1) % 65536 := BitVec.toNat_add a 1

/-- Past the text read, PRINT's turn issues the event of `data(CH)` one place before `POS`; after the last one it goes on to
the next character (R170). -/
theorem exec_print_data {s : State} {k : Nat} {e : Event} (hk : s.block.pos = k + 1)
    (he : (data s.cfg s.block.bl s.block.ch)[k]? = some e) (ta : TextAddr) :
    exec (.print ta) s = .next (if k + 1 < (data s.cfg s.block.bl s.block.ch).length then (s.emit e).setPos (k + 2)
      else (s.emit e).nextCharacter) := by
  simp only [exec, execPrint, hk, Nat.add_one_ne_zero, if_false, State.printData, Nat.add_sub_cancel, he]

/-- Settles O19: the two branches of `exec_print_data`. -/
theorem printSendsTheCharacterAndAdvances : Obligations.PrintSendsTheCharacterAndAdvances := by
  intro s ta k e hk he
  refine ⟨fun hlt => ?_, fun hlast => ⟨(s.emit e).nextCharacter, ?_, rfl, ?_⟩⟩
  · rw [exec_print_data hk he, if_pos hlt]
  · rw [exec_print_data hk he, if_neg (by omega)]
  · calc (s.emit e).nextCharacter.block.tp.toNat
      _ = (nextTextAddr s.block.tp).toNat := by rw [← s.emit_block e]; rfl
      _ = (s.block.tp.toNat + 1) % 65536 := nextTextAddr_toNat s.block.tp

end Sys2Proof.Machine

/-! # The sequencer: frames in pairs, and INIT's events written out -/

namespace Sys2Proof.Machine

/-! ### Frames in pairs -/

theorem length_framesFrom_cmd (c : Config) (bl : Bool) (b : Byte) (t : Nat) (l : Lines) :
    (framesFrom c l (cmd c bl b t)).length = 2 := by
  rw [framesFrom_cmd]
  rfl

/-- Each byte of a list shows two frames (R125). -/
theorem length_flatMap_ofByte (bs : List Byte) (rs : Bool) :
    (bs.flatMap (Observed.ofByte · rs)).length = 2 * bs.length := by
  simp [List.length_flatMap, Observed.ofByte, Nat.mul_comm]

/-- INIT's twelve frames, a command's two, GOTO's two or none (R219). -/
theorem even_framesFrom_expansion (c : Config) (bl : Bool) (l : Lines) {i : Instr} (hi : ∀ v, i ≠ .backlight v) :
    (framesFrom c l (expansion c bl i)).length % 2 = 0 := by
  cases i <;> simp only [expansion]
  case init => rw [framesFrom_initEvents, List.length_map]; rfl
  case clear => rw [clearEvents, length_framesFrom_cmd]
  case goto => rw [framesFrom_gotoEvents, length_flatMap_ofByte, Nat.mul_mod_right]
  case dispctl => rw [dispctlEvents, length_framesFrom_cmd]
  case shift => rw [shiftEvents, length_framesFrom_cmd]
  case backlight v => exact absurd rfl (hi v)
  all_goals rfl

/-- Settles O47: frames come from bytes, two each, but for INIT's four single ones, which are even in number too. -/
theorem framesComeInPairs : Obligations.FramesComeInPairs := by
  intro c bl l
  refine ⟨fun i hi => even_framesFrom_expansion c bl l hi, fun a chs => ?_, ?_⟩
  · rw [framesFrom_printEvents, length_flatMap_ofByte]
  · rw [framesFrom_initEvents]
    rfl

/-! ### INIT's events -/

/-- R9's bounds leave no delay of INIT but `T_INIT3` and `T_MODE4` at 0, nor a transfer's. -/
theorem Config.delays_pos {c : Config} (hc : c.inBounds = true) :
    (0 < c.tPwr ∧ 0 < c.tInit1 ∧ 0 < c.tInit2 ∧ 0 < c.tCmd ∧ 0 < c.tClr) ∧ 1 ≤ c.tEn ∧ 1 ≤ c.tXp := by
  simp only [Config.inBounds, Bool.and_eq_true, decide_eq_true_eq] at hc
  omega

/-- INIT as twelve transfers and eight delays: `T_INIT3` is 0 and leaves none, and the others are not 0 (R130, R138). -/
theorem initEvents_eq_transfers {c : Config} (hc : c.inBounds = true) (h3 : c.tInit3 = 0) (h4 : 0 < c.tMode4) (bl : Bool) :
    initEvents c bl =
      [Event.delay c.tPwr] ++ txn c bl 3 false ++ [Event.delay c.tInit1] ++ txn c bl 3 false ++ [Event.delay c.tInit2] ++
        txn c bl 3 false ++ txn c bl 2 false ++ [Event.delay c.tMode4] ++
        txn c bl 2 false ++ txn c bl 8 false ++ [Event.delay c.tCmd] ++
        txn c bl 0 false ++ txn c bl 8 false ++ [Event.delay c.tCmd] ++
        txn c bl 0 false ++ txn c bl 1 false ++ [Event.delay c.tClr] ++
        txn c bl 0 false ++ txn c bl 6 false ++ [Event.delay c.tCmd] := by
  obtain ⟨⟨hpwr, h1, h2, hcmd, hclr⟩, -⟩ := Config.delays_pos hc
  simp only [initEvents, cmd_of_pos hcmd, cmd_of_pos hclr, send, delay_of_pos hpwr, delay_of_pos h1, delay_of_pos h2, h3,
    delay_zero, delay_of_pos h4, List.append_nil, ← List.append_assoc]
  rfl

theorem length_initEvents {c : Config} (hc : c.inBounds = true) (h3 : c.tInit3 = 0) (h4 : 0 < c.tMode4) {bl : Bool} {k : Nat}
    (h : ∀ n, (txn c bl n false).length = k) : (initEvents c bl).length = 12 * k + 8 := by
  simp only [initEvents_eq_transfers hc h3 h4, List.length_append, h, List.length_singleton]
  omega

/-- The backlight is bit 3 of the expander byte: with it off the byte is 0x08 less (R82). -/
theorem expanderByte_eq_ite (n : Nibble) (bl en rs : Bool) :
    expanderByte n bl en rs = if bl then expanderByte n true en rs else expanderByte n true en rs - 0x08 := by
  revert n bl en rs; decide

theorem txn_eq_writes_of_expander {c : Config} (ht : c.transport = .expander) (hx : 1 ≤ c.tXp) (bl rs : Bool) (n : Nibble) :
    txn c bl n rs =
      [.i2cWrite c.i2cAddr (if bl then expanderByte n true true rs else expanderByte n true true rs - 0x08),
        .i2cWrite c.i2cAddr (if bl then expanderByte n true false rs else expanderByte n true false rs - 0x08),
        .delay c.tXp] := by
  rw [txn_of_expander ht, txnExp, delay_of_pos hx, expanderByte_eq_ite n bl true, expanderByte_eq_ite n bl false]
  rfl

/-- Settles O48: the transfers of `initEvents_eq_transfers`, each written out for its transport; the expander's bytes, the
backlight on, then compute to those of the statement. -/
theorem initExpansionWrittenOut : Obligations.InitExpansionWrittenOut := by
  intro c bl l hc h3 h4
  obtain ⟨-, hen, hx⟩ := Config.delays_pos hc
  have hinit := initEvents_eq_transfers hc h3 h4 bl
  refine ⟨framesFrom_initEvents c bl l, fun ht => ?_, fun ht => ?_⟩
  · intro w x
    have htxn (n : Nibble) : txn c bl n false =
        [w (expanderByte n true true false), w (expanderByte n true false false), x] :=
      txn_eq_writes_of_expander ht hx bl false n
    simp only [htxn, List.cons_append, List.nil_append] at hinit
    exact ⟨hinit, length_initEvents hc h3 h4 (txn_length_of_expander ht hx bl false)⟩
  · intro x
    have htxn (n : Nibble) : txn c bl n false = x n := (parallelTransferIsTenEvents c bl false n l ht hen).1
    simp only [htxn] at hinit
    exact ⟨hinit, length_initEvents hc h3 h4 (txn_length_of_parallel ht hen bl false)⟩

end Sys2Proof.Machine

/-! # Addressing: GOTO on a row the panel does not have -/

namespace Sys2Proof.Machine

/-- A row other than 1 and 2 has no byte, whatever the column (R80, R161). -/
theorem gotoByte_of_other_row {row : Byte} (h1 : row ≠ 1) (h2 : row ≠ 2) (col : Byte) : gotoByte row col = none := by
  rw [gotoByte, if_neg h1, if_neg h2]

theorem gotoEvents_of_other_row (c : Config) (bl : Bool) {row : Byte} (h1 : row ≠ 1) (h2 : row ≠ 2) (col : Byte) :
    gotoEvents c bl row col = [] := by
  rw [gotoEvents, gotoByte_of_other_row h1 h2]

/-- Settles O15: the row has no byte and so no events, and with none left `issue` leaves the block idle. -/
theorem gotoAnyOtherRowDoesNothing : Obligations.GotoAnyOtherRowDoesNothing := by
  intro s row col h1 h2
  have hev : gotoEvents s.cfg s.block.bl row col = [] := gotoEvents_of_other_row _ _ h1 h2 col
  refine ⟨hev, ?_⟩
  calc exec (.goto row col) s
    _ = .next (s.issue (gotoEvents s.cfg s.block.bl row col)) := rfl
    _ = .next s.idle := by rw [s.issue_of_end _ (by rw [hev, List.getElem?_nil])]

end Sys2Proof.Machine

/-! # String output: a string with no terminator -/

namespace Sys2Proof.Machine

/-! ### Runs, cut short and taken step by step -/

/-- A run that goes on takes a first step and goes on from there. -/
theorem exists_step_of_steps_succ {n : Nat} {s u : State} (h : steps (n + 1) s = .next u) :
    ∃ t, step s = .next t ∧ steps n t = .next u := by
  cases hs : step s with
  | next t => exact ⟨t, rfl, by simpa only [steps, hs] using h⟩
  | fault r => simp [steps, hs] at h
  | refused r => simp [steps, hs] at h

/-- A run that goes on for `m + n` steps has gone on for the first `m` of them. -/
theorem steps_split {m n : Nat} {s u : State} (h : steps (m + n) s = .next u) :
    ∃ t, steps m s = .next t ∧ steps n t = .next u := by
  induction m generalizing s with
  | zero => exact ⟨s, rfl, by rwa [Nat.zero_add] at h⟩
  | succ m ih =>
    rw [Nat.succ_add] at h
    obtain ⟨v, hv, hrest⟩ := exists_step_of_steps_succ h
    simp only [steps, hv]
    exact ih hrest

/-- The turns of a running operation are at least one step. -/
theorem Turns.exists_steps {i : Instr} {s u : State} (h : Turns i s u) (hs : Running i s) : ∃ n, steps (n + 1) s = .next u := by
  obtain ⟨t, n, ht, hn⟩ := h
  have hstep : step s = .next t := (step_of_busy s i hs.inBounds hs.quiet hs.run hs.offers hs.word).trans ht
  exact ⟨n, by simp only [steps, hstep, hn]⟩

/-- A ready block's step with a word offered is the first step of the state that has accepted it (R26, log 12). -/
theorem step_eq_step_accept {s : State} {i : Instr} {w : OpWord} {rest : List HostAct} (hb : s.cfg.inBounds = true)
    (hq : s.ready) (hs : s.script = .offer w :: rest) (ho : onlyOffers rest) (hd : decode (.op w) = .ok i) :
    step s = step (State.accept { s with script := rest } w i) := by
  obtain ⟨hb', hq', hr, hd', ho'⟩ := running_of_accept hb hq ho hd
  rw [step_of_offer s i w rest hb hq hs hd, step_of_busy _ i hb' hq' hr ho' hd']

/-! ### An idle block with nothing offered stays idle -/

/-- Where the host has nothing more to do, it goes on having nothing, and no step makes the block busy (R210). -/
theorem idle_of_step {s t : State} (hs : s.script = []) (h : step s = .next t) :
    t.script = [] ∧ (s.block.run = false → t.block.run = false) := by
  obtain ⟨-, h⟩ := step_cases h
  rcases h with ⟨x, -, rfl⟩ | ⟨v, -, -, -, -, rfl⟩ | ⟨-, -, ⟨-, rfl⟩ | ⟨n, rest, hs', -⟩⟩ |
    ⟨-, hr, i, script, -, hi, he, ⟨rfl, -⟩ | ⟨n, rest, hs', -⟩⟩ | ⟨-, w, rest, i, hs', -⟩ | ⟨-, a, v, rest, hs', -⟩ |
    ⟨-, rest, hs', -⟩ | ⟨-, rest, hs', -⟩
  · exact ⟨hs, id⟩
  · rw [State.latchByte_script, State.latchByte_block]
    exact ⟨hs, id⟩
  · exact ⟨hs, id⟩
  · simp [hs] at hs'
  · exact ⟨(exec_op_turn hi he).script.trans hs, by simp [hr]⟩
  all_goals simp [hs] at hs'

theorem idle_of_steps {n : Nat} {s t : State} (hs : s.script = []) (h : steps n s = .next t) :
    t.script = [] ∧ (s.block.run = false → t.block.run = false) := by
  induction n generalizing s with
  | zero =>
    cases h
    exact ⟨hs, id⟩
  | succ n ih =>
    obtain ⟨u, hu, hrest⟩ := exists_step_of_steps_succ h
    obtain ⟨hus, hidle⟩ := idle_of_step hs hu
    obtain ⟨hts, hidle'⟩ := ih hus hrest
    exact ⟨hts, hidle' ∘ hidle⟩

/-- With nothing offered, a block that is busy after `m` steps has been busy after every number of steps before. -/
theorem busy_before {n m : Nat} {s u : State} (hs : s.script = []) (hnm : n ≤ m) (h : steps m s = .next u)
    (hr : u.block.run = true) : ∃ t, steps n s = .next t ∧ t.block.run = true := by
  rw [← Nat.add_sub_cancel' hnm] at h
  obtain ⟨t, ht, hu⟩ := steps_split h
  refine ⟨t, ht, Bool.of_not_eq_false fun hidle => ?_⟩
  have hu' : u.block.run = false := (idle_of_steps (idle_of_steps hs ht).1 hu).2 hidle
  simp [hr] at hu'

/-! ### PRINT of characters without end -/

/-- The events of printing depend on the configuration, `BL` and TEXT alone (R24). -/
theorem State.charEvents_congr {s t : State} (hcfg : t.cfg = s.cfg) (hbl : t.block.bl = s.block.bl) (htext : t.text = s.text)
    (a : TextAddr) (k : Nat) : t.charEvents a k = s.charEvents a k := by
  induction k generalizing a with
  | zero => rfl
  | succ k ih => rw [State.charEvents, State.charEvents, State.readText_congr htext, hcfg, hbl, ih]

/-- Where no byte of TEXT is 0x00, PRINT sends any number `k` of characters, in `k` steps or more, and is still busy
(R173). -/
theorem steps_of_characters {ta : TextAddr} {s : State} (h : Running (.print ta) s) (h0 : s.block.pos = 0)
    (hz : ∀ a, s.readText a ≠ 0) (k : Nat) :
    ∃ n u, k ≤ n ∧ steps n s = .next u ∧ u.block.run = true ∧ u.trace = s.trace ++ s.charEvents s.block.tp k := by
  induction k generalizing s with
  | zero => exact ⟨0, s, le_rfl, rfl, h.run, (List.append_nil _).symm⟩
  | succ k ih =>
    obtain ⟨t, hturns, hpt, hrt, hpos, htp⟩ := turns_of_character h h0 (hz _)
    obtain ⟨m, hm⟩ := hturns.exists_steps h
    obtain ⟨n, u, hkn, hn, hru, htrace⟩ := ih (h.progress hpt hrt) hpos
      fun a => State.readText_congr hpt.text a ▸ hz a
    refine ⟨m + 1 + n, u, by omega, (steps_add _ _ _ _ hm).trans hn, hru, ?_⟩
    rw [htrace, hpt.trace, htp, State.charEvents_congr hpt.cfg hpt.bl hpt.text, List.append_assoc]
    rfl

/-- Settles O53: from the accepting state PRINT sends any number of characters (`steps_of_characters`); so it is busy
arbitrarily late, hence always (`busy_before`). -/
theorem unterminatedPrintNeverEnds : Obligations.UnterminatedPrintNeverEnds := by
  intro s ta w hb henc hq hs hz
  have hd := decode_of_encode_op henc
  have hsteps : ∀ n, steps (n + 1) s = steps (n + 1) (State.accept { s with script := [] } w (.print ta)) := fun n => by
    simp only [steps, step_eq_step_accept hb hq hs nofun hd]
  have hchars := steps_of_characters (running_of_accept (rest := []) hb hq nofun hd) rfl hz
  refine ⟨fun n => ?_, fun k => ?_⟩
  · obtain ⟨m, u, hnm, hm, hr, -⟩ := hchars (n + 1)
    obtain ⟨t, ht, hrt⟩ := busy_before rfl hnm hm hr
    exact ⟨t, (hsteps n).trans ht, hrt⟩
  · cases k with
    | zero => exact ⟨0, s, rfl, (List.append_nil _).symm⟩
    | succ k =>
      obtain ⟨m, u, hkm, hm, -, htrace⟩ := hchars (k + 1)
      obtain ⟨n, rfl⟩ := Nat.exists_eq_add_of_lt hkm
      have hevents := State.charEvents_congr (s := s) (t := State.accept { s with script := [] } w (.print ta)) rfl rfl rfl
      exact ⟨_, u, (hsteps _).trans hm, htrace.trans (congrArg (s.trace ++ ·) (hevents ta (k + 1)))⟩

end Sys2Proof.Machine

/-! # Timing: the sums of the delays requested -/

namespace Sys2Proof.Machine

/-! ### What adds up -/

@[simp] theorem delaySum_append (es fs : List Event) : delaySum (es ++ fs) = delaySum es + delaySum fs := by
  induction es with
  | nil => simp [delaySum]
  | cons e es ih => cases e <;> simp [delaySum, ih, Nat.add_assoc]

/-- The delay of 0 that is no event adds nothing either (R13). -/
@[simp] theorem delaySum_delay (t : Nat) : delaySum (delay t) = t := by
  cases t <;> rfl

theorem delaySum_txn_of_parallel {c : Config} (ht : c.transport = .parallel) (bl rs : Bool) (n : Nibble) :
    delaySum (txn c bl n rs) = 2 * c.tEn := by
  simp only [txn_of_parallel ht, txnPar, delaySum_append, delaySum_delay, delaySum]
  omega

theorem delaySum_txn_of_expander {c : Config} (ht : c.transport = .expander) (bl rs : Bool) (n : Nibble) :
    delaySum (txn c bl n rs) = c.tXp := by
  simp only [txn_of_expander ht, txnExp, delaySum_append, delaySum_delay, delaySum, Nat.zero_add]

theorem delaySum_backlightEvents (c : Config) (v : Bool) : delaySum (backlightEvents c v) = c.tXp := by
  simp only [backlightEvents, delaySum_append, delaySum_delay, delaySum, Nat.zero_add]

/-! ### A transfer's sum settles those of all that is made of transfers, whichever transport makes it -/

section
variable {c : Config} {bl : Bool} {x : Nat} (h : ∀ n rs, delaySum (txn c bl n rs) = x)
include h

theorem delaySum_send (b : Byte) (rs : Bool) : delaySum (send c bl b rs) = 2 * x := by
  rw [send, delaySum_append, h, h, Nat.two_mul]

theorem delaySum_cmd (b : Byte) (t : Nat) : delaySum (cmd c bl b t) = 2 * x + t := by
  rw [cmd, delaySum_append, delaySum_send h, delaySum_delay]

theorem delaySum_data (ch : Byte) : delaySum (data c bl ch) = 2 * x + c.tCmd := by
  rw [data, delaySum_append, delaySum_send h, delaySum_delay]

/-- GOTO sends one command on the panel's two rows, and nothing on any other (R160, R161). -/
theorem delaySum_gotoEvents (row col : Byte) :
    delaySum (gotoEvents c bl row col) = if row = 1 ∨ row = 2 then 2 * x + c.tCmd else 0 := by
  by_cases h1 : row = 1
  · rw [if_pos (.inl h1), h1]
    exact delaySum_cmd h _ _
  · by_cases h2 : row = 2
    · rw [if_pos (.inr h2), h2]
      exact delaySum_cmd h _ _
    · rw [gotoEvents_of_other_row c bl h1 h2, if_neg (not_or.mpr ⟨h1, h2⟩), delaySum]

/-- The text reads request no delay: only the characters count (R170, R171). -/
theorem delaySum_printEvents (ta : TextAddr) (chs : List Byte) :
    delaySum (printEvents c bl ta chs) = chs.length * (2 * x + c.tCmd) := by
  induction chs generalizing ta with
  | nil => exact (Nat.zero_mul _).symm
  | cons ch chs ih =>
    calc delaySum (printEvents c bl ta (ch :: chs))
      _ = delaySum (data c bl ch) + delaySum (printEvents c bl (nextTextAddr ta) chs) := delaySum_append _ _
      _ = (2 * x + c.tCmd) + chs.length * (2 * x + c.tCmd) := by rw [delaySum_data h, ih]
      _ = (ch :: chs).length * (2 * x + c.tCmd) := by rw [List.length_cons, Nat.add_one_mul chs.length, Nat.add_comm]

/-- Four single transfers and four bytes make INIT's twelve (R130, R138). -/
theorem delaySum_initEvents :
    delaySum (initEvents c bl) =
      c.tPwr + c.tInit1 + c.tInit2 + c.tInit3 + c.tMode4 + 3 * c.tCmd + c.tClr + 12 * x := by
  simp only [initEvents, delaySum_append, delaySum_delay, h, delaySum_cmd h]
  omega

end

/-- Settles O50: the sums of a transfer's parts give every unit's, and R9's bounds the two lower bounds. -/
theorem requestedDelays : Obligations.RequestedDelays := by
  intro c bl rs v d cu bk dir n b row col ta chs x hx
  have htxn : ∀ n rs, delaySum (txn c bl n rs) = x := by
    intro n rs
    cases ht : c.transport with
    | parallel => simpa only [ht, hx] using delaySum_txn_of_parallel ht bl rs n
    | expander => simpa only [ht, hx] using delaySum_txn_of_expander ht bl rs n
  have hclear : delaySum (clearEvents c bl) = 2 * x + c.tClr := delaySum_cmd htxn _ _
  have hinit := delaySum_initEvents htxn
  refine ⟨htxn n rs, delaySum_send htxn b rs, delaySum_cmd htxn b _, delaySum_data htxn b, hclear,
    delaySum_backlightEvents c v, delaySum_cmd htxn _ _, delaySum_cmd htxn _ _, delaySum_gotoEvents htxn row col,
    delaySum_printEvents htxn ta chs, hinit, fun hlower => ?_, fun hc => ?_⟩
  · obtain ⟨hpwr, h1, h2, h3, h4, hcmd, hclr⟩ := hlower
    rw [hinit, hpwr, h1, h2, h3, h4, hcmd, hclr]
  · simp only [Config.inBounds, Bool.and_eq_true, decide_eq_true_eq] at hc
    rw [delaySum_cmd htxn, hclear]
    omega

end Sys2Proof.Machine
